-- ==== Sys2Proof/Word.lean ====
section
/-! DEFINITION. The words of U256 CORE: limb, value, port word, command word, byte and register number
(00_scope.md R4 and section 5; 10_state.md R20, R21). -/

namespace Sys2Proof

/-- A limb: "one fixed-width half of the 256-bit representation (a 128-bit unsigned value)" (R4 `LIMB_W`). -/
abbrev Limb := BitVec 128

/-- What the 256-bit data ports `wdata` and `rdata` carry (R4 `DATA_W`, R42). -/
abbrev PortWord := BitVec 256

/-- A command word, `cmd[31:0]` (R4 `CMD_W`, R60). -/
abbrev CmdWord := BitVec 32

/-- One character of the string buffer (R191). -/
abbrev Byte := BitVec 8

/-- A value register number, 0 to 15 (R4 `NREG`, R21). -/
abbrev Reg := Fin 16

/-- A value: the ordered pair `(upper, lower)` of two limbs, standing for `upper * 2^128 + lower`.
Every pair is legal and two pairs are two integers (R20). -/
@[ext] structure Value where
  upper : Limb
  lower : Limb
  deriving DecidableEq, Repr

/-- The zero value `(0, 0)`. -/
def Value.zero : Value := ⟨0#128, 0#128⟩

/-- The value `(0, 1)`. -/
def Value.one : Value := ⟨0#128, 1#128⟩

end Sys2Proof
end

