-- ==== Sys2Proof/Config.lean ====
section
/-! DEFINITION. What is fixed for the block (00_scope.md R4) and the one free value of the model. -/

namespace Sys2Proof.Config

/-- `MINLEN_MAX`: the largest `min_length` a command can carry (R4, R68). -/
def minlenMax : Nat := 1023

/-- `STRCAP`: the largest string the converter can produce (R4, R27). -/
def strCap : Nat := 1023

/-- `BASE_MIN`: the least legal radix (R4, R68). -/
def baseMin : Nat := 2

/-- `BASE_MAX`: the greatest legal radix (R4, R68). -/
def baseMax : Nat := 36

/-- What the `wdata` port carries while no transaction is on the command port. DESIGN CHOICE (log 5): the
spec gives it no value and `step` never runs a command then; no statement can lean on it. -/
opaque idleWdata : PortWord

end Sys2Proof.Config
end

