-- ==== Sys2Proof/Syntax.lean ====
section
/-! DEFINITION. The commands of U256 CORE: one constructor for each of the 66 rows of opcode_table.json
(30_encoding.md R62, R67). Operands stand in the order of the written form (R72): destination first. -/

namespace Sys2Proof

/-- A command. Register operands are register numbers; `imm`, `base`, `minlen` and `idx` are the raw fields
of the word (R61). -/
inductive Instr where
  -- 40_construct_cast.md
  | clr (rd : Reg)
  | mov (rd ra : Reg)
  | ldz8 (rd : Reg)
  | ldz16 (rd : Reg)
  | ldz32 (rd : Reg)
  | ldz64 (rd : Reg)
  | ldz128 (rd : Reg)
  | lds8 (rd : Reg)
  | lds16 (rd : Reg)
  | lds32 (rd : Reg)
  | lds64 (rd : Reg)
  | lds128 (rd : Reg)
  | ldp (rd : Reg)
  | rd8 (ra : Reg)
  | rd16 (ra : Reg)
  | rd32 (ra : Reg)
  | rd64 (ra : Reg)
  | rd128 (ra : Reg)
  | rdu (ra : Reg)
  | rdv (ra : Reg)
  | bool (rd ra : Reg)
  | bits (rd ra : Reg)
  -- 48_system.md
  | rdstat
  | clrstat
  -- 41_bitwise.md
  | and (rd ra rb : Reg)
  | or (rd ra rb : Reg)
  | xor (rd ra rb : Reg)
  | not (rd ra : Reg)
  -- 42_shift.md
  | shl (rd ra rb : Reg)
  | shr (rd ra rb : Reg)
  -- 43_compare.md
  | eq (rd ra rb : Reg)
  | ne (rd ra rb : Reg)
  | lt (rd ra rb : Reg)
  | gt (rd ra rb : Reg)
  | le (rd ra rb : Reg)
  | ge (rd ra rb : Reg)
  -- 44_additive.md
  | add (rd ra rb : Reg)
  | sub (rd ra rb : Reg)
  | neg (rd ra : Reg)
  | inc (rd : Reg)
  | dec (rd : Reg)
  | pinc (rd ra : Reg)
  | pdec (rd ra : Reg)
  -- 45_multiply.md
  | mul (rd ra rb : Reg)
  -- 46_divide.md
  | divmod (rd re ra rb : Reg)
  | div (rd ra rb : Reg)
  | mod (rd ra rb : Reg)
  -- 47_string.md
  | str (ra : Reg) (base : BitVec 6) (minlen : BitVec 10)
  | rdsl
  | rdsc (idx : BitVec 16)
  -- immediate forms
  | andi (rd ra : Reg) (imm : BitVec 16)
  | ori (rd ra : Reg) (imm : BitVec 16)
  | xori (rd ra : Reg) (imm : BitVec 16)
  | shli (rd ra : Reg) (imm : BitVec 16)
  | shri (rd ra : Reg) (imm : BitVec 16)
  | eqi (rd ra : Reg) (imm : BitVec 16)
  | nei (rd ra : Reg) (imm : BitVec 16)
  | lti (rd ra : Reg) (imm : BitVec 16)
  | gti (rd ra : Reg) (imm : BitVec 16)
  | lei (rd ra : Reg) (imm : BitVec 16)
  | gei (rd ra : Reg) (imm : BitVec 16)
  | addi (rd ra : Reg) (imm : BitVec 16)
  | subi (rd ra : Reg) (imm : BitVec 16)
  | muli (rd ra : Reg) (imm : BitVec 16)
  | divi (rd ra : Reg) (imm : BitVec 16)
  | modi (rd ra : Reg) (imm : BitVec 16)
  deriving DecidableEq, Repr

end Sys2Proof
end

