-- ==== Sys2Proof/WellFormed.lean ====
section
/-! DEFINITION. Which commands a legal word can stand for (30_encoding.md R63 lines 4 to 6, R68, R69). -/

namespace Sys2Proof

/-- The radix field is in the legal range 2 to 36 (R68). -/
def baseLegal (base : BitVec 6) : Bool :=
  decide (Config.baseMin ≤ base.toNat) && decide (base.toNat ≤ Config.baseMax)

/-- Well-formedness of a command: `PINC`/`PDEC` need `rd != ra`, `DIVMOD` needs `rd != re`, `STR` needs
a base in 2 to 36 (R63, R69); every other command is well formed with every operand. -/
def Instr.wellFormed : Instr → Bool
  | .clr _ => true
  | .mov _ _ => true
  | .ldz8 _ => true
  | .ldz16 _ => true
  | .ldz32 _ => true
  | .ldz64 _ => true
  | .ldz128 _ => true
  | .lds8 _ => true
  | .lds16 _ => true
  | .lds32 _ => true
  | .lds64 _ => true
  | .lds128 _ => true
  | .ldp _ => true
  | .rd8 _ => true
  | .rd16 _ => true
  | .rd32 _ => true
  | .rd64 _ => true
  | .rd128 _ => true
  | .rdu _ => true
  | .rdv _ => true
  | .bool _ _ => true
  | .bits _ _ => true
  | .rdstat => true
  | .clrstat => true
  | .and _ _ _ => true
  | .or _ _ _ => true
  | .xor _ _ _ => true
  | .not _ _ => true
  | .shl _ _ _ => true
  | .shr _ _ _ => true
  | .eq _ _ _ => true
  | .ne _ _ _ => true
  | .lt _ _ _ => true
  | .gt _ _ _ => true
  | .le _ _ _ => true
  | .ge _ _ _ => true
  | .add _ _ _ => true
  | .sub _ _ _ => true
  | .neg _ _ => true
  | .inc _ => true
  | .dec _ => true
  | .pinc rd ra => rd != ra
  | .pdec rd ra => rd != ra
  | .mul _ _ _ => true
  | .divmod rd re _ _ => rd != re
  | .div _ _ _ => true
  | .mod _ _ _ => true
  | .str _ base _ => baseLegal base
  | .rdsl => true
  | .rdsc _ => true
  | .andi _ _ _ => true
  | .ori _ _ _ => true
  | .xori _ _ _ => true
  | .shli _ _ _ => true
  | .shri _ _ _ => true
  | .eqi _ _ _ => true
  | .nei _ _ _ => true
  | .lti _ _ _ => true
  | .gti _ _ _ => true
  | .lei _ _ _ => true
  | .gei _ _ _ => true
  | .addi _ _ _ => true
  | .subi _ _ _ => true
  | .muli _ _ _ => true
  | .divi _ _ _ => true
  | .modi _ _ _ => true

/-- The Prop form of `Instr.wellFormed`. -/
abbrev Instr.WellFormed (i : Instr) : Prop := i.wellFormed = true

end Sys2Proof
end

