-- ==== Sys2Proof/Decode.lean ====
section
/-! DEFINITION. From a command word to a command, total, with a named reason for every illegal word, and
back (30_encoding.md R60 to R69). -/

namespace Sys2Proof

/-- Why a word is illegal: the line of R63 it fails. Which line is named is not visible to the host; every
illegal word raises the same `IllegalCommand`. -/
inductive DecodeError where
  /-- line 1: the opcode is not one of the 54 of R62 (R65) -/
  | unassignedOpcode
  /-- line 2: a bit the format marks 0 is 1 (R64) -/
  | reservedBits
  /-- line 3: `wsel` is 5 to 15 (R67) -/
  | reservedWidth
  /-- line 4: `STR` with a base outside 2 to 36 (R68) -/
  | reservedBase
  /-- lines 5 and 6: two destinations in one register (R69) -/
  | samePair
  deriving DecidableEq, Repr

/-- A command word cut at the positions every format shares (R61). `imm` is `cmd[15:0]`. -/
structure Fields where
  op  : BitVec 8
  rd  : BitVec 4
  ra  : BitVec 4
  imm : BitVec 16
  deriving DecidableEq, Repr

/-- `opcode` 31:24, `rd` 23:20, `ra` 19:16, `imm16` 15:0 (R61). -/
def Fields.ofWord (w : CmdWord) : Fields :=
  ⟨w.extractLsb' 24 8, w.extractLsb' 20 4, w.extractLsb' 16 4, w.extractLsb' 0 16⟩

/-- `{opcode, rd, ra, imm16}` (R61; concatenation as in 00_scope.md section 5). -/
def Fields.toWord (f : Fields) : CmdWord := f.op ++ f.rd ++ f.ra ++ f.imm

/-- `rb` 15:12 (R61). -/
def Fields.rb (f : Fields) : BitVec 4 := f.imm.extractLsb' 12 4

/-- `re` 11:8 (R61). -/
def Fields.re (f : Fields) : BitVec 4 := f.imm.extractLsb' 8 4

/-- `wsel` 15:12 (R61). -/
def Fields.wsel (f : Fields) : BitVec 4 := f.imm.extractLsb' 12 4

/-- `cmd[11:0]`, zero in formats R, L and G. -/
def Fields.low12 (f : Fields) : BitVec 12 := f.imm.extractLsb' 0 12

/-- `cmd[7:0]`, zero in format Q. -/
def Fields.low8 (f : Fields) : BitVec 8 := f.imm.extractLsb' 0 8

/-- `base` 15:10 (R61, R68). -/
def Fields.base (f : Fields) : BitVec 6 := f.imm.extractLsb' 10 6

/-- `minlen` 9:0 (R61, R68). -/
def Fields.minlen (f : Fields) : BitVec 10 := f.imm.extractLsb' 0 10

/-- The register a 4-bit field names (R21: all of 0 to 15 name a register). -/
def regOf (b : BitVec 4) : Reg := ⟨b.toNat, b.isLt⟩

/-- The 4-bit field that names a register. -/
def regField (r : Reg) : BitVec 4 := BitVec.ofNat 4 r.val

/-- What decoding answers. -/
abbrev Decoded := Except DecodeError Instr

/-- Line 2 of R63: go on only when the reserved bits are zero (R64). -/
def needZero (zero : Bool) (i : Decoded) : Decoded := if zero then i else .error .reservedBits

/-- Format N: everything below the opcode is reserved (R61). -/
def decodeN (f : Fields) (i : Instr) : Decoded :=
  needZero (f.rd == 0#4 && f.ra == 0#4 && f.imm == 0#16) (.ok i)

/-- Format D: `rd` (R61). -/
def decodeD (f : Fields) (i : Reg → Instr) : Decoded :=
  needZero (f.ra == 0#4 && f.imm == 0#16) (.ok (i (regOf f.rd)))

/-- Format U: `rd`, `ra` (R61). -/
def decodeU (f : Fields) (i : Reg → Reg → Instr) : Decoded :=
  needZero (f.imm == 0#16) (.ok (i (regOf f.rd) (regOf f.ra)))

/-- Format U with two destinations, `rd != ra` (R63 line 5). -/
def decodeUPair (f : Fields) (i : Reg → Reg → Instr) : Decoded :=
  needZero (f.imm == 0#16) (if f.rd == f.ra then .error .samePair else .ok (i (regOf f.rd) (regOf f.ra)))

/-- Format R: `rd`, `ra`, `rb` (R61). -/
def decodeR (f : Fields) (i : Reg → Reg → Reg → Instr) : Decoded :=
  needZero (f.low12 == 0#12) (.ok (i (regOf f.rd) (regOf f.ra) (regOf f.rb)))

/-- Format Q: `rd`, `ra`, `rb`, `re` with `rd != re` (R61, R63 line 6). -/
def decodeQ (f : Fields) (i : Reg → Reg → Reg → Reg → Instr) : Decoded :=
  needZero (f.low8 == 0#8)
    (if f.rd == f.re then .error .samePair else .ok (i (regOf f.rd) (regOf f.re) (regOf f.ra) (regOf f.rb)))

/-- Format I: `rd`, `ra`, `imm16`, no reserved bit (R61). -/
def decodeI (f : Fields) (i : Reg → Reg → BitVec 16 → Instr) : Decoded :=
  .ok (i (regOf f.rd) (regOf f.ra) f.imm)

/-- The width selector (R67): `wsel` 0 to 4 pick the command for 8, 16, 32, 64, 128 bits. -/
def pickWidth (wsel : BitVec 4) (i8 i16 i32 i64 i128 : Instr) : Decoded :=
  match wsel.toNat with
  | 0 => .ok i8
  | 1 => .ok i16
  | 2 => .ok i32
  | 3 => .ok i64
  | 4 => .ok i128
  | _ => .error .reservedWidth

/-- Format L: `rd`, `wsel` (R61, R63 line 3). -/
def decodeL (f : Fields) (i8 i16 i32 i64 i128 : Reg → Instr) : Decoded :=
  let r := regOf f.rd
  needZero (f.ra == 0#4 && f.low12 == 0#12) (pickWidth f.wsel (i8 r) (i16 r) (i32 r) (i64 r) (i128 r))

/-- Format G: `ra`, `wsel` (R61, R63 line 3). -/
def decodeG (f : Fields) (i8 i16 i32 i64 i128 : Reg → Instr) : Decoded :=
  let r := regOf f.ra
  needZero (f.rd == 0#4 && f.low12 == 0#12) (pickWidth f.wsel (i8 r) (i16 r) (i32 r) (i64 r) (i128 r))

/-- Format A: `ra` (R61). -/
def decodeA (f : Fields) (i : Reg → Instr) : Decoded :=
  needZero (f.rd == 0#4 && f.imm == 0#16) (.ok (i (regOf f.ra)))

/-- Format S: `ra`, `base`, `minlen` with a base in 2 to 36 (R61, R63 line 4). -/
def decodeS (f : Fields) (i : Reg → BitVec 6 → BitVec 10 → Instr) : Decoded :=
  needZero (f.rd == 0#4)
    (if baseLegal f.base then .ok (i (regOf f.ra) f.base f.minlen) else .error .reservedBase)

/-- Format X: `idx` (R61). -/
def decodeX (f : Fields) (i : BitVec 16 → Instr) : Decoded :=
  needZero (f.rd == 0#4 && f.ra == 0#4) (.ok (i f.imm))

/-- The opcode map of R62, each opcode read in its format; every other opcode is unassigned (R65). -/
def decodeFields (f : Fields) : Decoded :=
  match f.op.toNat with
  | 0x01 => decodeD f .clr
  | 0x02 => decodeU f .mov
  | 0x03 => decodeL f .ldz8 .ldz16 .ldz32 .ldz64 .ldz128
  | 0x04 => decodeL f .lds8 .lds16 .lds32 .lds64 .lds128
  | 0x05 => decodeD f .ldp
  | 0x06 => decodeG f .rd8 .rd16 .rd32 .rd64 .rd128
  | 0x07 => decodeA f .rdu
  | 0x08 => decodeA f .rdv
  | 0x09 => decodeU f .bool
  | 0x0A => decodeU f .bits
  | 0x0E => decodeN f .rdstat
  | 0x0F => decodeN f .clrstat
  | 0x10 => decodeR f .and
  | 0x11 => decodeR f .or
  | 0x12 => decodeR f .xor
  | 0x13 => decodeU f .not
  | 0x20 => decodeR f .shl
  | 0x21 => decodeR f .shr
  | 0x30 => decodeR f .eq
  | 0x31 => decodeR f .ne
  | 0x32 => decodeR f .lt
  | 0x33 => decodeR f .gt
  | 0x34 => decodeR f .le
  | 0x35 => decodeR f .ge
  | 0x40 => decodeR f .add
  | 0x41 => decodeR f .sub
  | 0x42 => decodeU f .neg
  | 0x43 => decodeD f .inc
  | 0x44 => decodeD f .dec
  | 0x45 => decodeUPair f .pinc
  | 0x46 => decodeUPair f .pdec
  | 0x50 => decodeR f .mul
  | 0x60 => decodeQ f .divmod
  | 0x61 => decodeR f .div
  | 0x62 => decodeR f .mod
  | 0x70 => decodeS f .str
  | 0x71 => decodeN f .rdsl
  | 0x72 => decodeX f .rdsc
  | 0x90 => decodeI f .andi
  | 0x91 => decodeI f .ori
  | 0x92 => decodeI f .xori
  | 0xA0 => decodeI f .shli
  | 0xA1 => decodeI f .shri
  | 0xB0 => decodeI f .eqi
  | 0xB1 => decodeI f .nei
  | 0xB2 => decodeI f .lti
  | 0xB3 => decodeI f .gti
  | 0xB4 => decodeI f .lei
  | 0xB5 => decodeI f .gei
  | 0xC0 => decodeI f .addi
  | 0xC1 => decodeI f .subi
  | 0xD0 => decodeI f .muli
  | 0xE1 => decodeI f .divi
  | 0xE2 => decodeI f .modi
  | _ => .error .unassignedOpcode

/-- The decoder (R63): every one of the `2^32` words is one command or illegal for a named reason. -/
def decode (w : CmdWord) : Decoded := decodeFields (Fields.ofWord w)

/-- The decoder on a word whose bits are numbered as opcode_table.json numbers them: bit 0 is the least
significant bit of `cmd`, `w` is the word, and the bits from `nbits` up are 0. A command word has 32 bits. -/
def decodeTableWord (nbits w : Nat) : Option Instr :=
  if nbits ≤ 32 then (decode (BitVec.ofNat 32 (w % 2 ^ nbits))).toOption else none

/-! ### The encoder, from the same tables (R61, R62) -/

/-- `cmd[15:0]` of formats R and Q: `{rb, re, 0}` (R61). -/
def lowRegs (rb re : BitVec 4) : BitVec 16 := rb ++ re ++ 0#8

/-- `cmd[15:0]` of formats L and G: `{wsel, 0}` (R61). -/
def lowWidth (wsel : BitVec 4) : BitVec 16 := wsel ++ 0#12

/-- `cmd[15:0]` of format S: `{base, minlen}` (R61, R68). -/
def lowString (base : BitVec 6) (minlen : BitVec 10) : BitVec 16 := base ++ minlen

/-- The fields of a command's word. -/
def Instr.fields : Instr → Fields
  | .clr rd => ⟨0x01#8, regField rd, 0#4, 0#16⟩
  | .mov rd ra => ⟨0x02#8, regField rd, regField ra, 0#16⟩
  | .ldz8 rd => ⟨0x03#8, regField rd, 0#4, lowWidth 0#4⟩
  | .ldz16 rd => ⟨0x03#8, regField rd, 0#4, lowWidth 1#4⟩
  | .ldz32 rd => ⟨0x03#8, regField rd, 0#4, lowWidth 2#4⟩
  | .ldz64 rd => ⟨0x03#8, regField rd, 0#4, lowWidth 3#4⟩
  | .ldz128 rd => ⟨0x03#8, regField rd, 0#4, lowWidth 4#4⟩
  | .lds8 rd => ⟨0x04#8, regField rd, 0#4, lowWidth 0#4⟩
  | .lds16 rd => ⟨0x04#8, regField rd, 0#4, lowWidth 1#4⟩
  | .lds32 rd => ⟨0x04#8, regField rd, 0#4, lowWidth 2#4⟩
  | .lds64 rd => ⟨0x04#8, regField rd, 0#4, lowWidth 3#4⟩
  | .lds128 rd => ⟨0x04#8, regField rd, 0#4, lowWidth 4#4⟩
  | .ldp rd => ⟨0x05#8, regField rd, 0#4, 0#16⟩
  | .rd8 ra => ⟨0x06#8, 0#4, regField ra, lowWidth 0#4⟩
  | .rd16 ra => ⟨0x06#8, 0#4, regField ra, lowWidth 1#4⟩
  | .rd32 ra => ⟨0x06#8, 0#4, regField ra, lowWidth 2#4⟩
  | .rd64 ra => ⟨0x06#8, 0#4, regField ra, lowWidth 3#4⟩
  | .rd128 ra => ⟨0x06#8, 0#4, regField ra, lowWidth 4#4⟩
  | .rdu ra => ⟨0x07#8, 0#4, regField ra, 0#16⟩
  | .rdv ra => ⟨0x08#8, 0#4, regField ra, 0#16⟩
  | .bool rd ra => ⟨0x09#8, regField rd, regField ra, 0#16⟩
  | .bits rd ra => ⟨0x0A#8, regField rd, regField ra, 0#16⟩
  | .rdstat => ⟨0x0E#8, 0#4, 0#4, 0#16⟩
  | .clrstat => ⟨0x0F#8, 0#4, 0#4, 0#16⟩
  | .and rd ra rb => ⟨0x10#8, regField rd, regField ra, lowRegs (regField rb) 0#4⟩
  | .or rd ra rb => ⟨0x11#8, regField rd, regField ra, lowRegs (regField rb) 0#4⟩
  | .xor rd ra rb => ⟨0x12#8, regField rd, regField ra, lowRegs (regField rb) 0#4⟩
  | .not rd ra => ⟨0x13#8, regField rd, regField ra, 0#16⟩
  | .shl rd ra rb => ⟨0x20#8, regField rd, regField ra, lowRegs (regField rb) 0#4⟩
  | .shr rd ra rb => ⟨0x21#8, regField rd, regField ra, lowRegs (regField rb) 0#4⟩
  | .eq rd ra rb => ⟨0x30#8, regField rd, regField ra, lowRegs (regField rb) 0#4⟩
  | .ne rd ra rb => ⟨0x31#8, regField rd, regField ra, lowRegs (regField rb) 0#4⟩
  | .lt rd ra rb => ⟨0x32#8, regField rd, regField ra, lowRegs (regField rb) 0#4⟩
  | .gt rd ra rb => ⟨0x33#8, regField rd, regField ra, lowRegs (regField rb) 0#4⟩
  | .le rd ra rb => ⟨0x34#8, regField rd, regField ra, lowRegs (regField rb) 0#4⟩
  | .ge rd ra rb => ⟨0x35#8, regField rd, regField ra, lowRegs (regField rb) 0#4⟩
  | .add rd ra rb => ⟨0x40#8, regField rd, regField ra, lowRegs (regField rb) 0#4⟩
  | .sub rd ra rb => ⟨0x41#8, regField rd, regField ra, lowRegs (regField rb) 0#4⟩
  | .neg rd ra => ⟨0x42#8, regField rd, regField ra, 0#16⟩
  | .inc rd => ⟨0x43#8, regField rd, 0#4, 0#16⟩
  | .dec rd => ⟨0x44#8, regField rd, 0#4, 0#16⟩
  | .pinc rd ra => ⟨0x45#8, regField rd, regField ra, 0#16⟩
  | .pdec rd ra => ⟨0x46#8, regField rd, regField ra, 0#16⟩
  | .mul rd ra rb => ⟨0x50#8, regField rd, regField ra, lowRegs (regField rb) 0#4⟩
  | .divmod rd re ra rb => ⟨0x60#8, regField rd, regField ra, lowRegs (regField rb) (regField re)⟩
  | .div rd ra rb => ⟨0x61#8, regField rd, regField ra, lowRegs (regField rb) 0#4⟩
  | .mod rd ra rb => ⟨0x62#8, regField rd, regField ra, lowRegs (regField rb) 0#4⟩
  | .str ra base minlen => ⟨0x70#8, 0#4, regField ra, lowString base minlen⟩
  | .rdsl => ⟨0x71#8, 0#4, 0#4, 0#16⟩
  | .rdsc idx => ⟨0x72#8, 0#4, 0#4, idx⟩
  | .andi rd ra imm => ⟨0x90#8, regField rd, regField ra, imm⟩
  | .ori rd ra imm => ⟨0x91#8, regField rd, regField ra, imm⟩
  | .xori rd ra imm => ⟨0x92#8, regField rd, regField ra, imm⟩
  | .shli rd ra imm => ⟨0xA0#8, regField rd, regField ra, imm⟩
  | .shri rd ra imm => ⟨0xA1#8, regField rd, regField ra, imm⟩
  | .eqi rd ra imm => ⟨0xB0#8, regField rd, regField ra, imm⟩
  | .nei rd ra imm => ⟨0xB1#8, regField rd, regField ra, imm⟩
  | .lti rd ra imm => ⟨0xB2#8, regField rd, regField ra, imm⟩
  | .gti rd ra imm => ⟨0xB3#8, regField rd, regField ra, imm⟩
  | .lei rd ra imm => ⟨0xB4#8, regField rd, regField ra, imm⟩
  | .gei rd ra imm => ⟨0xB5#8, regField rd, regField ra, imm⟩
  | .addi rd ra imm => ⟨0xC0#8, regField rd, regField ra, imm⟩
  | .subi rd ra imm => ⟨0xC1#8, regField rd, regField ra, imm⟩
  | .muli rd ra imm => ⟨0xD0#8, regField rd, regField ra, imm⟩
  | .divi rd ra imm => ⟨0xE1#8, regField rd, regField ra, imm⟩
  | .modi rd ra imm => ⟨0xE2#8, regField rd, regField ra, imm⟩

/-- The word of a command. -/
def encode (i : Instr) : CmdWord := i.fields.toWord

end Sys2Proof
end

