-- ==== Sys2Proof/Machine/State.lean ====
section
/-! DEFINITION. The state of U256 CORE (10_state.md R20 to R30), its ports (20_memory.md R40), and the ways a
step can stop: none (60_exceptions.md section 7). -/

namespace Sys2Proof.Machine

/-- Why a step stops with a fault. There is no constructor: "It never gets stuck and never refuses: every
input has exactly one outcome. A fault is an ordinary outcome" (60_exceptions.md section 7). The spec's two
faults are responses with a next state, `Cause` below (log 8). -/
inductive Fault where
  deriving DecidableEq, Repr

/-- Why a step refuses a command. -/
inductive Refusal where
  /-- Raised by `exec` for a command that has no meaning in the model; no arm raises it. Safe. -/
  | notModelled (mnemonic : String)
  deriving DecidableEq, Repr

/-- The two synchronous exceptions of the block (60_exceptions.md R210). -/
inductive Cause where
  /-- the divisor is the zero value (R175, R212) -/
  | divideByZero
  /-- the word is not a legal command (R63, R213) -/
  | illegalCommand
  deriving DecidableEq, Repr

/-- The response code on `status[1:0]` (60_exceptions.md R211); the value 3 is never produced and has no
constructor (93_implementation_defined.md U8). -/
inductive RespStatus where
  /-- code 0 -/
  | ok
  /-- code 1 or 2 -/
  | raised (cause : Cause)
  deriving DecidableEq, Repr

/-- One `(cmd, wdata)` pair the host gives the block (20_memory.md R40). -/
structure Transaction where
  cmd   : CmdWord
  wdata : PortWord
  deriving DecidableEq, Repr

/-- One `(status, rdata)` pair the block gives back (20_memory.md R40, R41). -/
structure Response where
  status : RespStatus
  rdata  : PortWord
  deriving DecidableEq, Repr

/-- The register `STATUS` (10_state.md R25): two sticky bits. Bits 255:2 of its `RDSTAT` image are not state. -/
structure StatusReg where
  dz  : Bool
  ill : Bool
  deriving DecidableEq, Repr

/-- The machine. `regs`, `status` and `str` are the whole architectural state (10_state.md, the table at its
head); the other fields are what stands at the ports (20_memory.md R40, R45, R52). -/
structure State where
  /-- `x0` to `x15` (R21) -/
  regs : Vector Value 16
  /-- `STATUS` (R25) -/
  status : StatusReg
  /-- the string buffer `S`, `S[0]` first; `SLEN` is its length (R27) -/
  str : List Byte
  /-- the `reset` input is asserted and not yet taken (R40, R230) -/
  resetLine : Bool
  /-- transactions presented and not yet answered, oldest first (R40, R45) -/
  pending : List Transaction
  /-- responses given and not yet taken by the host, oldest first (R40, R45) -/
  responses : List Response
  deriving DecidableEq, Repr

/-- The machine right after reset: every register 0, `STATUS` 0, `S` empty (10_state.md R30, 70 R230);
no command waits (R231: unanswered commands are lost) and no response stands. -/
def State.reset : State where
  regs := Vector.replicate 16 Value.zero
  status := ⟨false, false⟩
  str := []
  resetLine := false
  pending := []
  responses := []

/-- What a meaning answers. -/
abbrev Result := Host.Outcome State Fault Refusal

end Sys2Proof.Machine
end

