-- ==== Sys2Proof/Machine/Flags.lean ====
section
/-! DEFINITION. The status bits and codes. There are no arithmetic flags (10_state.md R24): the whole of this
file is the sticky register `STATUS` (R25), the response codes (60_exceptions.md R211) and the 0-or-1 value
of a Boolean result (43_compare.md, head of the file). -/

namespace Sys2Proof.Machine

/-- The code on `status[1:0]` (R211): 0 `OK`, 1 `DivideByZero`, 2 `IllegalCommand`. -/
def RespStatus.code : RespStatus → BitVec 2
  | .ok => 0#2
  | .raised .divideByZero => 1#2
  | .raised .illegalCommand => 2#2

/-- The sticky bit a fault sets; the other keeps its value (R210, R212, R213). -/
def StatusReg.record (st : StatusReg) : Cause → StatusReg
  | .divideByZero => { st with dz := true }
  | .illegalCommand => { st with ill := true }

/-- `STATUS <- 0` (R201). -/
def StatusReg.clear : StatusReg := ⟨false, false⟩

/-- `zext_256({STATUS.ILL, STATUS.DZ})` (R200). -/
def StatusReg.toPort (st : StatusReg) : PortWord :=
  (BitVec.ofBool st.ill ++ BitVec.ofBool st.dz).setWidth 256

/-- `zext_256(1)` for true and `zext_256(0)` for false (R109, R143). -/
def boolValue (t : Bool) : Value := if t then Value.one else Value.zero

end Sys2Proof.Machine
end

