-- ==== Sys2Proof/Machine/Limb.lean ====
section
/-! DEFINITION. The 128-bit limb primitives (00_scope.md R5 to R13) and how a value stands as an integer and
on a port (10_state.md R20, 20_memory.md R42). -/

namespace Sys2Proof

/-- The unsigned integer a value stands for, `upper * 2^128 + lower` (R20). -/
def Value.toNat (v : Value) : Nat := v.upper.toNat * 2 ^ 128 + v.lower.toNat

/-- A value on a port: `upper` on bits 255:128, `lower` on bits 127:0 (R42). -/
def Value.toPort (v : Value) : PortWord := v.upper ++ v.lower

/-- The value a port carries (R42). -/
def Value.ofPort (p : PortWord) : Value := ⟨p.extractLsb' 128 128, p.extractLsb' 0 128⟩

/-- Bit `k` of a value (00_scope.md section 5). -/
def Value.bit (v : Value) (k : Nat) : Bool :=
  if k < 128 then v.lower.getLsbD k else v.upper.getLsbD (k - 128)

namespace Machine

/-- R5. -/
def add128 (a b : Limb) : Limb := a + b

/-- R6. -/
def sub128 (a b : Limb) : Limb := a - b

/-- R7: the product truncated to its low 128 bits. -/
def mul128 (a b : Limb) : Limb := a * b

/-- R8: the full 256-bit product, as the pair of its halves. -/
def mulfull128 (a b : Limb) : Value := Value.ofPort (a.setWidth 256 * b.setWidth 256)

/-- R9: the quotient, for a divisor that is not zero (93_implementation_defined.md U6). -/
def div128 (a b : Limb) (_ : b ≠ 0#128) : Limb := a / b

/-- R9: the remainder, for a divisor that is not zero (93_implementation_defined.md U6). -/
def mod128 (a b : Limb) (_ : b ≠ 0#128) : Limb := a % b

/-- R10: left shift by 0 to 127; no larger amount can be written (93_implementation_defined.md U1). -/
def shl128 (a : Limb) (n : Fin 128) : Limb := a <<< n.val

/-- R10: right shift by 0 to 127; no larger amount can be written (93_implementation_defined.md U1). -/
def shr128 (a : Limb) (n : Fin 128) : Limb := a >>> n.val

/-- R11. -/
def and128 (a b : Limb) : Limb := a &&& b

/-- R11. -/
def or128 (a b : Limb) : Limb := a ||| b

/-- R11. -/
def xor128 (a b : Limb) : Limb := a ^^^ b

/-- R11: `2^128 - 1 - a`. -/
def not128 (a : Limb) : Limb := ~~~a

/-- R12: the limbs as unsigned integers. -/
def lt128 (a b : Limb) : Bool := a.ult b

/-- R12. -/
def gt128 (a b : Limb) : Bool := b.ult a

/-- R13: 0 for 0, otherwise the `k` with `2^(k-1) <= a < 2^k`. -/
def bits128 (a : Limb) : Nat := if a = 0#128 then 0 else a.toNat.log2 + 1

/-- R167 (informative): the 128 x 128 product from four 64 x 64 products, one level down. -/
def mulfull128Tree (x y : Limb) : Value :=
  let x1 := (x.extractLsb' 64 64).toNat
  let x0 := (x.extractLsb' 0 64).toNat
  let y1 := (y.extractLsb' 64 64).toNat
  let y0 := (y.extractLsb' 0 64).toNat
  let q00 := BitVec.ofNat 128 (x0 * y0)
  let q01 := BitVec.ofNat 128 (x0 * y1)
  let q10 := BitVec.ofNat 128 (x1 * y0)
  let q11 := BitVec.ofNat 128 (x1 * y1)
  let w0 := q00.extractLsb' 0 64
  let t := (q00.extractLsb' 64 64).toNat + (q01.extractLsb' 0 64).toNat + (q10.extractLsb' 0 64).toNat
  let w1 := BitVec.ofNat 64 t
  let u := (q01.extractLsb' 64 64).toNat + (q10.extractLsb' 64 64).toNat + (q11.extractLsb' 0 64).toNat
    + t / 2 ^ 64
  let w2 := BitVec.ofNat 64 u
  let w3 := BitVec.ofNat 64 ((q11.extractLsb' 64 64).toNat + u / 2 ^ 64)
  ⟨w3 ++ w2, w1 ++ w0⟩

end Machine
end Sys2Proof
end

