-- ==== Sys2Proof/Machine/Ops.lean ====
section
/-! DEFINITION. The named operations over the state: reading and writing a register, the command and response
ports, answering a command, raising a fault, taking a reset (10_state.md R21, R22; 20_memory.md R40 to R45;
60_exceptions.md R212, R213; 70_reset_and_hazards.md R230, R231). -/

namespace Sys2Proof.Machine

/-- `x[r]`; `x0` is an ordinary register (R21, R22). -/
def State.reg (s : State) (r : Reg) : Value := s.regs.get r

/-- `x[r] <- v`, both limbs at once (R22). -/
def State.setReg (s : State) (r : Reg) (v : Value) : State :=
  { s with regs := s.regs.set r.val v r.isLt }

/-- `SLEN` (R27). -/
def State.slen (s : State) : Nat := s.str.length

/-- The `wdata` that came with the command being executed: the oldest unanswered transaction's (R40, R44). -/
def State.wdata (s : State) : PortWord :=
  match s.pending with
  | [] => Config.idleWdata
  | t :: _ => t.wdata

/-- The command is over: its transaction is answered and leaves the command port, and its one response joins
the response port behind the earlier ones (R41, R45). -/
def State.answer (s : State) (r : Response) : State :=
  { s with pending := s.pending.tail, responses := s.responses ++ [r] }

/-- `respond(v)`: `status = 0`, `rdata = v` (00_scope.md section 5). -/
def State.respond (s : State) (v : PortWord) : State := s.answer ⟨.ok, v⟩

/-- TAKING AN EXCEPTION, the one shared operation: `raise DivideByZero` (R212) and `raise IllegalCommand`
(R213). The sticky bit is set, the response is the code with `rdata = 0`, and nothing else changes: no
register, `S`, `SLEN` or other bit; nothing is saved and no control moves (R215). There is no return from it:
the fault is over when its response is given (R216). -/
def State.raise (s : State) (c : Cause) : State :=
  State.answer { s with status := s.status.record c } ⟨.raised c, 0#256⟩

/-- The end of a command that writes one register: `x[rd] <- v; respond(v)` (R41). -/
def writeBack (rd : Reg) (v : Value) (s : State) : Result := .next ((s.setReg rd v).respond v.toPort)

/-- The end of a command that only reads: `respond(v)` (R41, R50). -/
def readOut (v : PortWord) (s : State) : Result := .next (s.respond v)

/-- The end of a command that faults (R212, R213). -/
def fail (c : Cause) (s : State) : Result := .next (s.raise c)

/-- Reset is taken (R230, R231): every register, `STATUS`, `S` and `SLEN` are zero or empty, every unanswered
command is lost without a response, the line is no longer asserted. Answers given before stay given (log 3). -/
def State.takeReset (s : State) : State := { State.reset with responses := s.responses }

end Sys2Proof.Machine
end

