-- ==== Sys2Proof/Machine/Operands.lean ====
section
/-! DEFINITION. The operand forms (30_encoding.md R66, R67; 20_memory.md R42, R49): register operand,
16-bit immediate, and the narrow operands of loads and reads. -/

namespace Sys2Proof.Machine

/-- Operand B of the immediate form: `zext_256(imm16)`, `upper = 0`, `lower = imm16` (R66). -/
def immOperand (imm : BitVec 16) : Value := ⟨0#128, imm.setWidth 128⟩

/-- `zext_256(k)` of a `w`-bit integer (00_scope.md section 5; R102). -/
def zext256 {w : Nat} (k : BitVec w) : Value := Value.ofPort (k.setWidth 256)

/-- `sext_256(k)` of a `w`-bit integer: `k` when `k[w-1] = 0`, `k + 2^256 - 2^w` when it is 1
(00_scope.md section 5; R103). -/
def sext256 {w : Nat} (k : BitVec w) : Value := Value.ofPort (k.signExtend 256)

/-- `wdata[w-1:0]` of the command's transaction; bits `255:w` are ignored (R49, R102). -/
def State.wdataLow (s : State) (w : Nat) : BitVec w := s.wdata.extractLsb' 0 w

/-- `zext_256(v.lower[w-1:0])` on `rdata`, the narrowing cast (R106). -/
def narrowRead (v : Value) (w : Nat) : PortWord := (v.lower.extractLsb' 0 w).setWidth 256

end Sys2Proof.Machine
end

