-- ==== Sys2Proof/Machine/Bitwise.lean ====
section
/-! DEFINITION. Bitwise commands (41_bitwise.md R120 to R126): limb by limb, no bit crosses the boundary. -/

namespace Sys2Proof.Machine

/-- R120. -/
def and256 (a b : Value) : Value := ⟨and128 a.upper b.upper, and128 a.lower b.lower⟩

/-- R120. -/
def or256 (a b : Value) : Value := ⟨or128 a.upper b.upper, or128 a.lower b.lower⟩

/-- R120. -/
def xor256 (a b : Value) : Value := ⟨xor128 a.upper b.upper, xor128 a.lower b.lower⟩

/-- R120. -/
def not256 (a : Value) : Value := ⟨not128 a.upper, not128 a.lower⟩

/-- `AND` (R121). -/
def execAnd (rd ra rb : Reg) (s : State) : Result := writeBack rd (and256 (s.reg ra) (s.reg rb)) s

/-- `ANDI` (R121). -/
def execAndi (rd ra : Reg) (imm : BitVec 16) (s : State) : Result :=
  writeBack rd (and256 (s.reg ra) (immOperand imm)) s

/-- `OR` (R122). -/
def execOr (rd ra rb : Reg) (s : State) : Result := writeBack rd (or256 (s.reg ra) (s.reg rb)) s

/-- `ORI` (R122). -/
def execOri (rd ra : Reg) (imm : BitVec 16) (s : State) : Result :=
  writeBack rd (or256 (s.reg ra) (immOperand imm)) s

/-- `XOR` (R123). -/
def execXor (rd ra rb : Reg) (s : State) : Result := writeBack rd (xor256 (s.reg ra) (s.reg rb)) s

/-- `XORI` (R123). -/
def execXori (rd ra : Reg) (imm : BitVec 16) (s : State) : Result :=
  writeBack rd (xor256 (s.reg ra) (immOperand imm)) s

/-- `NOT` (R124). -/
def execNot (rd ra : Reg) (s : State) : Result := writeBack rd (not256 (s.reg ra)) s

end Sys2Proof.Machine
end

