-- ==== Sys2Proof/Machine/Additive.lean ====
section
/-! DEFINITION. The multi-limb adder and subtracter and the additive commands (44_additive.md R150 to R162). -/

namespace Sys2Proof.Machine

/-- A carry or borrow as a limb, 1 or 0. -/
def carryLimb (c : Bool) : Limb := if c then 1#128 else 0#128

/-- R150: a two-limb ripple; the lower addition wrapped exactly when its sum is below `a.lower`. -/
def add256 (a b : Value) : Value :=
  let lowerSum := add128 a.lower b.lower
  let carry := carryLimb (lt128 lowerSum a.lower)
  ⟨add128 (add128 a.upper b.upper) carry, lowerSum⟩

/-- R152: a two-limb ripple; the lower subtraction wrapped exactly when its difference is above `a.lower`. -/
def sub256 (a b : Value) : Value :=
  let lowerDiff := sub128 a.lower b.lower
  let borrow := carryLimb (gt128 lowerDiff a.lower)
  ⟨sub128 (sub128 a.upper b.upper) borrow, lowerDiff⟩

/-- R153: "Unary negation is two's-complement: `~x + 1`". -/
def neg256 (a : Value) : Value := add256 (not256 a) Value.one

/-- `ADD` (R154). -/
def execAdd (rd ra rb : Reg) (s : State) : Result := writeBack rd (add256 (s.reg ra) (s.reg rb)) s

/-- `ADDI` (R154). -/
def execAddi (rd ra : Reg) (imm : BitVec 16) (s : State) : Result :=
  writeBack rd (add256 (s.reg ra) (immOperand imm)) s

/-- `SUB` (R155). -/
def execSub (rd ra rb : Reg) (s : State) : Result := writeBack rd (sub256 (s.reg ra) (s.reg rb)) s

/-- `SUBI` (R155). -/
def execSubi (rd ra : Reg) (imm : BitVec 16) (s : State) : Result :=
  writeBack rd (sub256 (s.reg ra) (immOperand imm)) s

/-- `NEG` (R156). -/
def execNeg (rd ra : Reg) (s : State) : Result := writeBack rd (neg256 (s.reg ra)) s

/-- `INC`, prefix `++` (R157). -/
def execInc (rd : Reg) (s : State) : Result := writeBack rd (add256 (s.reg rd) Value.one) s

/-- `DEC`, prefix `--` (R158). -/
def execDec (rd : Reg) (s : State) : Result := writeBack rd (sub256 (s.reg rd) Value.one) s

/-- The end of a postfix command (R159, R160): the snapshot of `x[ra]` goes to `x[rd]` and to `rdata`, the
stepped value to `x[ra]`. With `rd = ra` the command is the reserved encoding and raises `IllegalCommand`
(R69; log 6). -/
def postfixStep (step : Value → Value) (rd ra : Reg) (s : State) : Result :=
  if rd = ra then fail .illegalCommand s
  else writeBack rd (s.reg ra) (s.setReg ra (step (s.reg ra)))

/-- `PINC`, postfix `++` (R159). -/
def execPinc (rd ra : Reg) (s : State) : Result := postfixStep (fun t => add256 t Value.one) rd ra s

/-- `PDEC`, postfix `--` (R160). -/
def execPdec (rd ra : Reg) (s : State) : Result := postfixStep (fun t => sub256 t Value.one) rd ra s

end Sys2Proof.Machine
end

