-- ==== Sys2Proof/Machine/Compare.lean ====
section
/-! DEFINITION. The comparison tree and its commands (43_compare.md R140 to R149). All comparisons are unsigned;
the result is the value 1 or 0. -/

namespace Sys2Proof.Machine

/-- R140. -/
def eq256 (a b : Value) : Bool := a.upper == b.upper && a.lower == b.lower

/-- R140. -/
def ne256 (a b : Value) : Bool := a.upper != b.upper || a.lower != b.lower

/-- R141: "compare `upper` first; if equal, compare `lower`". -/
def lt256 (a b : Value) : Bool :=
  if a.upper == b.upper then lt128 a.lower b.lower else lt128 a.upper b.upper

/-- R141. -/
def gt256 (a b : Value) : Bool :=
  if a.upper == b.upper then gt128 a.lower b.lower else gt128 a.upper b.upper

/-- R142: the disjunction of the primitive `<` and `==`. -/
def le256 (a b : Value) : Bool := lt256 a b || eq256 a b

/-- R142: the disjunction of the primitive `>` and `==`. -/
def ge256 (a b : Value) : Bool := gt256 a b || eq256 a b

/-- `EQ` (R143). -/
def execEq (rd ra rb : Reg) (s : State) : Result :=
  writeBack rd (boolValue (eq256 (s.reg ra) (s.reg rb))) s

/-- `EQI` (R143). -/
def execEqi (rd ra : Reg) (imm : BitVec 16) (s : State) : Result :=
  writeBack rd (boolValue (eq256 (s.reg ra) (immOperand imm))) s

/-- `NE` (R144). -/
def execNe (rd ra rb : Reg) (s : State) : Result :=
  writeBack rd (boolValue (ne256 (s.reg ra) (s.reg rb))) s

/-- `NEI` (R144). -/
def execNei (rd ra : Reg) (imm : BitVec 16) (s : State) : Result :=
  writeBack rd (boolValue (ne256 (s.reg ra) (immOperand imm))) s

/-- `LT` (R145). -/
def execLt (rd ra rb : Reg) (s : State) : Result :=
  writeBack rd (boolValue (lt256 (s.reg ra) (s.reg rb))) s

/-- `LTI` (R145). -/
def execLti (rd ra : Reg) (imm : BitVec 16) (s : State) : Result :=
  writeBack rd (boolValue (lt256 (s.reg ra) (immOperand imm))) s

/-- `GT` (R146). -/
def execGt (rd ra rb : Reg) (s : State) : Result :=
  writeBack rd (boolValue (gt256 (s.reg ra) (s.reg rb))) s

/-- `GTI` (R146). -/
def execGti (rd ra : Reg) (imm : BitVec 16) (s : State) : Result :=
  writeBack rd (boolValue (gt256 (s.reg ra) (immOperand imm))) s

/-- `LE` (R147). -/
def execLe (rd ra rb : Reg) (s : State) : Result :=
  writeBack rd (boolValue (le256 (s.reg ra) (s.reg rb))) s

/-- `LEI` (R147). -/
def execLei (rd ra : Reg) (imm : BitVec 16) (s : State) : Result :=
  writeBack rd (boolValue (le256 (s.reg ra) (immOperand imm))) s

/-- `GE` (R148). -/
def execGe (rd ra rb : Reg) (s : State) : Result :=
  writeBack rd (boolValue (ge256 (s.reg ra) (s.reg rb))) s

/-- `GEI` (R148). -/
def execGei (rd ra : Reg) (imm : BitVec 16) (s : State) : Result :=
  writeBack rd (boolValue (ge256 (s.reg ra) (immOperand imm))) s

end Sys2Proof.Machine
end

