-- ==== Sys2Proof/Machine/ConstructCast.lean ====
section
/-! DEFINITION. Construction, casts and accessors (40_construct_cast.md R100 to R111). -/

namespace Sys2Proof.Machine

/-- R110: "1-based bit-length, 0 for the zero value"; the upper limb's bit-length is offset by 128
(90_conflicts.md C1). -/
def bits256 (v : Value) : Nat :=
  if v.upper ≠ 0#128 then 128 + bits128 v.upper else bits128 v.lower

/-- `CLR` (R100). -/
def execClr (rd : Reg) (s : State) : Result := writeBack rd Value.zero s

/-- `MOV` (R101). -/
def execMov (rd ra : Reg) (s : State) : Result := writeBack rd (s.reg ra) s

/-- `LDZ.8` (R102). -/
def execLdz8 (rd : Reg) (s : State) : Result := writeBack rd (zext256 (s.wdataLow 8)) s

/-- `LDZ.16` (R102). -/
def execLdz16 (rd : Reg) (s : State) : Result := writeBack rd (zext256 (s.wdataLow 16)) s

/-- `LDZ.32` (R102). -/
def execLdz32 (rd : Reg) (s : State) : Result := writeBack rd (zext256 (s.wdataLow 32)) s

/-- `LDZ.64` (R102). -/
def execLdz64 (rd : Reg) (s : State) : Result := writeBack rd (zext256 (s.wdataLow 64)) s

/-- `LDZ.128` (R102). -/
def execLdz128 (rd : Reg) (s : State) : Result := writeBack rd (zext256 (s.wdataLow 128)) s

/-- `LDS.8` (R103). -/
def execLds8 (rd : Reg) (s : State) : Result := writeBack rd (sext256 (s.wdataLow 8)) s

/-- `LDS.16` (R103). -/
def execLds16 (rd : Reg) (s : State) : Result := writeBack rd (sext256 (s.wdataLow 16)) s

/-- `LDS.32` (R103). -/
def execLds32 (rd : Reg) (s : State) : Result := writeBack rd (sext256 (s.wdataLow 32)) s

/-- `LDS.64` (R103). -/
def execLds64 (rd : Reg) (s : State) : Result := writeBack rd (sext256 (s.wdataLow 64)) s

/-- `LDS.128` (R103). -/
def execLds128 (rd : Reg) (s : State) : Result := writeBack rd (sext256 (s.wdataLow 128)) s

/-- `LDP`: any full value; pair and four-way construction (R104, R105). -/
def execLdp (rd : Reg) (s : State) : Result := writeBack rd (Value.ofPort s.wdata) s

/-- `RD.8` (R106). -/
def execRd8 (ra : Reg) (s : State) : Result := readOut (narrowRead (s.reg ra) 8) s

/-- `RD.16` (R106). -/
def execRd16 (ra : Reg) (s : State) : Result := readOut (narrowRead (s.reg ra) 16) s

/-- `RD.32` (R106). -/
def execRd32 (ra : Reg) (s : State) : Result := readOut (narrowRead (s.reg ra) 32) s

/-- `RD.64` (R106). -/
def execRd64 (ra : Reg) (s : State) : Result := readOut (narrowRead (s.reg ra) 64) s

/-- `RD.128`, also the accessor `lower()` (R106). -/
def execRd128 (ra : Reg) (s : State) : Result := readOut (narrowRead (s.reg ra) 128) s

/-- `RDU`, the accessor `upper()` (R107). -/
def execRdu (ra : Reg) (s : State) : Result := readOut ((s.reg ra).upper.setWidth 256) s

/-- `RDV` (R108). -/
def execRdv (ra : Reg) (s : State) : Result := readOut (s.reg ra).toPort s

/-- `BOOL`: "true iff either limb is nonzero" (R109). -/
def execBool (rd ra : Reg) (s : State) : Result :=
  let v := s.reg ra
  writeBack rd (boolValue (v.upper != 0#128 || v.lower != 0#128)) s

/-- `BITS` (R111). -/
def execBits (rd ra : Reg) (s : State) : Result :=
  writeBack rd (Value.ofPort (BitVec.ofNat 256 (bits256 (s.reg ra)))) s

end Sys2Proof.Machine
end

