-- ==== Sys2Proof/Machine/Shift.lean ====
section
/-! DEFINITION. The limb-crossing barrel shifter and its commands (42_shift.md R130 to R136). The amount is any
unsigned integer (R132); every limb shift inside is by 1 to 127 (R133). -/

namespace Sys2Proof.Machine

/-- R130: identity, full exhaustion, limb transfer, cross-limb shift, transfer then shift. -/
def shl256 (a : Value) (n : Nat) : Value :=
  if hz : n = 0 then a
  else if hx : n ≥ 256 then Value.zero
  else if ht : n = 128 then ⟨a.lower, 0#128⟩
  else if hc : n < 128 then
    ⟨or128 (shl128 a.upper ⟨n, hc⟩) (shr128 a.lower ⟨128 - n, by omega⟩), shl128 a.lower ⟨n, hc⟩⟩
  else ⟨shl128 a.lower ⟨n - 128, by omega⟩, 0#128⟩

/-- R131: the same five cases to the right. -/
def shr256 (a : Value) (n : Nat) : Value :=
  if hz : n = 0 then a
  else if hx : n ≥ 256 then Value.zero
  else if ht : n = 128 then ⟨0#128, a.upper⟩
  else if hc : n < 128 then
    ⟨shr128 a.upper ⟨n, hc⟩, or128 (shr128 a.lower ⟨n, hc⟩) (shl128 a.upper ⟨128 - n, by omega⟩)⟩
  else ⟨0#128, shr128 a.upper ⟨n - 128, by omega⟩⟩

/-- `SHL`: the amount is the whole 256-bit `x[rb]` (R132, R134). -/
def execShl (rd ra rb : Reg) (s : State) : Result := writeBack rd (shl256 (s.reg ra) (s.reg rb).toNat) s

/-- `SHLI` (R134). -/
def execShli (rd ra : Reg) (imm : BitVec 16) (s : State) : Result :=
  writeBack rd (shl256 (s.reg ra) imm.toNat) s

/-- `SHR` (R132, R135). -/
def execShr (rd ra rb : Reg) (s : State) : Result := writeBack rd (shr256 (s.reg ra) (s.reg rb).toNat) s

/-- `SHRI` (R135). -/
def execShri (rd ra : Reg) (imm : BitVec 16) (s : State) : Result :=
  writeBack rd (shr256 (s.reg ra) imm.toNat) s

end Sys2Proof.Machine
end

