-- ==== Sys2Proof/Machine/Divide.lean ====
section
/-! DEFINITION. The long-division engine and the divide commands (46_divide.md R175 to R183). -/

namespace Sys2Proof.Machine

/-- One step of R177 for the dividend bit `b`: shift `q` and `r` left, bring the bit down, subtract and set
the quotient bit when `r >= rhs`. -/
def divStep (rhs : Value) (b : Bool) (q r : Value) : Value × Value :=
  let q := shl256 q 1
  let r := shl256 r 1
  let r := if b then or256 r Value.one else r
  if ge256 r rhs then (or256 q Value.one, sub256 r rhs) else (q, r)

/-- The loop of R177 for `i` from its argument down to 1; step `i` brings down `lhs[i-1]`. -/
def divLoop (lhs rhs : Value) : Nat → Value × Value → Value × Value
  | 0, qr => qr
  | i + 1, qr => divLoop lhs rhs i (divStep rhs (lhs.bit i) qr.1 qr.2)

/-- R177: exactly `bits256(lhs)` steps from `q = r = 0` (90_conflicts.md C2). -/
def divGeneral (lhs rhs : Value) : Value × Value :=
  divLoop lhs rhs (bits256 lhs) (Value.zero, Value.zero)

/-- R175 (zero divisor first), the four fast paths of R176 in their order, then the general path of R177.
`none` is `raise DivideByZero`. -/
def divmod256 (lhs rhs : Value) : Option (Value × Value) :=
  if hz : rhs = Value.zero then none
  else if rhs = Value.one then some (lhs, Value.zero)
  else if lhs = rhs then some (Value.one, Value.zero)
  else if lhs = Value.zero ∨ lt256 lhs rhs = true then some (Value.zero, lhs)
  else if h : lhs.upper = 0#128 ∧ rhs.upper = 0#128 then
    have hl : rhs.lower ≠ 0#128 := fun h0 => hz (Value.ext h.2 h0)
    some (⟨0#128, div128 lhs.lower rhs.lower hl⟩, ⟨0#128, mod128 lhs.lower rhs.lower hl⟩)
  else some (divGeneral lhs rhs)

/-- `DIVMOD` (R179): quotient to `x[rd]` and `rdata`, remainder to `x[re]`, both from the state before. With
`rd = re` the command is the reserved encoding and raises `IllegalCommand`, before any register is read
(R69, R214; log 6). -/
def execDivmod (rd re ra rb : Reg) (s : State) : Result :=
  if rd = re then fail .illegalCommand s
  else match divmod256 (s.reg ra) (s.reg rb) with
    | none => fail .divideByZero s
    | some (q, r) => writeBack rd q (s.setReg re r)

/-- The end of `/` and `%`, the two projections of `divmod` (46_divide.md section 1). -/
def divProject (pick : Value × Value → Value) (rd : Reg) (a b : Value) (s : State) : Result :=
  match divmod256 a b with
  | none => fail .divideByZero s
  | some qr => writeBack rd (pick qr) s

/-- `DIV` (R180). -/
def execDiv (rd ra rb : Reg) (s : State) : Result := divProject Prod.fst rd (s.reg ra) (s.reg rb) s

/-- `DIVI` (R180). -/
def execDivi (rd ra : Reg) (imm : BitVec 16) (s : State) : Result :=
  divProject Prod.fst rd (s.reg ra) (immOperand imm) s

/-- `MOD` (R181). -/
def execMod (rd ra rb : Reg) (s : State) : Result := divProject Prod.snd rd (s.reg ra) (s.reg rb) s

/-- `MODI` (R181). -/
def execModi (rd ra : Reg) (imm : BitVec 16) (s : State) : Result :=
  divProject Prod.snd rd (s.reg ra) (immOperand imm) s

end Sys2Proof.Machine
end

