-- ==== Sys2Proof/Machine/Multiply.lean ====
section
/-! DEFINITION. The multi-limb multiplier and the multiply commands (45_multiply.md R165 to R169). -/

namespace Sys2Proof.Machine

/-- R165: three limb products and one three-input sum; `a1 * b1` has weight `2^256` and is not formed. -/
def mul256 (a b : Value) : Value :=
  let p00 := mulfull128 a.lower b.lower
  let p10 := mul128 a.upper b.lower
  let p01 := mul128 a.lower b.upper
  ⟨add128 (add128 p00.upper p10) p01, p00.lower⟩

/-- `MUL` (R168). -/
def execMul (rd ra rb : Reg) (s : State) : Result := writeBack rd (mul256 (s.reg ra) (s.reg rb)) s

/-- `MULI` (R168). -/
def execMuli (rd ra : Reg) (imm : BitVec 16) (s : State) : Result :=
  writeBack rd (mul256 (s.reg ra) (immOperand imm)) s

end Sys2Proof.Machine
end

