-- ==== Sys2Proof/Machine/StringConv.lean ====
section
/-! DEFINITION. The string radix converter and the string commands (47_string.md R190 to R195). -/

namespace Sys2Proof.Machine

/-- R191: `0x30 + d` for 0 to 9, `0x61 + (d - 10)` for 10 to 35 (lower case). -/
def digitChar (d : Nat) : Byte :=
  if d ≤ 9 then BitVec.ofNat 8 (0x30 + d) else BitVec.ofNat 8 (0x61 + (d - 10))

/-- The character `"0"`, also the pad character (R191). -/
def zeroChar : Byte := 0x30#8

/-- The digit loop of R190: divide by the base until the value is zero, each new digit to the left of the
earlier ones. The count bounds the rounds; 256 are enough (70_reset_and_hazards.md R238). The base is at
least 2, so the division never raises. -/
def digitLoop (base : Value) : Nat → Value → List Byte → List Byte
  | 0, _, out => out
  | n + 1, v, out =>
    if v = Value.zero then out
    else match divmod256 v base with
      | none => out
      | some (q, d) => digitLoop base n q (digitChar d.toNat :: out)

/-- "While length(out) < minlen: out <- "0" ++ out" (R190). -/
def padLeft (minlen : Nat) (out : List Byte) : List Byte :=
  List.replicate (minlen - out.length) zeroChar ++ out

/-- `str(v, base, minlen)` (R190). -/
def strOf (v : Value) (base : BitVec 6) (minlen : Nat) : List Byte :=
  padLeft minlen
    (if v = Value.zero then [zeroChar] else digitLoop ⟨0#128, base.setWidth 128⟩ 256 v [])

/-- `STR` (R192): `S` is wholly replaced, no value register is written, `rdata` is the new length. A base
outside 2 to 36 is the reserved encoding and raises `IllegalCommand` (R68; log 6). -/
def execStr (ra : Reg) (base : BitVec 6) (minlen : BitVec 10) (s : State) : Result :=
  if baseLegal base then
    let out := strOf (s.reg ra) base minlen.toNat
    readOut (BitVec.ofNat 256 out.length) { s with str := out }
  else fail .illegalCommand s

/-- `RDSL` (R193). -/
def execRdsl (s : State) : Result := readOut (BitVec.ofNat 256 s.slen) s

/-- `S[k]`, 0 at and past `SLEN` (R27, R194). -/
def State.char (s : State) (k : Nat) : Byte := s.str.getD k 0#8

/-- `RDSC` (R194). -/
def execRdsc (idx : BitVec 16) (s : State) : Result := readOut ((s.char idx.toNat).setWidth 256) s

end Sys2Proof.Machine
end

