-- ==== Sys2Proof/Machine/System.lean ====
section
/-! DEFINITION. System commands (48_system.md R200 to R202). -/

namespace Sys2Proof.Machine

/-- `RDSTAT` (R200): reading does not clear the bits. -/
def execRdstat (s : State) : Result := readOut s.status.toPort s

/-- `CLRSTAT` (R201): both bits are cleared together. -/
def execClrstat (s : State) : Result := readOut 0#256 { s with status := StatusReg.clear }

end Sys2Proof.Machine
end

