-- ==== Sys2Proof/Machine/Dispatch.lean ====
section
/-! DEFINITION. Which meaning each command has: one arm per constructor (30_encoding.md R62). -/

namespace Sys2Proof.Machine

def exec (i : Instr) (s : State) : Host.Outcome State Fault Refusal :=
  match i with
  | .clr rd => Sys2Proof.Machine.execClr rd s
  | .mov rd ra => Sys2Proof.Machine.execMov rd ra s
  | .ldz8 rd => Sys2Proof.Machine.execLdz8 rd s
  | .ldz16 rd => Sys2Proof.Machine.execLdz16 rd s
  | .ldz32 rd => Sys2Proof.Machine.execLdz32 rd s
  | .ldz64 rd => Sys2Proof.Machine.execLdz64 rd s
  | .ldz128 rd => Sys2Proof.Machine.execLdz128 rd s
  | .lds8 rd => Sys2Proof.Machine.execLds8 rd s
  | .lds16 rd => Sys2Proof.Machine.execLds16 rd s
  | .lds32 rd => Sys2Proof.Machine.execLds32 rd s
  | .lds64 rd => Sys2Proof.Machine.execLds64 rd s
  | .lds128 rd => Sys2Proof.Machine.execLds128 rd s
  | .ldp rd => Sys2Proof.Machine.execLdp rd s
  | .rd8 ra => Sys2Proof.Machine.execRd8 ra s
  | .rd16 ra => Sys2Proof.Machine.execRd16 ra s
  | .rd32 ra => Sys2Proof.Machine.execRd32 ra s
  | .rd64 ra => Sys2Proof.Machine.execRd64 ra s
  | .rd128 ra => Sys2Proof.Machine.execRd128 ra s
  | .rdu ra => Sys2Proof.Machine.execRdu ra s
  | .rdv ra => Sys2Proof.Machine.execRdv ra s
  | .bool rd ra => Sys2Proof.Machine.execBool rd ra s
  | .bits rd ra => Sys2Proof.Machine.execBits rd ra s
  | .rdstat => Sys2Proof.Machine.execRdstat s
  | .clrstat => Sys2Proof.Machine.execClrstat s
  | .and rd ra rb => Sys2Proof.Machine.execAnd rd ra rb s
  | .or rd ra rb => Sys2Proof.Machine.execOr rd ra rb s
  | .xor rd ra rb => Sys2Proof.Machine.execXor rd ra rb s
  | .not rd ra => Sys2Proof.Machine.execNot rd ra s
  | .shl rd ra rb => Sys2Proof.Machine.execShl rd ra rb s
  | .shr rd ra rb => Sys2Proof.Machine.execShr rd ra rb s
  | .eq rd ra rb => Sys2Proof.Machine.execEq rd ra rb s
  | .ne rd ra rb => Sys2Proof.Machine.execNe rd ra rb s
  | .lt rd ra rb => Sys2Proof.Machine.execLt rd ra rb s
  | .gt rd ra rb => Sys2Proof.Machine.execGt rd ra rb s
  | .le rd ra rb => Sys2Proof.Machine.execLe rd ra rb s
  | .ge rd ra rb => Sys2Proof.Machine.execGe rd ra rb s
  | .add rd ra rb => Sys2Proof.Machine.execAdd rd ra rb s
  | .sub rd ra rb => Sys2Proof.Machine.execSub rd ra rb s
  | .neg rd ra => Sys2Proof.Machine.execNeg rd ra s
  | .inc rd => Sys2Proof.Machine.execInc rd s
  | .dec rd => Sys2Proof.Machine.execDec rd s
  | .pinc rd ra => Sys2Proof.Machine.execPinc rd ra s
  | .pdec rd ra => Sys2Proof.Machine.execPdec rd ra s
  | .mul rd ra rb => Sys2Proof.Machine.execMul rd ra rb s
  | .divmod rd re ra rb => Sys2Proof.Machine.execDivmod rd re ra rb s
  | .div rd ra rb => Sys2Proof.Machine.execDiv rd ra rb s
  | .mod rd ra rb => Sys2Proof.Machine.execMod rd ra rb s
  | .str ra base minlen => Sys2Proof.Machine.execStr ra base minlen s
  | .rdsl => Sys2Proof.Machine.execRdsl s
  | .rdsc idx => Sys2Proof.Machine.execRdsc idx s
  | .andi rd ra imm => Sys2Proof.Machine.execAndi rd ra imm s
  | .ori rd ra imm => Sys2Proof.Machine.execOri rd ra imm s
  | .xori rd ra imm => Sys2Proof.Machine.execXori rd ra imm s
  | .shli rd ra imm => Sys2Proof.Machine.execShli rd ra imm s
  | .shri rd ra imm => Sys2Proof.Machine.execShri rd ra imm s
  | .eqi rd ra imm => Sys2Proof.Machine.execEqi rd ra imm s
  | .nei rd ra imm => Sys2Proof.Machine.execNei rd ra imm s
  | .lti rd ra imm => Sys2Proof.Machine.execLti rd ra imm s
  | .gti rd ra imm => Sys2Proof.Machine.execGti rd ra imm s
  | .lei rd ra imm => Sys2Proof.Machine.execLei rd ra imm s
  | .gei rd ra imm => Sys2Proof.Machine.execGei rd ra imm s
  | .addi rd ra imm => Sys2Proof.Machine.execAddi rd ra imm s
  | .subi rd ra imm => Sys2Proof.Machine.execSubi rd ra imm s
  | .muli rd ra imm => Sys2Proof.Machine.execMuli rd ra imm s
  | .divi rd ra imm => Sys2Proof.Machine.execDivi rd ra imm s
  | .modi rd ra imm => Sys2Proof.Machine.execModi rd ra imm s

end Sys2Proof.Machine
end

