-- ==== Sys2Proof/Machine/Step.lean ====
section
/-! DEFINITION. One step of the machine (20_memory.md R44, R45; 60_exceptions.md section 7;
70_reset_and_hazards.md R230, R231). -/

namespace Sys2Proof.Machine

/-- One step: an asserted reset is taken first; with no command presented the block waits (R230, R218);
otherwise the oldest unanswered command is executed whole, an illegal word raising `IllegalCommand` (R44). -/
def step (s : State) : Host.Outcome State Fault Refusal :=
  if s.resetLine then .next s.takeReset
  else match s.pending with
    | [] => .next s
    | t :: _ => match decode t.cmd with
      | .ok i => exec i s
      | .error _ => fail .illegalCommand s

/-- `s` with the command word `w` (bits from `nbits` up zero) on the command port as the very next command
to execute, and reset not asserted. The transaction already at the head keeps its `wdata`; where none waits
the new one comes with `wdata = 0` (R72). There is no program memory to place it in (R23; log 4). -/
def State.withFetchWord (s : State) (nbits w : Nat) : State :=
  let cmd := BitVec.ofNat 32 (w % 2 ^ nbits)
  { s with
    resetLine := false
    pending := match s.pending with
      | [] => [⟨cmd, 0#256⟩]
      | t :: rest => ⟨cmd, t.wdata⟩ :: rest }

end Sys2Proof.Machine
end

