-- ==== Sys2Proof/Machine/Asm.lean ====
section
/-! DEFINITION. The written form of a command (30_encoding.md R72) and the five pseudo-instructions with their
expansions (R73). Neither is seen by `step`: they are how a host names a transaction. -/

namespace Sys2Proof.Machine

/-- A register operand, `x0` to `x15` (R72). -/
def regText (r : Reg) : String := "x" ++ Nat.repr r.val

/-- The mnemonic in capitals (R62, R72). -/
def mnemonicText : Instr → String
  | .clr _ => "CLR"
  | .mov _ _ => "MOV"
  | .ldz8 _ => "LDZ.8"
  | .ldz16 _ => "LDZ.16"
  | .ldz32 _ => "LDZ.32"
  | .ldz64 _ => "LDZ.64"
  | .ldz128 _ => "LDZ.128"
  | .lds8 _ => "LDS.8"
  | .lds16 _ => "LDS.16"
  | .lds32 _ => "LDS.32"
  | .lds64 _ => "LDS.64"
  | .lds128 _ => "LDS.128"
  | .ldp _ => "LDP"
  | .rd8 _ => "RD.8"
  | .rd16 _ => "RD.16"
  | .rd32 _ => "RD.32"
  | .rd64 _ => "RD.64"
  | .rd128 _ => "RD.128"
  | .rdu _ => "RDU"
  | .rdv _ => "RDV"
  | .bool _ _ => "BOOL"
  | .bits _ _ => "BITS"
  | .rdstat => "RDSTAT"
  | .clrstat => "CLRSTAT"
  | .and _ _ _ => "AND"
  | .or _ _ _ => "OR"
  | .xor _ _ _ => "XOR"
  | .not _ _ => "NOT"
  | .shl _ _ _ => "SHL"
  | .shr _ _ _ => "SHR"
  | .eq _ _ _ => "EQ"
  | .ne _ _ _ => "NE"
  | .lt _ _ _ => "LT"
  | .gt _ _ _ => "GT"
  | .le _ _ _ => "LE"
  | .ge _ _ _ => "GE"
  | .add _ _ _ => "ADD"
  | .sub _ _ _ => "SUB"
  | .neg _ _ => "NEG"
  | .inc _ => "INC"
  | .dec _ => "DEC"
  | .pinc _ _ => "PINC"
  | .pdec _ _ => "PDEC"
  | .mul _ _ _ => "MUL"
  | .divmod _ _ _ _ => "DIVMOD"
  | .div _ _ _ => "DIV"
  | .mod _ _ _ => "MOD"
  | .str _ _ _ => "STR"
  | .rdsl => "RDSL"
  | .rdsc _ => "RDSC"
  | .andi _ _ _ => "ANDI"
  | .ori _ _ _ => "ORI"
  | .xori _ _ _ => "XORI"
  | .shli _ _ _ => "SHLI"
  | .shri _ _ _ => "SHRI"
  | .eqi _ _ _ => "EQI"
  | .nei _ _ _ => "NEI"
  | .lti _ _ _ => "LTI"
  | .gti _ _ _ => "GTI"
  | .lei _ _ _ => "LEI"
  | .gei _ _ _ => "GEI"
  | .addi _ _ _ => "ADDI"
  | .subi _ _ _ => "SUBI"
  | .muli _ _ _ => "MULI"
  | .divi _ _ _ => "DIVI"
  | .modi _ _ _ => "MODI"

/-- The operands in the order of R62 and R72: destination first, then the left and the right operand. -/
def operandText : Instr → List String
  | .clr rd => [regText rd]
  | .mov rd ra => [regText rd, regText ra]
  | .ldz8 rd => [regText rd]
  | .ldz16 rd => [regText rd]
  | .ldz32 rd => [regText rd]
  | .ldz64 rd => [regText rd]
  | .ldz128 rd => [regText rd]
  | .lds8 rd => [regText rd]
  | .lds16 rd => [regText rd]
  | .lds32 rd => [regText rd]
  | .lds64 rd => [regText rd]
  | .lds128 rd => [regText rd]
  | .ldp rd => [regText rd]
  | .rd8 ra => [regText ra]
  | .rd16 ra => [regText ra]
  | .rd32 ra => [regText ra]
  | .rd64 ra => [regText ra]
  | .rd128 ra => [regText ra]
  | .rdu ra => [regText ra]
  | .rdv ra => [regText ra]
  | .bool rd ra => [regText rd, regText ra]
  | .bits rd ra => [regText rd, regText ra]
  | .rdstat => []
  | .clrstat => []
  | .and rd ra rb => [regText rd, regText ra, regText rb]
  | .or rd ra rb => [regText rd, regText ra, regText rb]
  | .xor rd ra rb => [regText rd, regText ra, regText rb]
  | .not rd ra => [regText rd, regText ra]
  | .shl rd ra rb => [regText rd, regText ra, regText rb]
  | .shr rd ra rb => [regText rd, regText ra, regText rb]
  | .eq rd ra rb => [regText rd, regText ra, regText rb]
  | .ne rd ra rb => [regText rd, regText ra, regText rb]
  | .lt rd ra rb => [regText rd, regText ra, regText rb]
  | .gt rd ra rb => [regText rd, regText ra, regText rb]
  | .le rd ra rb => [regText rd, regText ra, regText rb]
  | .ge rd ra rb => [regText rd, regText ra, regText rb]
  | .add rd ra rb => [regText rd, regText ra, regText rb]
  | .sub rd ra rb => [regText rd, regText ra, regText rb]
  | .neg rd ra => [regText rd, regText ra]
  | .inc rd => [regText rd]
  | .dec rd => [regText rd]
  | .pinc rd ra => [regText rd, regText ra]
  | .pdec rd ra => [regText rd, regText ra]
  | .mul rd ra rb => [regText rd, regText ra, regText rb]
  | .divmod rd re ra rb => [regText rd, regText re, regText ra, regText rb]
  | .div rd ra rb => [regText rd, regText ra, regText rb]
  | .mod rd ra rb => [regText rd, regText ra, regText rb]
  | .str ra base minlen => [regText ra, Nat.repr base.toNat, Nat.repr minlen.toNat]
  | .rdsl => []
  | .rdsc idx => [Nat.repr idx.toNat]
  | .andi rd ra imm => [regText rd, regText ra, Nat.repr imm.toNat]
  | .ori rd ra imm => [regText rd, regText ra, Nat.repr imm.toNat]
  | .xori rd ra imm => [regText rd, regText ra, Nat.repr imm.toNat]
  | .shli rd ra imm => [regText rd, regText ra, Nat.repr imm.toNat]
  | .shri rd ra imm => [regText rd, regText ra, Nat.repr imm.toNat]
  | .eqi rd ra imm => [regText rd, regText ra, Nat.repr imm.toNat]
  | .nei rd ra imm => [regText rd, regText ra, Nat.repr imm.toNat]
  | .lti rd ra imm => [regText rd, regText ra, Nat.repr imm.toNat]
  | .gti rd ra imm => [regText rd, regText ra, Nat.repr imm.toNat]
  | .lei rd ra imm => [regText rd, regText ra, Nat.repr imm.toNat]
  | .gei rd ra imm => [regText rd, regText ra, Nat.repr imm.toNat]
  | .addi rd ra imm => [regText rd, regText ra, Nat.repr imm.toNat]
  | .subi rd ra imm => [regText rd, regText ra, Nat.repr imm.toNat]
  | .muli rd ra imm => [regText rd, regText ra, Nat.repr imm.toNat]
  | .divi rd ra imm => [regText rd, regText ra, Nat.repr imm.toNat]
  | .modi rd ra imm => [regText rd, regText ra, Nat.repr imm.toNat]

/-- Whether a command is a load: its `wdata` is written as a last operand (R72). -/
def takesWdata : Instr → Bool
  | .clr _ => false
  | .mov _ _ => false
  | .ldz8 _ => true
  | .ldz16 _ => true
  | .ldz32 _ => true
  | .ldz64 _ => true
  | .ldz128 _ => true
  | .lds8 _ => true
  | .lds16 _ => true
  | .lds32 _ => true
  | .lds64 _ => true
  | .lds128 _ => true
  | .ldp _ => true
  | .rd8 _ => false
  | .rd16 _ => false
  | .rd32 _ => false
  | .rd64 _ => false
  | .rd128 _ => false
  | .rdu _ => false
  | .rdv _ => false
  | .bool _ _ => false
  | .bits _ _ => false
  | .rdstat => false
  | .clrstat => false
  | .and _ _ _ => false
  | .or _ _ _ => false
  | .xor _ _ _ => false
  | .not _ _ => false
  | .shl _ _ _ => false
  | .shr _ _ _ => false
  | .eq _ _ _ => false
  | .ne _ _ _ => false
  | .lt _ _ _ => false
  | .gt _ _ _ => false
  | .le _ _ _ => false
  | .ge _ _ _ => false
  | .add _ _ _ => false
  | .sub _ _ _ => false
  | .neg _ _ => false
  | .inc _ => false
  | .dec _ => false
  | .pinc _ _ => false
  | .pdec _ _ => false
  | .mul _ _ _ => false
  | .divmod _ _ _ _ => false
  | .div _ _ _ => false
  | .mod _ _ _ => false
  | .str _ _ _ => false
  | .rdsl => false
  | .rdsc _ => false
  | .andi _ _ _ => false
  | .ori _ _ _ => false
  | .xori _ _ _ => false
  | .shli _ _ _ => false
  | .shri _ _ _ => false
  | .eqi _ _ _ => false
  | .nei _ _ _ => false
  | .lti _ _ _ => false
  | .gti _ _ _ => false
  | .lei _ _ _ => false
  | .gei _ _ _ => false
  | .addi _ _ _ => false
  | .subi _ _ _ => false
  | .muli _ _ _ => false
  | .divi _ _ _ => false
  | .modi _ _ _ => false

/-- One line: the mnemonic, then the operands separated by commas (R72). -/
def asmText (i : Instr) (wdata : PortWord) : String :=
  match operandText i ++ (if takesWdata i then [Nat.repr wdata.toNat] else []) with
  | [] => mnemonicText i
  | ops => mnemonicText i ++ " " ++ String.intercalate ", " ops

/-- The pseudo-instructions (R73). `li` takes `k < 2^128`, `ld2` two limbs, `ld4` four 64-bit quarters. -/
inductive Pseudo where
  | rdl (ra : Reg)
  | li (rd : Reg) (k : Limb)
  | ld2 (rd : Reg) (u l : Limb)
  | ld4 (rd : Reg) (a b c d : BitVec 64)
  | strd (ra : Reg)
  deriving DecidableEq, Repr

/-- What a pseudo-instruction expands to: one command and the `wdata` presented with it, 0 for a command that
is not a load (R72, R73). -/
def Pseudo.expand : Pseudo → Instr × PortWord
  | .rdl ra => (.rd128 ra, 0#256)
  | .li rd k => (.ldz128 rd, k.setWidth 256)
  | .ld2 rd u l => (.ldp rd, u ++ l)
  | .ld4 rd a b c d => (.ldp rd, a ++ b ++ c ++ d)
  | .strd ra => (.str ra 10#6 0#10, 0#256)

end Sys2Proof.Machine
end

