-- ==== Sys2Proof/Machine/HostPort.lean ====
section
/-! DEFINITION. What the host can do to the block between steps (20_memory.md R52), and what a host computes
from what it reads: these are not commands and not part of `step`. -/

namespace Sys2Proof.Machine

/-- The host presents `cmd` with `wdata` (R40, R45): behind every command it presented before. -/
def State.present (s : State) (cmd : CmdWord) (wdata : PortWord) : State :=
  { s with pending := s.pending ++ [⟨cmd, wdata⟩] }

/-- The host presents several transactions, in order. -/
def State.presentAll (s : State) (ts : List Transaction) : State :=
  { s with pending := s.pending ++ ts }

/-- The host asserts `reset` (R230); the next step takes it. -/
def State.assertReset (s : State) : State := { s with resetLine := true }

/-- The host takes the oldest response, if one stands (R41, R45). -/
def State.takeResponse (s : State) : Option (Response × State) :=
  match s.responses with
  | [] => none
  | r :: rest => some (r, { s with responses := rest })

/-- `value_of(character)` of R195, for the digit characters of R191. -/
def charValue (c : Byte) : Nat := if c.toNat ≤ 0x39 then c.toNat - 0x30 else c.toNat - 0x61 + 10

/-- R195: reading the characters left to right with `acc <- acc * base + value_of(character)` from 0. -/
def parseDigits (base : Nat) (cs : List Byte) : Nat :=
  cs.foldl (fun acc c => acc * base + charValue c) 0

end Sys2Proof.Machine
end

