-- ==== Sys2Proof/Safety.lean ====
section
/-! DEFINITION. What counts as a safe run, and the terms the claims are written in: the invariant, what a
command may touch, how a command ends, and the legality of a word written a second time, by masks, from
30_encoding.md R61 to R63. -/

namespace Sys2Proof.Machine

/-! ### The invariant -/

/-- The byte is one of the 36 digit characters (R191). -/
def isDigitByte (c : Byte) : Bool :=
  (decide (0x30 ≤ c.toNat) && decide (c.toNat ≤ 0x39)) || (decide (0x61 ≤ c.toNat) && decide (c.toNat ≤ 0x7A))

/-- `S` has at most 1023 characters (R27), all of them digit characters (R191), and every response that
reports a fault carries `rdata = 0` (R41, R212, R213). -/
abbrev State.Inv (s : State) : Prop :=
  s.slen ≤ Config.strCap ∧ (∀ c ∈ s.str, isDigitByte c = true) ∧
    ∀ r ∈ s.responses, r.status ≠ .ok → r.rdata = 0#256

/-- "no fault recorded": every response had `status = 0` (60_exceptions.md section 7). -/
abbrev State.NoFault (s : State) : Prop := ∀ r ∈ s.responses, r.status = .ok

/-! ### What a command names -/

/-- The registers a command may write (R22): `rd`, `re`, and `ra` of `PINC` and `PDEC`. -/
def destinations : Instr → List Reg
  | .clr rd => [rd]
  | .mov rd _ => [rd]
  | .ldz8 rd => [rd]
  | .ldz16 rd => [rd]
  | .ldz32 rd => [rd]
  | .ldz64 rd => [rd]
  | .ldz128 rd => [rd]
  | .lds8 rd => [rd]
  | .lds16 rd => [rd]
  | .lds32 rd => [rd]
  | .lds64 rd => [rd]
  | .lds128 rd => [rd]
  | .ldp rd => [rd]
  | .rd8 _ => []
  | .rd16 _ => []
  | .rd32 _ => []
  | .rd64 _ => []
  | .rd128 _ => []
  | .rdu _ => []
  | .rdv _ => []
  | .bool rd _ => [rd]
  | .bits rd _ => [rd]
  | .rdstat => []
  | .clrstat => []
  | .and rd _ _ => [rd]
  | .or rd _ _ => [rd]
  | .xor rd _ _ => [rd]
  | .not rd _ => [rd]
  | .shl rd _ _ => [rd]
  | .shr rd _ _ => [rd]
  | .eq rd _ _ => [rd]
  | .ne rd _ _ => [rd]
  | .lt rd _ _ => [rd]
  | .gt rd _ _ => [rd]
  | .le rd _ _ => [rd]
  | .ge rd _ _ => [rd]
  | .add rd _ _ => [rd]
  | .sub rd _ _ => [rd]
  | .neg rd _ => [rd]
  | .inc rd => [rd]
  | .dec rd => [rd]
  | .pinc rd ra => [rd, ra]
  | .pdec rd ra => [rd, ra]
  | .mul rd _ _ => [rd]
  | .divmod rd re _ _ => [rd, re]
  | .div rd _ _ => [rd]
  | .mod rd _ _ => [rd]
  | .str _ _ _ => []
  | .rdsl => []
  | .rdsc _ => []
  | .andi rd _ _ => [rd]
  | .ori rd _ _ => [rd]
  | .xori rd _ _ => [rd]
  | .shli rd _ _ => [rd]
  | .shri rd _ _ => [rd]
  | .eqi rd _ _ => [rd]
  | .nei rd _ _ => [rd]
  | .lti rd _ _ => [rd]
  | .gti rd _ _ => [rd]
  | .lei rd _ _ => [rd]
  | .gei rd _ _ => [rd]
  | .addi rd _ _ => [rd]
  | .subi rd _ _ => [rd]
  | .muli rd _ _ => [rd]
  | .divi rd _ _ => [rd]
  | .modi rd _ _ => [rd]

/-- How many low bits of `wdata` a command uses (R49). -/
def wdataBits : Instr → Nat
  | .clr _ => 0
  | .mov _ _ => 0
  | .ldz8 _ => 8
  | .ldz16 _ => 16
  | .ldz32 _ => 32
  | .ldz64 _ => 64
  | .ldz128 _ => 128
  | .lds8 _ => 8
  | .lds16 _ => 16
  | .lds32 _ => 32
  | .lds64 _ => 64
  | .lds128 _ => 128
  | .ldp _ => 256
  | .rd8 _ => 0
  | .rd16 _ => 0
  | .rd32 _ => 0
  | .rd64 _ => 0
  | .rd128 _ => 0
  | .rdu _ => 0
  | .rdv _ => 0
  | .bool _ _ => 0
  | .bits _ _ => 0
  | .rdstat => 0
  | .clrstat => 0
  | .and _ _ _ => 0
  | .or _ _ _ => 0
  | .xor _ _ _ => 0
  | .not _ _ => 0
  | .shl _ _ _ => 0
  | .shr _ _ _ => 0
  | .eq _ _ _ => 0
  | .ne _ _ _ => 0
  | .lt _ _ _ => 0
  | .gt _ _ _ => 0
  | .le _ _ _ => 0
  | .ge _ _ _ => 0
  | .add _ _ _ => 0
  | .sub _ _ _ => 0
  | .neg _ _ => 0
  | .inc _ => 0
  | .dec _ => 0
  | .pinc _ _ => 0
  | .pdec _ _ => 0
  | .mul _ _ _ => 0
  | .divmod _ _ _ _ => 0
  | .div _ _ _ => 0
  | .mod _ _ _ => 0
  | .str _ _ _ => 0
  | .rdsl => 0
  | .rdsc _ => 0
  | .andi _ _ _ => 0
  | .ori _ _ _ => 0
  | .xori _ _ _ => 0
  | .shli _ _ _ => 0
  | .shri _ _ _ => 0
  | .eqi _ _ _ => 0
  | .nei _ _ _ => 0
  | .lti _ _ _ => 0
  | .gti _ _ _ => 0
  | .lei _ _ _ => 0
  | .gei _ _ _ => 0
  | .addi _ _ _ => 0
  | .subi _ _ _ => 0
  | .muli _ _ _ => 0
  | .divi _ _ _ => 0
  | .modi _ _ _ => 0

/-- The read commands of R50. -/
def isRead : Instr → Bool
  | .clr _ => false
  | .mov _ _ => false
  | .ldz8 _ => false
  | .ldz16 _ => false
  | .ldz32 _ => false
  | .ldz64 _ => false
  | .ldz128 _ => false
  | .lds8 _ => false
  | .lds16 _ => false
  | .lds32 _ => false
  | .lds64 _ => false
  | .lds128 _ => false
  | .ldp _ => false
  | .rd8 _ => true
  | .rd16 _ => true
  | .rd32 _ => true
  | .rd64 _ => true
  | .rd128 _ => true
  | .rdu _ => true
  | .rdv _ => true
  | .bool _ _ => false
  | .bits _ _ => false
  | .rdstat => true
  | .clrstat => false
  | .and _ _ _ => false
  | .or _ _ _ => false
  | .xor _ _ _ => false
  | .not _ _ => false
  | .shl _ _ _ => false
  | .shr _ _ _ => false
  | .eq _ _ _ => false
  | .ne _ _ _ => false
  | .lt _ _ _ => false
  | .gt _ _ _ => false
  | .le _ _ _ => false
  | .ge _ _ _ => false
  | .add _ _ _ => false
  | .sub _ _ _ => false
  | .neg _ _ => false
  | .inc _ => false
  | .dec _ => false
  | .pinc _ _ => false
  | .pdec _ _ => false
  | .mul _ _ _ => false
  | .divmod _ _ _ _ => false
  | .div _ _ _ => false
  | .mod _ _ _ => false
  | .str _ _ _ => false
  | .rdsl => true
  | .rdsc _ => true
  | .andi _ _ _ => false
  | .ori _ _ _ => false
  | .xori _ _ _ => false
  | .shli _ _ _ => false
  | .shri _ _ _ => false
  | .eqi _ _ _ => false
  | .nei _ _ _ => false
  | .lti _ _ _ => false
  | .gti _ _ _ => false
  | .lei _ _ _ => false
  | .gei _ _ _ => false
  | .addi _ _ _ => false
  | .subi _ _ _ => false
  | .muli _ _ _ => false
  | .divi _ _ _ => false
  | .modi _ _ _ => false

/-- The command is `STR`, the one that writes `S` and `SLEN` (R27). -/
def isStr : Instr → Bool
  | .clr _ => false
  | .mov _ _ => false
  | .ldz8 _ => false
  | .ldz16 _ => false
  | .ldz32 _ => false
  | .ldz64 _ => false
  | .ldz128 _ => false
  | .lds8 _ => false
  | .lds16 _ => false
  | .lds32 _ => false
  | .lds64 _ => false
  | .lds128 _ => false
  | .ldp _ => false
  | .rd8 _ => false
  | .rd16 _ => false
  | .rd32 _ => false
  | .rd64 _ => false
  | .rd128 _ => false
  | .rdu _ => false
  | .rdv _ => false
  | .bool _ _ => false
  | .bits _ _ => false
  | .rdstat => false
  | .clrstat => false
  | .and _ _ _ => false
  | .or _ _ _ => false
  | .xor _ _ _ => false
  | .not _ _ => false
  | .shl _ _ _ => false
  | .shr _ _ _ => false
  | .eq _ _ _ => false
  | .ne _ _ _ => false
  | .lt _ _ _ => false
  | .gt _ _ _ => false
  | .le _ _ _ => false
  | .ge _ _ _ => false
  | .add _ _ _ => false
  | .sub _ _ _ => false
  | .neg _ _ => false
  | .inc _ => false
  | .dec _ => false
  | .pinc _ _ => false
  | .pdec _ _ => false
  | .mul _ _ _ => false
  | .divmod _ _ _ _ => false
  | .div _ _ _ => false
  | .mod _ _ _ => false
  | .str _ _ _ => true
  | .rdsl => false
  | .rdsc _ => false
  | .andi _ _ _ => false
  | .ori _ _ _ => false
  | .xori _ _ _ => false
  | .shli _ _ _ => false
  | .shri _ _ _ => false
  | .eqi _ _ _ => false
  | .nei _ _ _ => false
  | .lti _ _ _ => false
  | .gti _ _ _ => false
  | .lei _ _ _ => false
  | .gei _ _ _ => false
  | .addi _ _ _ => false
  | .subi _ _ _ => false
  | .muli _ _ _ => false
  | .divi _ _ _ => false
  | .modi _ _ _ => false

/-! ### How a command ends

Each says the whole next state. Numbers are the unsigned integers of 00_scope.md section 5. -/

/-- What no command changes but by being answered: the reset input stays, the oldest transaction is answered,
and its one response `r` joins the earlier ones (R41, R45). -/
def Answered (s t : State) (r : Response) : Prop :=
  t.resetLine = s.resetLine ∧ t.pending = s.pending.tail ∧ t.responses = s.responses ++ [r]

/-- The command completes, `x[rd]` holds `n`, `rdata` is `n`, and nothing else changes: every other register,
both status bits, `S` and `SLEN` keep their values. -/
def WritesOnly (o : Result) (s : State) (rd : Reg) (n : Nat) : Prop :=
  ∃ t, o = .next t ∧ (t.reg rd).toNat = n ∧ (∀ r, r ≠ rd → t.reg r = s.reg r) ∧
    t.status = s.status ∧ t.str = s.str ∧ Answered s t ⟨.ok, BitVec.ofNat 256 n⟩

/-- The command completes, `x[rd]` and `rdata` hold `n`, `x[re]` holds `m`, and nothing else changes. -/
def WritesBoth (o : Result) (s : State) (rd : Reg) (n : Nat) (re : Reg) (m : Nat) : Prop :=
  ∃ t, o = .next t ∧ (t.reg rd).toNat = n ∧ (t.reg re).toNat = m ∧
    (∀ r, r ≠ rd → r ≠ re → t.reg r = s.reg r) ∧
    t.status = s.status ∧ t.str = s.str ∧ Answered s t ⟨.ok, BitVec.ofNat 256 n⟩

/-- The command completes, `rdata` is `n`, and no register, status bit or character changes. -/
def AnswersOnly (o : Result) (s : State) (n : Nat) : Prop :=
  ∃ t, o = .next t ∧ (∀ r, t.reg r = s.reg r) ∧ t.status = s.status ∧ t.str = s.str ∧
    Answered s t ⟨.ok, BitVec.ofNat 256 n⟩

/-- The command faults (R212, R213): `status` names the cause, `rdata = 0`, the cause's sticky bit is set, the
other keeps its value, and no register or character changes. -/
def FaultsWith (o : Result) (s : State) (c : Cause) : Prop :=
  ∃ t, o = .next t ∧ (∀ r, t.reg r = s.reg r) ∧
    t.status.dz = (s.status.dz || decide (c = .divideByZero)) ∧
    t.status.ill = (s.status.ill || decide (c = .illegalCommand)) ∧
    t.str = s.str ∧ Answered s t ⟨.raised c, 0#256⟩

/-! ### The word of a command, as the sum of its fields (R61) -/

/-- A word from its opcode, `rd`, `ra` and `cmd[15:0]`. -/
def cmdWord (op rd ra low : Nat) : CmdWord := BitVec.ofNat 32 (op * 2 ^ 24 + rd * 2 ^ 20 + ra * 2 ^ 16 + low)

/-- Format R. -/
def cmdR (op : Nat) (rd ra rb : Reg) : CmdWord := cmdWord op rd ra (rb.val * 2 ^ 12)

/-- Format I. -/
def cmdI (op : Nat) (rd ra : Reg) (imm : BitVec 16) : CmdWord := cmdWord op rd ra imm.toNat

/-- Format U. -/
def cmdU (op : Nat) (rd ra : Reg) : CmdWord := cmdWord op rd ra 0

/-- Format D. -/
def cmdD (op : Nat) (rd : Reg) : CmdWord := cmdWord op rd 0 0

/-- Format A. -/
def cmdA (op : Nat) (ra : Reg) : CmdWord := cmdWord op 0 ra 0

/-- Format L. -/
def cmdL (op : Nat) (rd : Reg) (wsel : Nat) : CmdWord := cmdWord op rd 0 (wsel * 2 ^ 12)

/-- Format G. -/
def cmdG (op : Nat) (ra : Reg) (wsel : Nat) : CmdWord := cmdWord op 0 ra (wsel * 2 ^ 12)

/-- Format Q. -/
def cmdQ (op : Nat) (rd ra rb re : Reg) : CmdWord := cmdWord op rd ra (rb.val * 2 ^ 12 + re.val * 2 ^ 8)

/-- Format S. -/
def cmdS (op : Nat) (ra : Reg) (base : BitVec 6) (minlen : BitVec 10) : CmdWord :=
  cmdWord op 0 ra (base.toNat * 2 ^ 10 + minlen.toNat)

/-- Format X. -/
def cmdX (op : Nat) (idx : BitVec 16) : CmdWord := cmdWord op 0 0 idx.toNat

/-- Format N. -/
def cmdN (op : Nat) : CmdWord := cmdWord op 0 0 0

/-! ### Legality of a word by masks (R61 to R63), written apart from the decoder -/

/-- The eleven formats of R61. -/
inductive Format where
  | N | D | U | R | Q | I | L | G | A | S | X
  deriving DecidableEq, Repr

/-- The 54 assigned opcodes with their formats (R62). -/
def opcodeTable : List (Nat × Format) :=
  [(0x01, .D), (0x02, .U), (0x03, .L), (0x04, .L), (0x05, .D), (0x06, .G), (0x07, .A), (0x08, .A), (0x09, .U),
   (0x0A, .U), (0x0E, .N), (0x0F, .N), (0x10, .R), (0x11, .R), (0x12, .R), (0x13, .U), (0x20, .R), (0x21, .R),
   (0x30, .R), (0x31, .R), (0x32, .R), (0x33, .R), (0x34, .R), (0x35, .R), (0x40, .R), (0x41, .R), (0x42, .U),
   (0x43, .D), (0x44, .D), (0x45, .U), (0x46, .U), (0x50, .R), (0x60, .Q), (0x61, .R), (0x62, .R), (0x70, .S),
   (0x71, .N), (0x72, .X), (0x90, .I), (0x91, .I), (0x92, .I), (0xA0, .I), (0xA1, .I), (0xB0, .I), (0xB1, .I),
   (0xB2, .I), (0xB3, .I), (0xB4, .I), (0xB5, .I), (0xC0, .I), (0xC1, .I), (0xD0, .I), (0xE1, .I), (0xE2, .I)]

/-- The format of an assigned opcode, if it is one (R62). -/
def formatOf (op : Nat) : Option Format := opcodeTable.lookup op

/-- The bits a format marks 0 (R61). -/
def Format.reserved : Format → Nat
  | .N => 0x00FFFFFF
  | .D => 0x000FFFFF
  | .U => 0x0000FFFF
  | .R => 0x00000FFF
  | .Q => 0x000000FF
  | .I => 0x00000000
  | .L => 0x000F0FFF
  | .G => 0x00F00FFF
  | .A => 0x00F0FFFF
  | .S => 0x00F00000
  | .X => 0x00FF0000

/-- Bits `lo + len - 1` down to `lo` of a number (00_scope.md section 5). -/
def bitsOf (w lo len : Nat) : Nat := w / 2 ^ lo % 2 ^ len

/-- Lines 3 to 6 of R63, for a word of the given opcode and format. -/
def restrictionsHold (op : Nat) (f : Format) (w : Nat) : Bool :=
  (!(f == .L || f == .G) || decide (bitsOf w 12 4 ≤ 4)) &&
  (!(op == 0x70) || (decide (2 ≤ bitsOf w 10 6) && decide (bitsOf w 10 6 ≤ 36))) &&
  (!(op == 0x45 || op == 0x46) || bitsOf w 20 4 != bitsOf w 16 4) &&
  (!(op == 0x60) || bitsOf w 20 4 != bitsOf w 8 4)

/-- R63: the six lines. -/
def legalWord (w : CmdWord) : Bool :=
  match formatOf (bitsOf w.toNat 24 8) with
  | none => false
  | some f => w.toNat &&& f.reserved == 0 && restrictionsHold (bitsOf w.toNat 24 8) f w.toNat

/-- The 202 unassigned opcodes, by the ranges of R65. -/
def unassignedRanges : List (Nat × Nat) :=
  [(0x00, 0x00), (0x0B, 0x0D), (0x14, 0x1F), (0x22, 0x2F), (0x36, 0x3F), (0x47, 0x4F), (0x51, 0x5F),
   (0x63, 0x6F), (0x73, 0x8F), (0x93, 0x9F), (0xA2, 0xAF), (0xB6, 0xBF), (0xC2, 0xCF), (0xD1, 0xE0),
   (0xE3, 0xFF)]

/-- The opcode lies in one of the ranges of R65. -/
def unassigned (op : Nat) : Bool := unassignedRanges.any fun r => decide (r.1 ≤ op) && decide (op ≤ r.2)

end Sys2Proof.Machine
end

