-- ==== Sys2Proof/Certificates/Slice0/Obligations.lean ====
section
/-! DEFINITION. The statements for the provers, each a rule of spec/ or a consequence of named rules. The terms
they are written in (`WritesOnly`, `AnswersOnly`, `FaultsWith`, `cmdR`, `legalWord`, ...) are in Safety.lean. -/

open Sys2Proof Sys2Proof.Machine

/-- The example words of 30_encoding.md section 6 decode to the commands they stand for (30_encoding.md section 6,
R61, R62). -/
def Obligations.SpecExampleWordsDecode : Prop :=
  decode 0x01500000#32 = .ok (.clr 5) ∧ decode 0x02270000#32 = .ok (.mov 2 7) ∧
  decode 0x03103000#32 = .ok (.ldz64 1) ∧ decode 0x04100000#32 = .ok (.lds8 1) ∧
  decode 0x06092000#32 = .ok (.rd32 9) ∧ decode 0x40312000#32 = .ok (.add 3 1 2) ∧
  decode 0xC0310001#32 = .ok (.addi 3 1 1#16) ∧ decode 0xA0210080#32 = .ok (.shli 2 1 128#16) ∧
  decode 0x60312400#32 = .ok (.divmod 3 4 1 2) ∧ decode 0x70012800#32 = .ok (.str 1 10#6 0#10) ∧
  decode 0x70010900#32 = .ok (.str 1 2#6 256#10) ∧ decode 0x700193FF#32 = .ok (.str 1 36#6 1023#10) ∧
  decode 0x72000003#32 = .ok (.rdsc 3#16) ∧ decode 0x0E000000#32 = .ok .rdstat

/-- Decoding the word of a well-formed command gives the command back, for all 66 commands and all operands (R60,
R61, R62, R63). -/
def Obligations.EncodedCommandDecodesBack : Prop :=
  ∀ i : Instr, i.WellFormed → decode (encode i) = .ok i

/-- A legal word is the word of exactly the one well-formed command it decodes to (R60, R61, R63,
92_eei_decisions.md D6). -/
def Obligations.DecodedWordEncodesBack : Prop :=
  ∀ (w : CmdWord) (i : Instr), decode w = .ok i → i.WellFormed ∧ encode i = w

/-- A word decodes to a command exactly when it meets the six lines of R63, and any other word raises IllegalCommand
(R63). -/
def Obligations.DecoderAcceptsExactlyLegalWords : Prop :=
  ∀ w : CmdWord, ((∃ i, decode w = .ok i) ↔ legalWord w = true) ∧
    ∀ (s : State) (d : PortWord) (rest : List Transaction), legalWord w = false → s.resetLine = false →
      s.pending = ⟨w, d⟩ :: rest → FaultsWith (step s) s .illegalCommand

/-- The 202 unassigned opcodes, by the ranges of R65, raise IllegalCommand (R65). -/
def Obligations.UnassignedOpcodesRaise : Prop :=
  ((List.range 256).filter unassigned).length = 202 ∧ opcodeTable.length = 54 ∧
  (∀ op < 256, unassigned op = true ↔ formatOf op = none) ∧
  ∀ (s : State) (w : CmdWord) (d : PortWord) (rest : List Transaction), unassigned (bitsOf w.toNat 24 8) = true →
    s.resetLine = false → s.pending = ⟨w, d⟩ :: rest → FaultsWith (step s) s .illegalCommand

/-- A word with a 1 in a field its format marks 0 raises IllegalCommand, and so do the all-zero and all-ones words
(R64). -/
def Obligations.ReservedFieldBitsRaise : Prop :=
  ∀ (s : State) (w : CmdWord) (d : PortWord) (rest : List Transaction), s.resetLine = false →
    s.pending = ⟨w, d⟩ :: rest →
    ((∃ f, formatOf (bitsOf w.toNat 24 8) = some f ∧ w.toNat &&& f.reserved ≠ 0) ∨
      w = 0x00000000#32 ∨ w = 0xFFFFFFFF#32) →
    FaultsWith (step s) s .illegalCommand

/-- A step executes the command that the oldest unanswered word decodes to (R44, R45). The clause on withFetchWord
is about the model's own way to present a word: log entry 4. -/
def Obligations.StepRunsDecodedCommand : Prop :=
  (∀ (s : State) (t : Transaction) (rest : List Transaction) (i : Instr), s.resetLine = false →
    s.pending = t :: rest → decode t.cmd = .ok i → step s = exec i s) ∧
  ∀ (s : State) (i : Instr) (nbits w : Nat), decode (BitVec.ofNat 32 (w % 2 ^ nbits)) = .ok i →
    step (s.withFetchWord nbits w) = exec i (s.withFetchWord nbits w)

/-- What raising IllegalCommand does, and the response codes (R213, R211). -/
def Obligations.IllegalWordRaisesIllegalCommand : Prop :=
  (∀ (s : State) (w : CmdWord) (d : PortWord) (rest : List Transaction) (e : DecodeError), s.resetLine = false →
    s.pending = ⟨w, d⟩ :: rest → decode w = .error e → FaultsWith (step s) s .illegalCommand) ∧
  RespStatus.ok.code = 0#2 ∧ (RespStatus.raised .divideByZero).code = 1#2 ∧
  (RespStatus.raised .illegalCommand).code = 2#2 ∧ ∀ r : RespStatus, r.code ≠ 3#2

/-- With no command presented and no reset asserted nothing happens (R218, R230). That waiting is a step that
changes nothing is the model's choice: log entry 1. -/
def Obligations.BlockWaitsWithoutCommand : Prop :=
  ∀ s : State, s.resetLine = false → s.pending = [] → step s = .next s

/-- An asserted reset zeroes all state, drops every unanswered command and gives no response (R230, R231). That
reset is a Bool taken by one step, and that answers already given stay, is the model's choice: log entries 2 and
3. -/
def Obligations.ResetClearsAndDropsUnanswered : Prop :=
  ∀ s : State, s.resetLine = true →
    ∃ t, step s = .next t ∧ (∀ r, t.reg r = Value.zero) ∧ t.status.dz = false ∧ t.status.ill = false ∧
      t.str = [] ∧ t.slen = 0 ∧ t.pending = [] ∧ t.responses = s.responses ∧ t.resetLine = false ∧
      step t = .next t

/-- After reset every piece of state has the value of the reset table (R30). -/
def Obligations.ResetStateIsAllZero : Prop :=
  (∀ r, (State.reset.reg r).upper = 0#128 ∧ (State.reset.reg r).lower = 0#128) ∧
  State.reset.status.dz = false ∧ State.reset.status.ill = false ∧ State.reset.slen = 0 ∧ State.reset.str = []

/-- No step stops: every command in every state, and every step, answers a next state (60_exceptions.md section 7,
R210, R238). That a wait is a step is the model's choice: log entry 1. -/
def Obligations.EveryStepHasANextState : Prop :=
  (∀ (i : Instr) (s : State), ∃ t, exec i s = .next t) ∧ ∀ s : State, ∃ t, step s = .next t

/-- Every step keeps the invariant: at most 1023 characters in S, all of them digit characters, and rdata 0 in every
fault response (R27, R191, R192, R41, R212, R213). That answers are kept in a list until the host takes them is
the model's choice: log entry 3. -/
def Obligations.StepKeepsInvariant : Prop :=
  ∀ s t : State, s.Inv → step s = .next t → t.Inv

/-- The reset state meets the invariant that every step keeps (R30, R27). -/
def Obligations.ResetMeetsInvariant : Prop :=
  State.reset.Inv

/-- Every command gives exactly one response, and what the response carries (R40, R41, R45). -/
def Obligations.EveryCommandAnswersItsResult : Prop :=
  ∀ (i : Instr) (s : State), ∃ t r, exec i s = .next t ∧ Answered s t r ∧ (r.status ≠ .ok → r.rdata = 0#256) ∧
    (r.status = .ok → (∀ rd, (destinations i).head? = some rd → r.rdata = (t.reg rd).toPort) ∧
      (isStr i = true → r.rdata = BitVec.ofNat 256 t.slen) ∧ (i = .clrstat → r.rdata = 0#256))

/-- n presented commands are answered by n steps with n responses in order of presentation (R41, R45, R52, R238).
That one command is one step, and that the ports are lists, is the model's choice: log entries 1, 3 and 13. -/
def Obligations.PresentedCommandsAreAnswered : Prop :=
  ∀ (s : State) (more : List Transaction), s.resetLine = false →
    ∃ (t : State) (rs : List Response), Host.Core.run Sys2Proof.core s.pending.length s = .next t ∧
      t.pending = [] ∧ t.resetLine = false ∧ t.responses = s.responses ++ rs ∧ rs.length = s.pending.length ∧
      Host.Core.run Sys2Proof.core s.pending.length (s.presentAll more) = .next (t.presentAll more)

/-- A command sees none of the commands presented after it (R45). That the command port is a list is the model's
choice: log entry 1. -/
def Obligations.LaterCommandsAreNotSeen : Prop :=
  ∀ (s : State) (t : Transaction) (rest : List Transaction), s.resetLine = false →
    ∃ u : State, step { s with pending := [t] } = .next u ∧ u.pending = [] ∧
      step { s with pending := t :: rest } = .next { u with pending := rest }

/-- A sticky bit is set by its own fault only, and cleared by CLRSTAT and reset only (R25, R210, R216). -/
def Obligations.StickyBitsRecordFaults : Prop :=
  ∀ (s : State) (t : Transaction) (rest : List Transaction), s.resetLine = false → s.pending = t :: rest →
    decode t.cmd ≠ .ok .clrstat →
    ∃ (u : State) (r : Response), step s = .next u ∧ u.responses = s.responses ++ [r] ∧
      u.status.dz = (s.status.dz || decide (r.status = .raised .divideByZero)) ∧
      u.status.ill = (s.status.ill || decide (r.status = .raised .illegalCommand))

/-- A register changes only by reset or by a command that names it as a destination (R22). -/
def Obligations.OnlyNamedRegistersChange : Prop :=
  ∀ (s t : State) (r : Reg), step s = .next t → t.reg r ≠ s.reg r →
    s.resetLine = true ∨ ∃ tx rest i, s.pending = tx :: rest ∧ decode tx.cmd = .ok i ∧ r ∈ destinations i

/-- S and SLEN change only by STR or reset (R27). -/
def Obligations.OnlyStrChangesString : Prop :=
  ∀ s t : State, step s = .next t → t.str ≠ s.str →
    s.resetLine = true ∨ ∃ tx rest i, s.pending = tx :: rest ∧ decode tx.cmd = .ok i ∧ isStr i = true

/-- RD.w, RDU, RDV, RDSL, RDSC and RDSTAT change no state, and a second one gives the same answer (R50). -/
def Obligations.ReadsHaveNoSideEffect : Prop :=
  ∀ (i : Instr) (s : State), isRead i = true →
    ∃ t u r, exec i s = .next t ∧ exec i t = .next u ∧ Answered s t r ∧ Answered t u r ∧
      (∀ k, t.reg k = s.reg k) ∧ t.status = s.status ∧ t.str = s.str

/-- wdata bits a command does not use change nothing (R49, R102, R213, 93_implementation_defined.md U11). -/
def Obligations.IgnoredWdataBitsDoNotMatter : Prop :=
  ∀ (s : State) (w : CmdWord) (d d' : PortWord) (rest : List Transaction),
    (∀ i : Instr, d.toNat % 2 ^ wdataBits i = d'.toNat % 2 ^ wdataBits i →
      exec i { s with pending := ⟨w, d⟩ :: rest } = exec i { s with pending := ⟨w, d'⟩ :: rest }) ∧
    (legalWord w = false →
      s.resetLine = false →
      step { s with pending := ⟨w, d⟩ :: rest } = step { s with pending := ⟨w, d'⟩ :: rest })

/-- PINC/PDEC with rd = ra and DIVMOD with rd = re raise IllegalCommand; every other pairing is legal (R69). That
exec of these forms raises as their words do is deduced: log entry 6. -/
def Obligations.ReservedPairsRaise : Prop :=
  (∀ (s : State) (d : PortWord) (rest : List Transaction) (r ra rb : Reg) (w : CmdWord), s.resetLine = false →
    s.pending = ⟨w, d⟩ :: rest → (w = cmdU 0x45 r r ∨ w = cmdU 0x46 r r ∨ w = cmdQ 0x60 r ra rb r) →
    FaultsWith (step s) s .illegalCommand) ∧
  (∀ (s : State) (r ra rb : Reg), FaultsWith (exec (.pinc r r) s) s .illegalCommand ∧
    FaultsWith (exec (.pdec r r) s) s .illegalCommand ∧
    FaultsWith (exec (.divmod r r ra rb) s) s .illegalCommand) ∧
  ∀ rd ra rb re : Reg, (rd ≠ ra → decode (cmdU 0x45 rd ra) = .ok (.pinc rd ra) ∧
    decode (cmdU 0x46 rd ra) = .ok (.pdec rd ra)) ∧
    (rd ≠ re → decode (cmdQ 0x60 rd ra rb re) = .ok (.divmod rd re ra rb))

/-- STR with a base outside 2 to 36 raises IllegalCommand; every minlen and every RDSC index is legal (R68). That
exec of this form raises as its word does is deduced: log entry 6. -/
def Obligations.ReservedBaseRaises : Prop :=
  ∀ (ra : Reg) (base : BitVec 6) (minlen : BitVec 10) (idx : BitVec 16),
    ((base.toNat < 2 ∨ 36 < base.toNat) →
      (∀ (s : State) (d : PortWord) (rest : List Transaction), s.resetLine = false →
        s.pending = ⟨cmdS 0x70 ra base minlen, d⟩ :: rest → FaultsWith (step s) s .illegalCommand) ∧
      ∀ s : State, FaultsWith (exec (.str ra base minlen) s) s .illegalCommand) ∧
    (2 ≤ base.toNat → base.toNat ≤ 36 → decode (cmdS 0x70 ra base minlen) = .ok (.str ra base minlen)) ∧
    decode (cmdX 0x72 idx) = .ok (.rdsc idx)

/-- An illegal divide word raises IllegalCommand even when its divisor is zero (R214). -/
def Obligations.IllegalCommandBeatsDivideByZero : Prop :=
  ∀ (s : State) (d : PortWord) (rest : List Transaction) (rd re ra rb : Reg) (low : BitVec 12)
    (low8 : BitVec 8) (w : CmdWord),
    s.resetLine = false → s.pending = ⟨w, d⟩ :: rest → s.reg rb = Value.zero →
    (w = cmdQ 0x60 rd ra rb rd ∨
      (low8 ≠ 0#8 ∧ w = cmdWord 0x60 rd ra (rb.val * 2 ^ 12 + re.val * 2 ^ 8 + low8.toNat)) ∨ (low ≠ 0#12 ∧
      (w = cmdWord 0x61 rd ra (rb.val * 2 ^ 12 + low.toNat) ∨
        w = cmdWord 0x62 rd ra (rb.val * 2 ^ 12 + low.toNat)))) →
    FaultsWith (step s) s .illegalCommand ∧
      ∃ t, step s = .next t ∧ t.status.dz = s.status.dz ∧ t.status.ill = true

/-- CLR, MOV and LDP (R100, R101, R104). -/
def Obligations.ClearMoveAndFullLoad : Prop :=
  ∀ (s : State) (rd ra : Reg),
    decode (cmdD 0x01 rd) = .ok (.clr rd) ∧ WritesOnly (exec (.clr rd) s) s rd 0 ∧
    decode (cmdU 0x02 rd ra) = .ok (.mov rd ra) ∧ WritesOnly (exec (.mov rd ra) s) s rd (s.reg ra).toNat ∧
    decode (cmdD 0x05 rd) = .ok (.ldp rd) ∧ WritesOnly (exec (.ldp rd) s) s rd s.wdata.toNat

/-- LDZ.w writes the low w bits of wdata, zero-extended (R102). -/
def Obligations.LdzZeroExtends : Prop :=
  ∀ (s : State) (rd : Reg),
    decode (cmdL 0x03 rd 0) = .ok (.ldz8 rd) ∧
    WritesOnly (exec (.ldz8 rd) s) s rd (s.wdata.toNat % 2 ^ 8) ∧
    decode (cmdL 0x03 rd 1) = .ok (.ldz16 rd) ∧
    WritesOnly (exec (.ldz16 rd) s) s rd (s.wdata.toNat % 2 ^ 16) ∧
    decode (cmdL 0x03 rd 2) = .ok (.ldz32 rd) ∧
    WritesOnly (exec (.ldz32 rd) s) s rd (s.wdata.toNat % 2 ^ 32) ∧
    decode (cmdL 0x03 rd 3) = .ok (.ldz64 rd) ∧
    WritesOnly (exec (.ldz64 rd) s) s rd (s.wdata.toNat % 2 ^ 64) ∧
    decode (cmdL 0x03 rd 4) = .ok (.ldz128 rd) ∧
    WritesOnly (exec (.ldz128 rd) s) s rd (s.wdata.toNat % 2 ^ 128)

/-- LDS.w writes the low w bits of wdata, sign-extended to 256 bits (R103). -/
def Obligations.LdsSignExtends : Prop :=
  ∀ (s : State) (rd : Reg) (k : Nat),
    decode (cmdL 0x04 rd 0) = .ok (.lds8 rd) ∧ (k = s.wdata.toNat % 2 ^ 8 →
      WritesOnly (exec (.lds8 rd) s) s rd (if k < 2 ^ 7 then k else k + 2 ^ 256 - 2 ^ 8)) ∧
    decode (cmdL 0x04 rd 1) = .ok (.lds16 rd) ∧ (k = s.wdata.toNat % 2 ^ 16 →
      WritesOnly (exec (.lds16 rd) s) s rd (if k < 2 ^ 15 then k else k + 2 ^ 256 - 2 ^ 16)) ∧
    decode (cmdL 0x04 rd 2) = .ok (.lds32 rd) ∧ (k = s.wdata.toNat % 2 ^ 32 →
      WritesOnly (exec (.lds32 rd) s) s rd (if k < 2 ^ 31 then k else k + 2 ^ 256 - 2 ^ 32)) ∧
    decode (cmdL 0x04 rd 3) = .ok (.lds64 rd) ∧ (k = s.wdata.toNat % 2 ^ 64 →
      WritesOnly (exec (.lds64 rd) s) s rd (if k < 2 ^ 63 then k else k + 2 ^ 256 - 2 ^ 64)) ∧
    decode (cmdL 0x04 rd 4) = .ok (.lds128 rd) ∧ (k = s.wdata.toNat % 2 ^ 128 →
      WritesOnly (exec (.lds128 rd) s) s rd (if k < 2 ^ 127 then k else k + 2 ^ 256 - 2 ^ 128))

/-- RD.w answers the value modulo 2^w and writes nothing (R106). -/
def Obligations.NarrowReadsTruncate : Prop :=
  ∀ (s : State) (ra : Reg),
    decode (cmdG 0x06 ra 0) = .ok (.rd8 ra) ∧
    AnswersOnly (exec (.rd8 ra) s) s ((s.reg ra).toNat % 2 ^ 8) ∧
    decode (cmdG 0x06 ra 1) = .ok (.rd16 ra) ∧
    AnswersOnly (exec (.rd16 ra) s) s ((s.reg ra).toNat % 2 ^ 16) ∧
    decode (cmdG 0x06 ra 2) = .ok (.rd32 ra) ∧
    AnswersOnly (exec (.rd32 ra) s) s ((s.reg ra).toNat % 2 ^ 32) ∧
    decode (cmdG 0x06 ra 3) = .ok (.rd64 ra) ∧
    AnswersOnly (exec (.rd64 ra) s) s ((s.reg ra).toNat % 2 ^ 64) ∧
    decode (cmdG 0x06 ra 4) = .ok (.rd128 ra) ∧
    AnswersOnly (exec (.rd128 ra) s) s ((s.reg ra).toNat % 2 ^ 128)

/-- RDU answers the upper limb, RDV the whole value, and neither writes anything (R107, R108). -/
def Obligations.ReadUpperAndWholeValue : Prop :=
  ∀ (s : State) (ra : Reg),
    decode (cmdA 0x07 ra) = .ok (.rdu ra) ∧ AnswersOnly (exec (.rdu ra) s) s ((s.reg ra).toNat / 2 ^ 128) ∧
    decode (cmdA 0x08 ra) = .ok (.rdv ra) ∧ AnswersOnly (exec (.rdv ra) s) s (s.reg ra).toNat

/-- BOOL writes 1 for a nonzero value and 0 for zero (R109). -/
def Obligations.BoolIsNonzeroTest : Prop :=
  ∀ (s : State) (rd ra : Reg), decode (cmdU 0x09 rd ra) = .ok (.bool rd ra) ∧
    WritesOnly (exec (.bool rd ra) s) s rd (if (s.reg ra).toNat = 0 then 0 else 1)

/-- BITS writes the bit-length: 0 for 0, otherwise the n with 2^(n-1) <= v < 2^n (R110, R111). -/
def Obligations.BitsIsBitLength : Prop :=
  ∀ (s : State) (rd ra : Reg), decode (cmdU 0x0A rd ra) = .ok (.bits rd ra) ∧
    ∃ n ≤ 256, WritesOnly (exec (.bits rd ra) s) s rd n ∧ (n = 0 ↔ (s.reg ra).toNat = 0) ∧
      ((s.reg ra).toNat ≠ 0 → 2 ^ (n - 1) ≤ (s.reg ra).toNat ∧ (s.reg ra).toNat < 2 ^ n) ∧
      n = if (s.reg ra).upper ≠ 0#128 then 128 + bits128 (s.reg ra).upper else bits128 (s.reg ra).lower

/-- LDP with u * 2^128 + l, and with four 64-bit quarters, builds the named limbs (R105). -/
def Obligations.PairAndFourWayConstruction : Prop :=
  (∀ (s : State) (rd : Reg) (u l : Limb), s.wdata = BitVec.ofNat 256 (u.toNat * 2 ^ 128 + l.toNat) →
    ∃ t, exec (.ldp rd) s = .next t ∧ t.reg rd = ⟨u, l⟩) ∧
  ∀ (s : State) (rd : Reg) (a b c d : BitVec 64),
    s.wdata = BitVec.ofNat 256 (a.toNat * 2 ^ 192 + b.toNat * 2 ^ 128 + c.toNat * 2 ^ 64 + d.toNat) →
    ∃ t, exec (.ldp rd) s = .next t ∧ (t.reg rd).upper.toNat = a.toNat * 2 ^ 64 + b.toNat ∧
      (t.reg rd).lower.toNat = c.toNat * 2 ^ 64 + d.toNat

/-- RDL, LI, LD2, LD4 and STRD expand to commands that do what each names (R73). -/
def Obligations.PseudoInstructionsDoWhatTheyName : Prop :=
  ∀ (s : State) (r : Reg) (k u l : Limb) (a b c d : BitVec 64),
    (Pseudo.rdl r).expand.1 = .rd128 r ∧ AnswersOnly (exec (Pseudo.rdl r).expand.1 s) s (s.reg r).lower.toNat ∧
    (Pseudo.li r k).expand.1 = .ldz128 r ∧ (s.wdata = (Pseudo.li r k).expand.2 →
      WritesOnly (exec (Pseudo.li r k).expand.1 s) s r k.toNat) ∧
    (Pseudo.ld2 r u l).expand.1 = .ldp r ∧ (s.wdata = (Pseudo.ld2 r u l).expand.2 →
      WritesOnly (exec (Pseudo.ld2 r u l).expand.1 s) s r (u.toNat * 2 ^ 128 + l.toNat)) ∧
    (Pseudo.ld4 r a b c d).expand.1 = .ldp r ∧ (s.wdata = (Pseudo.ld4 r a b c d).expand.2 →
      WritesOnly (exec (Pseudo.ld4 r a b c d).expand.1 s) s r
        (a.toNat * 2 ^ 192 + b.toNat * 2 ^ 128 + c.toNat * 2 ^ 64 + d.toNat)) ∧
    (Pseudo.strd r).expand.1 = .str r 10#6 0#10 ∧ ∃ t, exec (Pseudo.strd r).expand.1 s = .next t ∧
      parseDigits 10 t.str = (s.reg r).toNat

/-- AND, OR, XOR, NOT and the immediate forms (R121, R122, R123, R124). -/
def Obligations.BitwiseCommands : Prop :=
  ∀ (s : State) (rd ra rb : Reg) (imm : BitVec 16),
    decode (cmdR 0x10 rd ra rb) = .ok (.and rd ra rb) ∧ decode (cmdI 0x90 rd ra imm) = .ok (.andi rd ra imm) ∧
    WritesOnly (exec (.and rd ra rb) s) s rd ((s.reg ra).toNat &&& (s.reg rb).toNat) ∧
    WritesOnly (exec (.andi rd ra imm) s) s rd ((s.reg ra).toNat &&& imm.toNat) ∧
    decode (cmdR 0x11 rd ra rb) = .ok (.or rd ra rb) ∧ decode (cmdI 0x91 rd ra imm) = .ok (.ori rd ra imm) ∧
    WritesOnly (exec (.or rd ra rb) s) s rd ((s.reg ra).toNat ||| (s.reg rb).toNat) ∧
    WritesOnly (exec (.ori rd ra imm) s) s rd ((s.reg ra).toNat ||| imm.toNat) ∧
    decode (cmdR 0x12 rd ra rb) = .ok (.xor rd ra rb) ∧ decode (cmdI 0x92 rd ra imm) = .ok (.xori rd ra imm) ∧
    WritesOnly (exec (.xor rd ra rb) s) s rd ((s.reg ra).toNat ^^^ (s.reg rb).toNat) ∧
    WritesOnly (exec (.xori rd ra imm) s) s rd ((s.reg ra).toNat ^^^ imm.toNat) ∧
    decode (cmdU 0x13 rd ra) = .ok (.not rd ra) ∧
    WritesOnly (exec (.not rd ra) s) s rd (2 ^ 256 - 1 - (s.reg ra).toNat)

/-- ANDI clears the upper limb; ORI and XORI keep it (R125). -/
def Obligations.NarrowOperandSuppliesNoUpperBits : Prop :=
  ∀ (s : State) (rd ra rb : Reg) (imm : BitVec 16), ∃ t u v,
    exec (.andi rd ra imm) s = .next t ∧ (t.reg rd).upper = 0#128 ∧
    exec (.ori rd ra imm) s = .next u ∧ (u.reg rd).upper = (s.reg ra).upper ∧
    exec (.xori rd ra imm) s = .next v ∧ (v.reg rd).upper = (s.reg ra).upper ∧
    ((s.reg rb).upper = 0#128 → ∃ t' u' v',
      exec (.and rd ra rb) s = .next t' ∧ (t'.reg rd).upper = 0#128 ∧
      exec (.or rd ra rb) s = .next u' ∧ (u'.reg rd).upper = (s.reg ra).upper ∧
      exec (.xor rd ra rb) s = .next v' ∧ (v'.reg rd).upper = (s.reg ra).upper)

/-- SHL and SHLI write A * 2^n mod 2^256, n the whole unsigned amount (R132, R134). -/
def Obligations.ShiftLeftCommands : Prop :=
  ∀ (s : State) (rd ra rb : Reg) (imm : BitVec 16),
    decode (cmdR 0x20 rd ra rb) = .ok (.shl rd ra rb) ∧ decode (cmdI 0xA0 rd ra imm) = .ok (.shli rd ra imm) ∧
    WritesOnly (exec (.shl rd ra rb) s) s rd ((s.reg ra).toNat * 2 ^ (s.reg rb).toNat % 2 ^ 256) ∧
    WritesOnly (exec (.shli rd ra imm) s) s rd ((s.reg ra).toNat * 2 ^ imm.toNat % 2 ^ 256) ∧
    (256 ≤ (s.reg rb).toNat → WritesOnly (exec (.shl rd ra rb) s) s rd 0) ∧
    ∃ t u v x, exec (.shli rd ra 128#16) s = .next t ∧ t.reg rd = ⟨(s.reg ra).lower, 0#128⟩ ∧
      exec (.shli rd ra 129#16) s = .next u ∧ u.reg rd = ⟨(s.reg ra).lower <<< 1, 0#128⟩ ∧
      exec (.shli rd ra 127#16) s = .next v ∧
      v.reg rd = ⟨(s.reg ra).upper <<< 127 ||| (s.reg ra).lower >>> 1, (s.reg ra).lower <<< 127⟩ ∧
      exec (.shli rd ra 255#16) s = .next x ∧ (x.reg rd).upper.toNat = (s.reg ra).lower.toNat % 2 * 2 ^ 127 ∧
      (x.reg rd).lower = 0#128

/-- SHR and SHRI write floor(A / 2^n), n the whole unsigned amount (R135). -/
def Obligations.ShiftRightCommands : Prop :=
  ∀ (s : State) (rd ra rb : Reg) (imm : BitVec 16),
    decode (cmdR 0x21 rd ra rb) = .ok (.shr rd ra rb) ∧ decode (cmdI 0xA1 rd ra imm) = .ok (.shri rd ra imm) ∧
    WritesOnly (exec (.shr rd ra rb) s) s rd ((s.reg ra).toNat / 2 ^ (s.reg rb).toNat) ∧
    WritesOnly (exec (.shri rd ra imm) s) s rd ((s.reg ra).toNat / 2 ^ imm.toNat) ∧
    (256 ≤ (s.reg rb).toNat → WritesOnly (exec (.shr rd ra rb) s) s rd 0) ∧
    ∃ t u v x, exec (.shri rd ra 128#16) s = .next t ∧ t.reg rd = ⟨0#128, (s.reg ra).upper⟩ ∧
      exec (.shri rd ra 129#16) s = .next u ∧ u.reg rd = ⟨0#128, (s.reg ra).upper >>> 1⟩ ∧
      exec (.shri rd ra 127#16) s = .next v ∧
      v.reg rd = ⟨(s.reg ra).upper >>> 127, (s.reg ra).lower >>> 127 ||| (s.reg ra).upper <<< 1⟩ ∧
      exec (.shri rd ra 255#16) s = .next x ∧ (x.reg rd).toNat = (s.reg ra).toNat / 2 ^ 255

/-- (a << n) >> n is a with its top n bits cleared, for n in 0 to 255 (R136). -/
def Obligations.ShiftLeftThenRightClearsTop : Prop :=
  (∀ (s : State) (rd ra : Reg) (imm : BitVec 16), imm.toNat ≤ 255 →
    ∃ t u, exec (.shli rd ra imm) s = .next t ∧ exec (.shri rd rd imm) t = .next u ∧
      (u.reg rd).toNat = (s.reg ra).toNat % 2 ^ (256 - imm.toNat)) ∧
  ∀ (s : State) (rd ra rb : Reg), rd ≠ rb → (s.reg rb).toNat ≤ 255 →
    ∃ t u, exec (.shl rd ra rb) s = .next t ∧ exec (.shr rd rd rb) t = .next u ∧
      (u.reg rd).toNat = (s.reg ra).toNat % 2 ^ (256 - (s.reg rb).toNat)

/-- EQ, NE, LT, GT, LE, GE and the immediate forms compare unsigned integers (R143, R144, R145, R146, R147, R148). -/
def Obligations.CompareCommands : Prop :=
  ∀ (s : State) (rd ra rb : Reg) (imm : BitVec 16),
    decode (cmdR 0x30 rd ra rb) = .ok (.eq rd ra rb) ∧ decode (cmdI 0xB0 rd ra imm) = .ok (.eqi rd ra imm) ∧
    WritesOnly (exec (.eq rd ra rb) s) s rd (if (s.reg ra).toNat = (s.reg rb).toNat then 1 else 0) ∧
    WritesOnly (exec (.eqi rd ra imm) s) s rd (if (s.reg ra).toNat = imm.toNat then 1 else 0) ∧
    decode (cmdR 0x31 rd ra rb) = .ok (.ne rd ra rb) ∧ decode (cmdI 0xB1 rd ra imm) = .ok (.nei rd ra imm) ∧
    WritesOnly (exec (.ne rd ra rb) s) s rd (if (s.reg ra).toNat ≠ (s.reg rb).toNat then 1 else 0) ∧
    WritesOnly (exec (.nei rd ra imm) s) s rd (if (s.reg ra).toNat ≠ imm.toNat then 1 else 0) ∧
    decode (cmdR 0x32 rd ra rb) = .ok (.lt rd ra rb) ∧ decode (cmdI 0xB2 rd ra imm) = .ok (.lti rd ra imm) ∧
    WritesOnly (exec (.lt rd ra rb) s) s rd (if (s.reg ra).toNat < (s.reg rb).toNat then 1 else 0) ∧
    WritesOnly (exec (.lti rd ra imm) s) s rd (if (s.reg ra).toNat < imm.toNat then 1 else 0) ∧
    decode (cmdR 0x33 rd ra rb) = .ok (.gt rd ra rb) ∧ decode (cmdI 0xB3 rd ra imm) = .ok (.gti rd ra imm) ∧
    WritesOnly (exec (.gt rd ra rb) s) s rd (if (s.reg ra).toNat > (s.reg rb).toNat then 1 else 0) ∧
    WritesOnly (exec (.gti rd ra imm) s) s rd (if (s.reg ra).toNat > imm.toNat then 1 else 0) ∧
    decode (cmdR 0x34 rd ra rb) = .ok (.le rd ra rb) ∧ decode (cmdI 0xB4 rd ra imm) = .ok (.lei rd ra imm) ∧
    WritesOnly (exec (.le rd ra rb) s) s rd (if (s.reg ra).toNat ≤ (s.reg rb).toNat then 1 else 0) ∧
    WritesOnly (exec (.lei rd ra imm) s) s rd (if (s.reg ra).toNat ≤ imm.toNat then 1 else 0) ∧
    decode (cmdR 0x35 rd ra rb) = .ok (.ge rd ra rb) ∧ decode (cmdI 0xB5 rd ra imm) = .ok (.gei rd ra imm) ∧
    WritesOnly (exec (.ge rd ra rb) s) s rd (if (s.reg ra).toNat ≥ (s.reg rb).toNat then 1 else 0) ∧
    WritesOnly (exec (.gei rd ra imm) s) s rd (if (s.reg ra).toNat ≥ imm.toNat then 1 else 0)

/-- Exactly one of a < b, a == b, a > b holds, and the other comparisons follow from them (R149). -/
def Obligations.ComparisonTotality : Prop :=
  ∀ a b : Value,
    ((lt256 a b = true ∧ eq256 a b = false ∧ gt256 a b = false) ∨
      (lt256 a b = false ∧ eq256 a b = true ∧ gt256 a b = false) ∨
      (lt256 a b = false ∧ eq256 a b = false ∧ gt256 a b = true)) ∧
    ne256 a b = (!eq256 a b) ∧ le256 a b = (!gt256 a b) ∧ ge256 a b = (!lt256 a b) ∧ gt256 a b = lt256 b a ∧
    (∀ imm : BitVec 16, (immOperand imm).upper = 0#128 ∧ (immOperand imm).lower = imm.setWidth 128)

/-- ADD and ADDI write (A + B) mod 2^256 (R154). -/
def Obligations.AddCommands : Prop :=
  ∀ (s : State) (rd ra rb : Reg) (imm : BitVec 16),
    decode (cmdR 0x40 rd ra rb) = .ok (.add rd ra rb) ∧ decode (cmdI 0xC0 rd ra imm) = .ok (.addi rd ra imm) ∧
    WritesOnly (exec (.add rd ra rb) s) s rd (((s.reg ra).toNat + (s.reg rb).toNat) % 2 ^ 256) ∧
    WritesOnly (exec (.addi rd ra imm) s) s rd (((s.reg ra).toNat + imm.toNat) % 2 ^ 256)

/-- SUB and SUBI write A - B, wrapped modulo 2^256 (R155). -/
def Obligations.SubCommands : Prop :=
  ∀ (s : State) (rd ra rb : Reg) (imm : BitVec 16),
    decode (cmdR 0x41 rd ra rb) = .ok (.sub rd ra rb) ∧ decode (cmdI 0xC1 rd ra imm) = .ok (.subi rd ra imm) ∧
    WritesOnly (exec (.sub rd ra rb) s) s rd (if (s.reg rb).toNat ≤ (s.reg ra).toNat
      then (s.reg ra).toNat - (s.reg rb).toNat else (s.reg ra).toNat + 2 ^ 256 - (s.reg rb).toNat) ∧
    WritesOnly (exec (.subi rd ra imm) s) s rd (if imm.toNat ≤ (s.reg ra).toNat
      then (s.reg ra).toNat - imm.toNat else (s.reg ra).toNat + 2 ^ 256 - imm.toNat)

/-- NEG writes (2^256 - A) mod 2^256, and a + (-a) = 0 (R153, R156). -/
def Obligations.NegCommand : Prop :=
  (∀ (s : State) (rd ra : Reg), decode (cmdU 0x42 rd ra) = .ok (.neg rd ra) ∧
    WritesOnly (exec (.neg rd ra) s) s rd ((2 ^ 256 - (s.reg ra).toNat) % 2 ^ 256)) ∧
  ∀ a : Value, neg256 a = add256 (not256 a) ⟨0#128, 1#128⟩ ∧ add256 a (neg256 a) = Value.zero

/-- INC and DEC step their register by one modulo 2^256 and answer the new value (R157, R158). -/
def Obligations.IncDecCommands : Prop :=
  ∀ (s : State) (rd : Reg),
    decode (cmdD 0x43 rd) = .ok (.inc rd) ∧
    WritesOnly (exec (.inc rd) s) s rd (((s.reg rd).toNat + 1) % 2 ^ 256) ∧
    decode (cmdD 0x44 rd) = .ok (.dec rd) ∧
    WritesOnly (exec (.dec rd) s) s rd
      (if (s.reg rd).toNat = 0 then 2 ^ 256 - 1 else (s.reg rd).toNat - 1)

/-- PINC and PDEC write the snapshot to rd and rdata and the stepped value to ra (R159, R160). -/
def Obligations.PostfixCommands : Prop :=
  ∀ (s : State) (rd ra : Reg),
    (rd ≠ ra → decode (cmdU 0x45 rd ra) = .ok (.pinc rd ra) ∧ decode (cmdU 0x46 rd ra) = .ok (.pdec rd ra) ∧
      WritesBoth (exec (.pinc rd ra) s) s rd (s.reg ra).toNat ra (((s.reg ra).toNat + 1) % 2 ^ 256) ∧
      WritesBoth (exec (.pdec rd ra) s) s rd (s.reg ra).toNat ra
        (if (s.reg ra).toNat = 0 then 2 ^ 256 - 1 else (s.reg ra).toNat - 1)) ∧
    (rd = ra → ∀ (d : PortWord) (rest : List Transaction), s.resetLine = false →
      s.pending = ⟨cmdU 0x45 rd ra, d⟩ :: rest ∨ s.pending = ⟨cmdU 0x46 rd ra, d⟩ :: rest →
      FaultsWith (step s) s .illegalCommand)

/-- A host gets the carry out of an addition as LT sum, a (R161, R154, R145). -/
def Obligations.CarryOutIsSumBelowOperand : Prop :=
  ∀ (s : State) (rd ra rb rt : Reg), rd ≠ ra →
    ∃ t, exec (.add rd ra rb) s = .next t ∧
      WritesOnly (exec (.lt rt rd ra) t) t rt
        (if 2 ^ 256 ≤ (s.reg ra).toNat + (s.reg rb).toNat then 1 else 0)

/-- MUL and MULI write (A * B) mod 2^256 (R168). -/
def Obligations.MulCommands : Prop :=
  ∀ (s : State) (rd ra rb : Reg) (imm : BitVec 16),
    decode (cmdR 0x50 rd ra rb) = .ok (.mul rd ra rb) ∧ decode (cmdI 0xD0 rd ra imm) = .ok (.muli rd ra imm) ∧
    WritesOnly (exec (.mul rd ra rb) s) s rd ((s.reg ra).toNat * (s.reg rb).toNat % 2 ^ 256) ∧
    WritesOnly (exec (.muli rd ra imm) s) s rd ((s.reg ra).toNat * imm.toNat % 2 ^ 256)

/-- The 64-bit decomposition of the 128 x 128 product is the full product (R167, R8). -/
def Obligations.LimbProductDecomposes : Prop :=
  ∀ x y : Limb, mulfull128Tree x y = mulfull128 x y

/-- DIVMOD writes the quotient to rd and rdata and the remainder to re (R179). -/
def Obligations.DivmodCommand : Prop :=
  ∀ (s : State) (rd re ra rb : Reg),
    (rd ≠ re → decode (cmdQ 0x60 rd ra rb re) = .ok (.divmod rd re ra rb) ∧
      ((s.reg rb).toNat ≠ 0 → WritesBoth (exec (.divmod rd re ra rb) s) s rd
        ((s.reg ra).toNat / (s.reg rb).toNat) re ((s.reg ra).toNat % (s.reg rb).toNat)) ∧
      ((s.reg rb).toNat = 0 → FaultsWith (exec (.divmod rd re ra rb) s) s .divideByZero)) ∧
    (rd = re → ∀ (d : PortWord) (rest : List Transaction), s.resetLine = false →
      s.pending = ⟨cmdQ 0x60 rd ra rb re, d⟩ :: rest → FaultsWith (step s) s .illegalCommand)

/-- DIV, DIVI, MOD and MODI write the quotient or the remainder, and fault on a zero divisor (R180, R181). -/
def Obligations.DivAndModCommands : Prop :=
  ∀ (s : State) (rd ra rb : Reg) (imm : BitVec 16),
    decode (cmdR 0x61 rd ra rb) = .ok (.div rd ra rb) ∧ decode (cmdI 0xE1 rd ra imm) = .ok (.divi rd ra imm) ∧
    decode (cmdR 0x62 rd ra rb) = .ok (.mod rd ra rb) ∧ decode (cmdI 0xE2 rd ra imm) = .ok (.modi rd ra imm) ∧
    ((s.reg rb).toNat ≠ 0 →
      WritesOnly (exec (.div rd ra rb) s) s rd ((s.reg ra).toNat / (s.reg rb).toNat) ∧
      WritesOnly (exec (.mod rd ra rb) s) s rd ((s.reg ra).toNat % (s.reg rb).toNat)) ∧
    (imm.toNat ≠ 0 →
      WritesOnly (exec (.divi rd ra imm) s) s rd ((s.reg ra).toNat / imm.toNat) ∧
      WritesOnly (exec (.modi rd ra imm) s) s rd ((s.reg ra).toNat % imm.toNat)) ∧
    ((s.reg rb).toNat = 0 → FaultsWith (exec (.div rd ra rb) s) s .divideByZero ∧
      FaultsWith (exec (.mod rd ra rb) s) s .divideByZero) ∧
    (imm.toNat = 0 → FaultsWith (exec (.divi rd ra imm) s) s .divideByZero ∧
      FaultsWith (exec (.modi rd ra imm) s) s .divideByZero)

/-- A step that meets a division by zero changes the sticky bit and nothing else, and the block goes on (R212). -/
def Obligations.ZeroDivisorFaultIsPrecise : Prop :=
  ∀ (s : State) (t : Transaction) (rest : List Transaction) (rd re ra rb : Reg), s.resetLine = false →
    s.pending = t :: rest → rd ≠ re →
    ((s.reg rb = Value.zero ∧ (decode t.cmd = .ok (.divmod rd re ra rb) ∨ decode t.cmd = .ok (.div rd ra rb) ∨
        decode t.cmd = .ok (.mod rd ra rb))) ∨
      decode t.cmd = .ok (.divi rd ra 0#16) ∨ decode t.cmd = .ok (.modi rd ra 0#16)) →
    FaultsWith (step s) s .divideByZero ∧ (RespStatus.raised .divideByZero).code = 1#2 ∧
      ∀ (n : Transaction) (more : List Transaction) (i : Instr), rest = n :: more → decode n.cmd = .ok i →
        ∃ u, step s = .next u ∧ step u = exec i u

/-- Every path of the division engine gives the unique quotient and remainder, so the fast paths cannot be observed
(R175, R176, R177, R178). -/
def Obligations.LongDivisionMeetsItsResult : Prop :=
  ∀ lhs rhs : Value,
    (rhs.toNat = 0 → divmod256 lhs rhs = none) ∧
    (rhs.toNat ≠ 0 → ∃ q r : Value, divmod256 lhs rhs = some (q, r) ∧ divGeneral lhs rhs = (q, r) ∧
      q.toNat = lhs.toNat / rhs.toNat ∧ r.toNat = lhs.toNat % rhs.toNat ∧
      lhs.toNat = q.toNat * rhs.toNat + r.toNat ∧ r.toNat < rhs.toNat ∧
      ∀ q' r' : Nat, lhs.toNat = q' * rhs.toNat + r' → r' < rhs.toNat → q' = q.toNat ∧ r' = r.toNat)

/-- DIVMOD, then MUL and ADD of its results, give the dividend back (R182, R178, 95_test_vectors.md Q1). -/
def Obligations.DivisionIdentityHoldsOnTheBlock : Prop :=
  ∀ (s : State) (rd re ra rb rt : Reg), rd ≠ re → rd ≠ rb → re ≠ rb → rt ≠ re → (s.reg rb).toNat ≠ 0 →
    ∃ t u v, exec (.divmod rd re ra rb) s = .next t ∧ exec (.mul rt rd rb) t = .next u ∧
      exec (.add rt rt re) u = .next v ∧ v.reg rt = s.reg ra ∧
      (t.reg rd).toNat * (s.reg rb).toNat + (t.reg re).toNat < 2 ^ 256

/-- STR writes the base digits of the value, most significant first, padded with "0", and they read back as the
value (R190, R192, R195). -/
def Obligations.StrWritesTheDigits : Prop :=
  ∀ (s : State) (ra : Reg) (base : BitVec 6) (minlen : BitVec 10),
    (base.toNat < 2 ∨ 36 < base.toNat → ∀ (d : PortWord) (rest : List Transaction), s.resetLine = false →
      s.pending = ⟨cmdS 0x70 ra base minlen, d⟩ :: rest → FaultsWith (step s) s .illegalCommand) ∧
    (2 ≤ base.toNat → base.toNat ≤ 36 → decode (cmdS 0x70 ra base minlen) = .ok (.str ra base minlen) ∧ ∃ t n,
      exec (.str ra base minlen) s = .next t ∧
      n = (if (s.reg ra).toNat = 0 then 1 else Nat.log base.toNat (s.reg ra).toNat + 1) ∧
      t.slen = max minlen.toNat n ∧ 1 ≤ t.slen ∧ t.slen ≤ 1023 ∧
      (∀ c ∈ t.str, ∃ k < base.toNat, c = digitChar k) ∧
      (∀ k < t.slen - n, t.char k = 0x30#8) ∧
      ((s.reg ra).toNat ≠ 0 → t.char (t.slen - n) ≠ 0x30#8) ∧
      parseDigits base.toNat t.str = (s.reg ra).toNat ∧
      (∀ r, t.reg r = s.reg r) ∧ t.status = s.status ∧
      Answered s t ⟨.ok, BitVec.ofNat 256 t.slen⟩)

/-- The digit characters are '0' to '9' and 'a' to 'z' in ASCII, and each reads back as its digit (R191). -/
def Obligations.DigitCharactersAreAscii : Prop :=
  (∀ d ≤ 9, (digitChar d).toNat = 0x30 + d) ∧ (∀ d, 10 ≤ d → d ≤ 35 → (digitChar d).toNat = 0x61 + (d - 10)) ∧
  zeroChar = 0x30#8 ∧ ∀ d ≤ 35, charValue (digitChar d) = d

/-- RDSL answers SLEN; RDSC answers S[idx], 0 at and past the end (R193, R194). -/
def Obligations.StringReadCommands : Prop :=
  ∀ (s : State) (idx : BitVec 16),
    decode (cmdN 0x71) = .ok .rdsl ∧ AnswersOnly (exec .rdsl s) s s.slen ∧
    decode (cmdX 0x72 idx) = .ok (.rdsc idx) ∧
    (∀ h : idx.toNat < s.slen, AnswersOnly (exec (.rdsc idx) s) s (s.str[idx.toNat]'h).toNat) ∧
    (s.slen ≤ idx.toNat → AnswersOnly (exec (.rdsc idx) s) s 0)

/-- RDSTAT answers {ILL, DZ} and changes nothing; CLRSTAT clears both bits and answers 0 (R200, R201). -/
def Obligations.StatusCommands : Prop :=
  decode (cmdN 0x0E) = .ok .rdstat ∧ decode (cmdN 0x0F) = .ok .clrstat ∧
  ∀ s : State, AnswersOnly (exec .rdstat s) s (2 * s.status.ill.toNat + s.status.dz.toNat) ∧
    ∃ t, exec .clrstat s = .next t ∧ (∀ r, t.reg r = s.reg r) ∧ t.status.dz = false ∧ t.status.ill = false ∧
      t.str = s.str ∧ Answered s t ⟨.ok, 0#256⟩
end

