-- ==== Sys2Proof/Laws/Value.lean ====
section
/-! SUPPORT. A value as an integer and as a port word (10_state.md R20, 20_memory.md R42), and the operand
forms as integers (30_encoding.md R66, 40_construct_cast.md R102, R103). -/

namespace Sys2Proof

theorem Value.toNat_lt (v : Value) : v.toNat < 2 ^ 256 := by
  have := v.upper.isLt
  have := v.lower.isLt
  unfold Value.toNat
  omega

theorem Value.upper_toNat (v : Value) : v.upper.toNat = v.toNat / 2 ^ 128 := by
  have := v.lower.isLt
  unfold Value.toNat
  omega

theorem Value.lower_toNat (v : Value) : v.lower.toNat = v.toNat % 2 ^ 128 := by
  have := v.lower.isLt
  unfold Value.toNat
  omega

/-- Two different pairs are two different integers (R20). -/
theorem Value.toNat_inj {a b : Value} : a.toNat = b.toNat ↔ a = b := by
  refine ⟨fun h => ?_, fun h => h ▸ rfl⟩
  apply Value.ext
  · apply BitVec.eq_of_toNat_eq
    rw [a.upper_toNat, b.upper_toNat, h]
  · apply BitVec.eq_of_toNat_eq
    rw [a.lower_toNat, b.lower_toNat, h]

/-- A port carries the integer itself (R42). -/
theorem Value.toPort_toNat (v : Value) : v.toPort.toNat = v.toNat := by
  have h := v.lower.isLt
  rw [Value.toPort, BitVec.toNat_append, ← Nat.shiftLeft_add_eq_or_of_lt h, Nat.shiftLeft_eq, Value.toNat]

theorem Value.toPort_eq (v : Value) : v.toPort = BitVec.ofNat 256 v.toNat := by
  apply BitVec.eq_of_toNat_eq
  rw [v.toPort_toNat, BitVec.toNat_ofNat, Nat.mod_eq_of_lt v.toNat_lt]

theorem Value.ofPort_toNat (p : PortWord) : (Value.ofPort p).toNat = p.toNat := by
  have := p.isLt
  simp only [Value.ofPort, Value.toNat, BitVec.extractLsb'_toNat, Nat.shiftRight_eq_div_pow]
  omega

theorem Value.ofPort_toPort (v : Value) : Value.ofPort v.toPort = v :=
  Value.toNat_inj.mp ((Value.ofPort_toNat _).trans v.toPort_toNat)

theorem Value.toPort_ofPort (p : PortWord) : (Value.ofPort p).toPort = p :=
  BitVec.eq_of_toNat_eq ((Value.toPort_toNat _).trans (Value.ofPort_toNat p))

theorem Value.toPort_inj {a b : Value} : a.toPort = b.toPort ↔ a = b :=
  ⟨fun h => by rw [← a.ofPort_toPort, h, b.ofPort_toPort], fun h => h ▸ rfl⟩

theorem Value.zero_toNat : Value.zero.toNat = 0 := by decide

theorem Value.one_toNat : Value.one.toNat = 1 := by decide

theorem Value.toNat_eq_zero {v : Value} : v.toNat = 0 ↔ v = Value.zero := by
  rw [← Value.toNat_inj, Value.zero_toNat]

theorem Value.toPort_getLsbD (v : Value) (k : Nat) : v.toPort.getLsbD k = v.bit k := by
  simp only [Value.toPort, Value.bit, BitVec.getLsbD_append]

/-- Bit `k` of a value is bit `k` of the integer (00_scope.md section 5). -/
theorem Value.bit_eq_testBit (v : Value) (k : Nat) : v.bit k = v.toNat.testBit k := by
  rw [← v.toPort_getLsbD k, BitVec.getLsbD, v.toPort_toNat]

namespace Machine

theorem immOperand_toNat (imm : BitVec 16) : (immOperand imm).toNat = imm.toNat := by
  have := imm.isLt
  simp only [immOperand, Value.toNat, BitVec.toNat_setWidth, BitVec.toNat_ofNat]
  omega

theorem zext256_toNat {w : Nat} (hw : w ≤ 256) (k : BitVec w) : (zext256 k).toNat = k.toNat := by
  have h : k.toNat < 2 ^ 256 := Nat.lt_of_lt_of_le k.isLt (Nat.pow_le_pow_right (by decide) hw)
  rw [zext256, Value.ofPort_toNat, BitVec.toNat_setWidth, Nat.mod_eq_of_lt h]

/-- R103: `k` when `k[w-1] = 0`, `k + 2^256 - 2^w` when it is 1. -/
theorem sext256_toNat {w : Nat} (hw : w ≤ 256) (k : BitVec w) :
    (sext256 k).toNat = if k.msb then k.toNat + 2 ^ 256 - 2 ^ w else k.toNat := by
  have hp : 2 ^ w ≤ 2 ^ 256 := Nat.pow_le_pow_right (by decide) hw
  have hk := k.isLt
  have hlt : k.toNat < 2 ^ 256 := Nat.lt_of_lt_of_le hk hp
  rw [sext256, Value.ofPort_toNat, BitVec.toNat_signExtend, BitVec.toNat_setWidth, Nat.mod_eq_of_lt hlt]
  split
  · rw [Nat.add_sub_assoc hp]
  · simp

theorem wdataLow_toNat (s : State) (w : Nat) : (s.wdataLow w).toNat = s.wdata.toNat % 2 ^ w := by
  simp [State.wdataLow, BitVec.extractLsb'_toNat]

theorem boolValue_toNat (t : Bool) : (boolValue t).toNat = if t then 1 else 0 := by
  cases t <;> decide

/-- R106: the narrowing cast keeps the value modulo `2^w`. -/
theorem narrowRead_toNat (v : Value) (w : Nat) (hw : w ≤ 128) :
    (narrowRead v w).toNat = v.toNat % 2 ^ w := by
  have hlt : v.lower.toNat % 2 ^ w < 2 ^ 256 :=
    Nat.lt_of_le_of_lt (Nat.mod_le _ _) (Nat.lt_of_lt_of_le v.lower.isLt (by decide))
  have hd : 2 ^ w ∣ 2 ^ 128 := pow_dvd_pow 2 hw
  simp only [narrowRead, BitVec.toNat_setWidth, BitVec.extractLsb'_toNat, Nat.shiftRight_zero]
  rw [Nat.mod_eq_of_lt hlt, v.lower_toNat, Nat.mod_mod_of_dvd _ hd]

end Machine
end Sys2Proof
end

