-- ==== Sys2Proof/Laws/Bitwise.lean ====
section
/-! SUPPORT. The limb-wise functions of 41_bitwise.md R120 as operations on all 256 positions. -/

namespace Sys2Proof.Machine

theorem and256_toPort (a b : Value) : (and256 a b).toPort = a.toPort &&& b.toPort := 
  BitVec.and_append.symm

theorem or256_toPort (a b : Value) : (or256 a b).toPort = a.toPort ||| b.toPort := 
  BitVec.or_append.symm

theorem xor256_toPort (a b : Value) : (xor256 a b).toPort = a.toPort ^^^ b.toPort := 
  BitVec.xor_append.symm

theorem not256_toPort (a : Value) : (not256 a).toPort = ~~~a.toPort := 
  BitVec.not_append.symm

theorem and256_toNat (a b : Value) : (and256 a b).toNat = a.toNat &&& b.toNat := by
  rw [← Value.toPort_toNat, and256_toPort, BitVec.toNat_and, Value.toPort_toNat, Value.toPort_toNat]

theorem or256_toNat (a b : Value) : (or256 a b).toNat = a.toNat ||| b.toNat := by
  rw [← Value.toPort_toNat, or256_toPort, BitVec.toNat_or, Value.toPort_toNat, Value.toPort_toNat]

theorem xor256_toNat (a b : Value) : (xor256 a b).toNat = a.toNat ^^^ b.toNat := by
  rw [← Value.toPort_toNat, xor256_toPort, BitVec.toNat_xor, Value.toPort_toNat, Value.toPort_toNat]

/-- `~a = 2^256 - 1 - a` (R120). -/
theorem not256_toNat (a : Value) : (not256 a).toNat = 2 ^ 256 - 1 - a.toNat := by
  rw [← Value.toPort_toNat, not256_toPort, BitVec.toNat_not, Value.toPort_toNat]

end Sys2Proof.Machine
end

