-- ==== Sys2Proof/Laws/Additive.lean ====
section
/-! SUPPORT. The two-limb adder and subtracter are exact modulo `2^256` (44_additive.md R151 to R153). -/

namespace Sys2Proof.Machine

/-- The carry test: the lower sum is below `a.lower` exactly when the lower addition wrapped (R5). -/
theorem add128_wraps_iff (a b : Limb) : lt128 (add128 a b) a = true ↔ 2 ^ 128 ≤ a.toNat + b.toNat := by
  have := a.isLt
  have := b.isLt
  simp only [lt128, add128, BitVec.ult_eq_decide, BitVec.toNat_add, decide_eq_true_eq]
  omega

/-- The borrow test: the lower difference is above `a.lower` exactly when `a < b` (R6). -/
theorem sub128_wraps_iff (a b : Limb) : gt128 (sub128 a b) a = true ↔ a.toNat < b.toNat := by
  have := a.isLt
  have := b.isLt
  simp only [gt128, sub128, BitVec.ult_eq_decide, BitVec.toNat_sub, decide_eq_true_eq]
  omega

theorem carryLimb_toNat (c : Bool) : (carryLimb c).toNat = if c then 1 else 0 := by
  cases c <;> decide

/-- R151. -/
theorem add256_toNat (a b : Value) : (add256 a b).toNat = (a.toNat + b.toNat) % 2 ^ 256 := by
  have hal := a.lower.isLt
  have hbl := b.lower.isLt
  have hau := a.upper.isLt
  have hbu := b.upper.isLt
  have hc := add128_wraps_iff a.lower b.lower
  simp only [add256, Value.toNat]
  by_cases h : lt128 (add128 a.lower b.lower) a.lower = true
  · rw [h, show carryLimb true = 1#128 from rfl]
    have := hc.mp h
    simp only [add128, BitVec.toNat_add]
    simp
    omega
  · have := mt hc.mpr h
    rw [Bool.not_eq_true] at h
    rw [h, show carryLimb false = 0#128 from rfl]
    simp only [add128, BitVec.toNat_add]
    simp
    omega

/-- R152: the closed form. -/
theorem sub256_toNat (a b : Value) : (sub256 a b).toNat = (a.toNat + (2 ^ 256 - b.toNat)) % 2 ^ 256 := by
  have hal := a.lower.isLt
  have hbl := b.lower.isLt
  have hau := a.upper.isLt
  have hbu := b.upper.isLt
  have hc := sub128_wraps_iff a.lower b.lower
  simp only [sub256, Value.toNat]
  by_cases h : gt128 (sub128 a.lower b.lower) a.lower = true
  · rw [h, show carryLimb true = 1#128 from rfl]
    have := hc.mp h
    simp only [sub128, BitVec.toNat_sub]
    simp
    omega
  · have := mt hc.mpr h
    rw [Bool.not_eq_true] at h
    rw [h, show carryLimb false = 0#128 from rfl]
    simp only [sub128, BitVec.toNat_sub]
    simp
    omega

/-- R153: `(2^256 - a) mod 2^256`. -/
theorem neg256_toNat (a : Value) : (neg256 a).toNat = (2 ^ 256 - a.toNat) % 2 ^ 256 := by
  have := a.toNat_lt
  rw [neg256, add256_toNat, not256_toNat, Value.one_toNat]
  omega

end Sys2Proof.Machine
end

