-- ==== Sys2Proof/Machine/Assembler.lean ====
section
/-! DEFINITION. Reading the written form of a command (30_encoding.md R72, R73), with the pairings an
assembler rejects (70_reset_and_hazards.md R235): from a line of text to the transactions a host presents. Not seen
by `step`. -/

namespace Sys2Proof.Machine

/-- An operand as written: a register name or a number. -/
inductive AsmOperand where
  | reg (r : Reg)
  | num (n : Nat)
  deriving DecidableEq, Repr

/-- A blank between tokens. -/
def isBlank (c : Char) : Bool := c == ' ' || c == '\t' || c == '\r'

/-- Without the blanks at both ends. -/
def trimBlanks (cs : List Char) : List Char := ((cs.dropWhile isBlank).reverse.dropWhile isBlank).reverse

/-- `#` starts a comment, and mnemonics and register names are case-insensitive (R72). DESIGN CHOICE, safe
(log 12): R72 does not say whether numbers are; the whole line is lowered, so `0X` starts a hexadecimal number as
`0x` does, and hexadecimal digits are read in either case. -/
def cleanLine (cs : List Char) : List Char := trimBlanks ((cs.takeWhile (· != '#')).map Char.toLower)

/-- The pieces between the separators. -/
def splitAtChar (sep : Char) : List Char → List (List Char)
  | [] => [[]]
  | c :: cs =>
    if c == sep then [] :: splitAtChar sep cs
    else match splitAtChar sep cs with
      | [] => [[c]]
      | p :: ps => (c :: p) :: ps

/-- The value of one digit in a base up to 16. -/
def digitOf (base : Nat) (c : Char) : Option Nat :=
  let d := if c.isDigit then c.toNat - 48 else c.toNat - 97 + 10
  if (c.isDigit || ('a' ≤ c && c ≤ 'f')) && d < base then some d else none

/-- Digits, most significant first; at least one. -/
def readDigits (base : Nat) : List Char → Option Nat
  | [] => none
  | c :: cs => (c :: cs).foldl (fun acc c => acc.bind fun n => (digitOf base c).map fun d => n * base + d) (some 0)

/-- "Numbers are decimal, or hexadecimal with `0x`" (R72), on a lowered line; leading zeros change nothing
(log 12). -/
def readNumber : List Char → Option Nat
  | '0' :: 'x' :: cs => readDigits 16 cs
  | cs => readDigits 10 cs

/-- An operand: `x0` to `x15`, or a number. -/
def readOperand (cs : List Char) : Option AsmOperand :=
  match (List.finRange 16).find? fun r => (regText r).toList == cs with
  | some r => some (.reg r)
  | none => (readNumber cs).map .num

/-- The operands after the mnemonic, separated by commas; none where nothing follows it. -/
def readOperands (cs : List Char) : Option (List AsmOperand) :=
  if cs.isEmpty then some [] else (splitAtChar ',' cs).mapM fun p => readOperand (trimBlanks p)

/-- A number that fits a field of `w` bits; a larger one is not a command (log 12). -/
def field (w k : Nat) : Option (BitVec w) := if k < 2 ^ w then some (BitVec.ofNat w k) else none

/-- A load with its `wdata` (R72). -/
def withWdata (i : Instr) (k : Nat) : Option (Instr × PortWord) := (field 256 k).map fun d => (i, d)

/-- A mnemonic with its operands: the 66 commands of R62 and the five pseudo-instructions of R73. "For every
command that is not a load the assembler presents `wdata = 0`" (R72). -/
def writtenCommand (mnemonic : String) (ops : List AsmOperand) : Option (Instr × PortWord) :=
  match mnemonic, ops with
  | "clr", [.reg rd] => some (.clr rd, 0#256)
  | "mov", [.reg rd, .reg ra] => some (.mov rd ra, 0#256)
  | "ldz.8", [.reg rd, .num k] => withWdata (.ldz8 rd) k
  | "ldz.16", [.reg rd, .num k] => withWdata (.ldz16 rd) k
  | "ldz.32", [.reg rd, .num k] => withWdata (.ldz32 rd) k
  | "ldz.64", [.reg rd, .num k] => withWdata (.ldz64 rd) k
  | "ldz.128", [.reg rd, .num k] => withWdata (.ldz128 rd) k
  | "lds.8", [.reg rd, .num k] => withWdata (.lds8 rd) k
  | "lds.16", [.reg rd, .num k] => withWdata (.lds16 rd) k
  | "lds.32", [.reg rd, .num k] => withWdata (.lds32 rd) k
  | "lds.64", [.reg rd, .num k] => withWdata (.lds64 rd) k
  | "lds.128", [.reg rd, .num k] => withWdata (.lds128 rd) k
  | "ldp", [.reg rd, .num k] => withWdata (.ldp rd) k
  | "rd.8", [.reg ra] => some (.rd8 ra, 0#256)
  | "rd.16", [.reg ra] => some (.rd16 ra, 0#256)
  | "rd.32", [.reg ra] => some (.rd32 ra, 0#256)
  | "rd.64", [.reg ra] => some (.rd64 ra, 0#256)
  | "rd.128", [.reg ra] => some (.rd128 ra, 0#256)
  | "rdu", [.reg ra] => some (.rdu ra, 0#256)
  | "rdv", [.reg ra] => some (.rdv ra, 0#256)
  | "bool", [.reg rd, .reg ra] => some (.bool rd ra, 0#256)
  | "bits", [.reg rd, .reg ra] => some (.bits rd ra, 0#256)
  | "rdstat", [] => some (.rdstat, 0#256)
  | "clrstat", [] => some (.clrstat, 0#256)
  | "and", [.reg rd, .reg ra, .reg rb] => some (.and rd ra rb, 0#256)
  | "or", [.reg rd, .reg ra, .reg rb] => some (.or rd ra rb, 0#256)
  | "xor", [.reg rd, .reg ra, .reg rb] => some (.xor rd ra rb, 0#256)
  | "not", [.reg rd, .reg ra] => some (.not rd ra, 0#256)
  | "shl", [.reg rd, .reg ra, .reg rb] => some (.shl rd ra rb, 0#256)
  | "shr", [.reg rd, .reg ra, .reg rb] => some (.shr rd ra rb, 0#256)
  | "eq", [.reg rd, .reg ra, .reg rb] => some (.eq rd ra rb, 0#256)
  | "ne", [.reg rd, .reg ra, .reg rb] => some (.ne rd ra rb, 0#256)
  | "lt", [.reg rd, .reg ra, .reg rb] => some (.lt rd ra rb, 0#256)
  | "gt", [.reg rd, .reg ra, .reg rb] => some (.gt rd ra rb, 0#256)
  | "le", [.reg rd, .reg ra, .reg rb] => some (.le rd ra rb, 0#256)
  | "ge", [.reg rd, .reg ra, .reg rb] => some (.ge rd ra rb, 0#256)
  | "add", [.reg rd, .reg ra, .reg rb] => some (.add rd ra rb, 0#256)
  | "sub", [.reg rd, .reg ra, .reg rb] => some (.sub rd ra rb, 0#256)
  | "neg", [.reg rd, .reg ra] => some (.neg rd ra, 0#256)
  | "inc", [.reg rd] => some (.inc rd, 0#256)
  | "dec", [.reg rd] => some (.dec rd, 0#256)
  | "pinc", [.reg rd, .reg ra] => some (.pinc rd ra, 0#256)
  | "pdec", [.reg rd, .reg ra] => some (.pdec rd ra, 0#256)
  | "mul", [.reg rd, .reg ra, .reg rb] => some (.mul rd ra rb, 0#256)
  | "divmod", [.reg rd, .reg re, .reg ra, .reg rb] => some (.divmod rd re ra rb, 0#256)
  | "div", [.reg rd, .reg ra, .reg rb] => some (.div rd ra rb, 0#256)
  | "mod", [.reg rd, .reg ra, .reg rb] => some (.mod rd ra rb, 0#256)
  | "str", [.reg ra, .num b, .num m] =>
    (field 6 b).bind fun base => (field 10 m).map fun minlen => (.str ra base minlen, 0#256)
  | "rdsl", [] => some (.rdsl, 0#256)
  | "rdsc", [.num k] => (field 16 k).map fun idx => (.rdsc idx, 0#256)
  | "andi", [.reg rd, .reg ra, .num k] => (field 16 k).map fun imm => (.andi rd ra imm, 0#256)
  | "ori", [.reg rd, .reg ra, .num k] => (field 16 k).map fun imm => (.ori rd ra imm, 0#256)
  | "xori", [.reg rd, .reg ra, .num k] => (field 16 k).map fun imm => (.xori rd ra imm, 0#256)
  | "shli", [.reg rd, .reg ra, .num k] => (field 16 k).map fun imm => (.shli rd ra imm, 0#256)
  | "shri", [.reg rd, .reg ra, .num k] => (field 16 k).map fun imm => (.shri rd ra imm, 0#256)
  | "eqi", [.reg rd, .reg ra, .num k] => (field 16 k).map fun imm => (.eqi rd ra imm, 0#256)
  | "nei", [.reg rd, .reg ra, .num k] => (field 16 k).map fun imm => (.nei rd ra imm, 0#256)
  | "lti", [.reg rd, .reg ra, .num k] => (field 16 k).map fun imm => (.lti rd ra imm, 0#256)
  | "gti", [.reg rd, .reg ra, .num k] => (field 16 k).map fun imm => (.gti rd ra imm, 0#256)
  | "lei", [.reg rd, .reg ra, .num k] => (field 16 k).map fun imm => (.lei rd ra imm, 0#256)
  | "gei", [.reg rd, .reg ra, .num k] => (field 16 k).map fun imm => (.gei rd ra imm, 0#256)
  | "addi", [.reg rd, .reg ra, .num k] => (field 16 k).map fun imm => (.addi rd ra imm, 0#256)
  | "subi", [.reg rd, .reg ra, .num k] => (field 16 k).map fun imm => (.subi rd ra imm, 0#256)
  | "muli", [.reg rd, .reg ra, .num k] => (field 16 k).map fun imm => (.muli rd ra imm, 0#256)
  | "divi", [.reg rd, .reg ra, .num k] => (field 16 k).map fun imm => (.divi rd ra imm, 0#256)
  | "modi", [.reg rd, .reg ra, .num k] => (field 16 k).map fun imm => (.modi rd ra imm, 0#256)
  | "rdl", [.reg ra] => some (Pseudo.rdl ra).expand
  | "li", [.reg rd, .num k] => (field 128 k).map fun v => (Pseudo.li rd v).expand
  | "ld2", [.reg rd, .num u, .num l] =>
    (field 128 u).bind fun u => (field 128 l).map fun l => (Pseudo.ld2 rd u l).expand
  | "ld4", [.reg rd, .num a, .num b, .num c, .num d] =>
    (field 64 a).bind fun a => (field 64 b).bind fun b => (field 64 c).bind fun c =>
      (field 64 d).map fun d => (Pseudo.ld4 rd a b c d).expand
  | "strd", [.reg ra] => some (Pseudo.strd ra).expand
  | _, _ => none

/-- The command the assembler emits. "An assembler should reject the illegal pairings rather than emit them" (R235):
`PINC`/`PDEC` with `rd = ra` and `DIVMOD` with `rd = re`, the commands that name one destination twice. A `STR` with a
base outside 2 to 36 is emitted: R235 names the pairings alone (log 12). -/
def readCommand (mnemonic : String) (ops : List AsmOperand) : Option (Instr × PortWord) :=
  (writtenCommand mnemonic ops).filter fun c => decide (destinations c.1).Nodup

/-- One line that holds a command (R72). -/
def readLine (line : List Char) : Option (Instr × PortWord) :=
  let cs := cleanLine line
  (readOperands (trimBlanks (cs.dropWhile fun c => !isBlank c))).bind
    (readCommand (String.ofList (cs.takeWhile fun c => !isBlank c)))

/-- "One command per line" (R72): the transactions of a text, empty and comment lines left out. -/
def assemble (text : String) : Option (List Transaction) :=
  ((splitAtChar '\n' text.toList).filter fun l => !(cleanLine l).isEmpty).mapM fun l =>
    (readLine l).map fun c => ⟨encode c.1, c.2⟩

end Sys2Proof.Machine
end

