-- ==== Sys2Proof/Laws/Assembler.lean ====
section
/-! SUPPORT. What the assembler emits (30_encoding.md R72, 70_reset_and_hazards.md R235). -/

namespace Sys2Proof.Machine

/-- A command that names no destination twice is well formed, or a `STR`, whose base is another matter (R69). -/
theorem destinations_nodup_iff (i : Instr) :
    (destinations i).Nodup ↔ i.WellFormed ∨ isStr i = true := by
  cases i <;> simp [destinations, Instr.WellFormed, Instr.wellFormed, isStr]

/-- What the assembler emits: the written command, where it names no destination twice (R235). -/
theorem readCommand_eq_some {m : String} {ops : List AsmOperand} {c : Instr × PortWord} :
    readCommand m ops = some c ↔ writtenCommand m ops = some c ∧ (c.1.WellFormed ∨ isStr c.1 = true) := by
  simp [readCommand, Option.filter_eq_some_iff, destinations_nodup_iff]

end Sys2Proof.Machine
end

