-- ==== Sys2Proof/Laws/Compare.lean ====
section
/-! SUPPORT. The comparison tree compares the integers (43_compare.md R140 to R142, R149). -/

namespace Sys2Proof.Machine

theorem eq256_iff (a b : Value) : eq256 a b = true ↔ a.toNat = b.toNat := by
  rw [Value.toNat_inj, Value.ext_iff]
  simp [eq256]

theorem ne256_eq_not (a b : Value) : ne256 a b = !eq256 a b := by
  simp [ne256, eq256, Bool.not_and, bne]

theorem lt256_iff (a b : Value) : lt256 a b = true ↔ a.toNat < b.toNat := by
  have hal := a.lower.isLt
  have hbl := b.lower.isLt
  unfold lt256 lt128 Value.toNat
  split
  · next h =>
    have hu : a.upper = b.upper := by simpa using h
    rw [hu]
    simp only [BitVec.ult_eq_decide, decide_eq_true_eq]
    omega
  · next h =>
    have hu : a.upper.toNat ≠ b.upper.toNat := fun e => h (by simpa using BitVec.eq_of_toNat_eq e)
    simp only [BitVec.ult_eq_decide, decide_eq_true_eq]
    omega

/-- `gt256(a, b) = lt256(b, a)` (R149). -/
theorem gt256_eq_lt256 (a b : Value) : gt256 a b = lt256 b a := by
  simp only [gt256, lt256, gt128, lt128, Bool.beq_comm (a := a.upper)]

theorem gt256_iff (a b : Value) : gt256 a b = true ↔ b.toNat < a.toNat := by
  rw [gt256_eq_lt256, lt256_iff]

theorem le256_iff (a b : Value) : le256 a b = true ↔ a.toNat ≤ b.toNat := by
  rw [le256, Bool.or_eq_true, lt256_iff, eq256_iff]
  omega

theorem ge256_iff (a b : Value) : ge256 a b = true ↔ b.toNat ≤ a.toNat := by
  rw [ge256, Bool.or_eq_true, gt256_iff, eq256_iff]
  omega

theorem ne256_iff (a b : Value) : ne256 a b = true ↔ a.toNat ≠ b.toNat := by
  rw [ne256_eq_not, Bool.not_eq_true', ← Bool.not_eq_true, eq256_iff]

end Sys2Proof.Machine
end

