-- ==== Sys2Proof/Laws/Decode.lean ====
section
/-! SUPPORT. Cutting a word into fields loses nothing, either way, and the packed low halves read back
(30_encoding.md R61). -/

namespace Sys2Proof

/-- Reading a piece of a concatenation: the upper part. -/
theorem extractLsb'_append_hi {n m : Nat} (a : BitVec n) (b : BitVec m) :
    (a ++ b).extractLsb' m n = a := by
  apply BitVec.eq_of_getLsbD_eq
  intro i hi
  simp [BitVec.getLsbD_append, hi]

/-- Reading a piece of a concatenation: a piece that lies in the lower part. -/
theorem extractLsb'_append_lo {n m : Nat} (a : BitVec n) (b : BitVec m) (start len : Nat)
    (h : start + len ≤ m) : (a ++ b).extractLsb' start len = b.extractLsb' start len := by
  apply BitVec.eq_of_getLsbD_eq
  intro i hi
  have h2 : start + i < m := by omega
  simp [BitVec.getLsbD_append, hi, h2]

/-- Reading a piece of a concatenation: a piece that lies in the upper part. -/
theorem extractLsb'_append_up {n m : Nat} (a : BitVec n) (b : BitVec m) (start len : Nat) (h : m ≤ start) :
    (a ++ b).extractLsb' start len = a.extractLsb' (start - m) len := by
  apply BitVec.eq_of_getLsbD_eq
  intro i hi
  have h2 : ¬ start + i < m := by omega
  have h3 : start + i - m = start - m + i := by omega
  simp [BitVec.getLsbD_append, hi, h2, h3]

/-- Two neighbouring pieces put together are the piece they cover. -/
theorem extractLsb'_append_extractLsb' {w : Nat} (x : BitVec w) (start len len' : Nat) :
    x.extractLsb' (start + len') len ++ x.extractLsb' start len' = x.extractLsb' start (len + len') := by
  apply BitVec.eq_of_getLsbD_eq
  intro i hi
  simp only [BitVec.getLsbD_append, BitVec.getLsbD_extractLsb']
  by_cases h : i < len'
  · simp [h, hi]
  · have h2 : i - len' < len := by omega
    have h3 : start + len' + (i - len') = start + i := by omega
    simp [h, h2, h3, hi]

theorem Fields.ofWord_toWord (f : Fields) : Fields.ofWord f.toWord = f := by
  obtain ⟨op, rd, ra, imm⟩ := f
  simp only [Fields.ofWord, Fields.toWord, Fields.mk.injEq]
  refine ⟨?_, ?_, ?_, ?_⟩
  · refine (extractLsb'_append_up (op ++ rd ++ ra) imm 24 8 (by decide)).trans ?_
    refine (extractLsb'_append_up (op ++ rd) ra 8 8 (by decide)).trans ?_
    exact extractLsb'_append_hi op rd
  · refine (extractLsb'_append_up (op ++ rd ++ ra) imm 20 4 (by decide)).trans ?_
    refine (extractLsb'_append_up (op ++ rd) ra 4 4 (by decide)).trans ?_
    exact (extractLsb'_append_lo op rd 0 4 (by decide)).trans (by simp)
  · refine (extractLsb'_append_up (op ++ rd ++ ra) imm 16 4 (by decide)).trans ?_
    exact (extractLsb'_append_lo (op ++ rd) ra 0 4 (by decide)).trans (by simp)
  · exact (extractLsb'_append_lo (op ++ rd ++ ra) imm 0 16 (by decide)).trans (by simp)

theorem Fields.toWord_ofWord (w : CmdWord) : (Fields.ofWord w).toWord = w := by
  simp only [Fields.ofWord, Fields.toWord]
  rw [extractLsb'_append_extractLsb' w 20 8 4, extractLsb'_append_extractLsb' w 16 12 4,
    extractLsb'_append_extractLsb' w 0 16 16]
  simp

@[simp] theorem regOf_regField (r : Reg) : regOf (regField r) = r := by
  revert r
  decide

@[simp] theorem regField_regOf (b : BitVec 4) : regField (regOf b) = b := by
  revert b
  decide

theorem regField_beq (a b : Reg) : (regField a == regField b) = (a == b) := by
  revert a b
  decide

theorem lowRegs_rb (rb re : BitVec 4) : (lowRegs rb re).extractLsb' 12 4 = rb := by
  revert rb re
  decide

theorem lowRegs_re (rb re : BitVec 4) : (lowRegs rb re).extractLsb' 8 4 = re := by
  revert rb re
  decide

theorem lowRegs_low8 (rb re : BitVec 4) : (lowRegs rb re).extractLsb' 0 8 = 0#8 := by
  revert rb re
  decide

theorem lowRegs_low12 (rb : BitVec 4) : (lowRegs rb 0#4).extractLsb' 0 12 = 0#12 := by
  revert rb
  decide

theorem lowString_base (base : BitVec 6) (minlen : BitVec 10) :
    (lowString base minlen).extractLsb' 10 6 = base := extractLsb'_append_hi base minlen

theorem lowString_minlen (base : BitVec 6) (minlen : BitVec 10) :
    (lowString base minlen).extractLsb' 0 10 = minlen := by
  rw [lowString, extractLsb'_append_lo _ _ 0 10 (by decide)]
  simp

/-- Decoding a command's word reads exactly the command's fields. -/
theorem decode_encode_fields (i : Instr) : decode (encode i) = decodeFields i.fields := by
  rw [decode, encode, Fields.ofWord_toWord]

end Sys2Proof
end

