-- ==== Sys2Proof/Laws/Shift.lean ====
section
/-! SUPPORT. The barrel shifter's five cases are one shift of 256 bits (42_shift.md R130, R131). -/

namespace Sys2Proof.Machine

theorem shl256_toPort (a : Value) (n : Nat) : (shl256 a n).toPort = a.toPort <<< n := by
  apply BitVec.eq_of_getLsbD_eq
  intro i hi
  unfold shl256
  split_ifs with hz hx ht hc <;>
    simp only [Value.toPort, Value.zero, or128, shl128, shr128, BitVec.getLsbD_append, BitVec.getLsbD_shiftLeft,
      BitVec.getLsbD_or, BitVec.getLsbD_ushiftRight, BitVec.getLsbD_zero]
  · simp [hz, hi]
  · have : i < n := by omega
    simp [this]
  · subst ht
    by_cases h : i < 128 <;> simp [h, hi]
    intro _
    omega
  · by_cases h : i < 128
    · by_cases h2 : i < n <;> simp [h, h2, hi]
      intro _
      omega
    · have h3 : i - 128 < 128 := by omega
      by_cases h2 : i - 128 < n
      · have h4 : i - n < 128 := by omega
        have h5 : 128 - n + (i - 128) = i - n := by omega
        have h6 : ¬ i < n := by omega
        simp [h, h2, h3, h4, h5, h6, hi]
      · have h4 : ¬ i - n < 128 := by omega
        have h5 : i - 128 - n = i - n - 128 := by omega
        have h6 : ¬ i < n := by omega
        have h7 : a.lower.getLsbD (128 - n + (i - 128)) = false := by
          exact BitVec.getLsbD_of_ge _ _ (by omega)
        simp [h, h2, h3, h4, h5, h6, hi]
        exact fun hh => absurd hh (by rw [h7]; simp)
  · by_cases h : i < 128
    · have h2 : i < n := by omega
      simp [h, h2]
    · by_cases h2 : i < n
      · have h3 : i - 128 < n - 128 := by omega
        simp [h, h2, h3]
      · have h3 : ¬ i - 128 < n - 128 := by omega
        have h4 : i - 128 - (n - 128) = i - n := by omega
        have h5 : i - n < 128 := by omega
        have h6 : i - 128 < 128 := by omega
        simp [h, h2, h3, h4, h5, h6, hi]

theorem shr256_toPort (a : Value) (n : Nat) : (shr256 a n).toPort = a.toPort >>> n := by
  apply BitVec.eq_of_getLsbD_eq
  intro i hi
  unfold shr256
  split_ifs with hz hx ht hc <;>
    simp only [Value.toPort, Value.zero, or128, shl128, shr128, BitVec.getLsbD_append, BitVec.getLsbD_shiftLeft,
      BitVec.getLsbD_or, BitVec.getLsbD_ushiftRight, BitVec.getLsbD_zero]
  · simp [hz]
  · have h1 : ¬ n + i < 128 := by omega
    have h2 : a.upper.getLsbD (n + i - 128) = false := BitVec.getLsbD_of_ge _ _ (by omega)
    simp [h1, h2]
  · subst ht
    have h1 : 128 + i - 128 = i := by omega
    by_cases h : i < 128
    · simp [h, h1]
    · have h2 : a.upper.getLsbD i = false := BitVec.getLsbD_of_ge _ _ (by omega)
      simp [h, h1, h2]
  · by_cases h : i < 128
    · by_cases h2 : n + i < 128
      · have h3 : i < 128 - n := by omega
        simp [h, h2, h3]
      · have h3 : ¬ i < 128 - n := by omega
        have h4 : i - (128 - n) = n + i - 128 := by omega
        have h5 : a.lower.getLsbD (n + i) = false := BitVec.getLsbD_of_ge _ _ (by omega)
        simp [h, h2, h3, h4, h5]
    · have h2 : ¬ n + i < 128 := by omega
      have h3 : n + (i - 128) = n + i - 128 := by omega
      simp [h, h2, h3]
  · have h2 : ¬ n + i < 128 := by omega
    by_cases h : i < 128
    · have h3 : n - 128 + i = n + i - 128 := by omega
      simp [h, h2, h3]
    · have h4 : a.upper.getLsbD (n + i - 128) = false := BitVec.getLsbD_of_ge _ _ (by omega)
      simp [h, h2, h4]

/-- "In every case `shl256(a, n) = (a * 2^n) mod 2^256`" (R130). -/
theorem shl256_toNat (a : Value) (n : Nat) : (shl256 a n).toNat = a.toNat * 2 ^ n % 2 ^ 256 := by
  rw [← Value.toPort_toNat, shl256_toPort, BitVec.toNat_shiftLeft, Value.toPort_toNat, Nat.shiftLeft_eq]

/-- "In every case `shr256(a, n) = floor(a / 2^n)`" (R131). -/
theorem shr256_toNat (a : Value) (n : Nat) : (shr256 a n).toNat = a.toNat / 2 ^ n := by
  rw [← Value.toPort_toNat, shr256_toPort, BitVec.toNat_ushiftRight, Value.toPort_toNat,
    Nat.shiftRight_eq_div_pow]

end Sys2Proof.Machine
end

