-- ==== Sys2Proof/Laws/Divide.lean ====
section
/-! SUPPORT. Bit length (40_construct_cast.md R110) and the division engine's invariant and result
(46_divide.md R177, R178, R183). -/

namespace Sys2Proof.Machine

/-- R110: 0 for 0, otherwise the index of the highest set bit counted from 1. -/
theorem bits256_eq (v : Value) : bits256 v = if v.toNat = 0 then 0 else v.toNat.log2 + 1 := by
  have hl := v.lower.isLt
  unfold bits256 bits128
  by_cases hu : v.upper = 0#128
  · have hv : v.toNat = v.lower.toNat := by simp [Value.toNat, hu]
    have hz : v.lower = 0#128 ↔ v.lower.toNat = 0 := by
      rw [← BitVec.toNat_inj]
      simp
    simp [hu, hv, hz]
  · have hu0 : v.upper.toNat ≠ 0 := fun h => hu (BitVec.eq_of_toNat_eq (by simpa using h))
    have hv0 : v.toNat ≠ 0 := by
      unfold Value.toNat
      omega
    have hlog : v.toNat.log2 = 128 + v.upper.toNat.log2 := by
      rw [Nat.log2_eq_iff hv0]
      have h1 := Nat.log2_self_le hu0
      have h2 := Nat.lt_log2_self (n := v.upper.toNat)
      rw [show 128 + v.upper.toNat.log2 + 1 = (v.upper.toNat.log2 + 1) + 128 by omega,
        Nat.add_comm 128, pow_add, pow_add]
      unfold Value.toNat
      omega
    simp only [if_neg hv0, hu, hlog, ne_eq, not_false_eq_true, if_true, if_false]
    omega

/-- The bit length bounds the value (R110). -/
theorem toNat_lt_two_pow_bits256 (v : Value) : v.toNat < 2 ^ bits256 v := by
  rw [bits256_eq]
  split
  · next h => simp [h]
  · exact Nat.lt_log2_self

theorem bits256_le (v : Value) : bits256 v ≤ 256 := by
  rw [bits256_eq]
  split
  · omega
  · next h => exact (Nat.log2_lt h).mpr v.toNat_lt

/-- OR with 1 sets the bit a left shift by one freed. -/
theorem or_one_toNat (v : Value) (n : Nat) (h : v.toNat = 2 * n) : (or256 v Value.one).toNat = 2 * n + 1 := by
  rw [or256_toNat, Value.one_toNat, h]
  have := Nat.shiftLeft_add_eq_or_of_lt (b := 1) (i := 1) (by decide) n
  rw [Nat.shiftLeft_eq, pow_one, Nat.mul_comm] at this
  exact this.symm

/-- One step of the loop keeps R178's invariant: from `(q, r)` of `n` to `(q, r)` of `2n + b`, with no bit
lost (R183). -/
theorem divStep_spec (rhs q r : Value) (b : Bool) (n : Nat) (hn : 2 * n + b.toNat < 2 ^ 256)
    (hq : q.toNat = n / rhs.toNat) (hr : r.toNat = n % rhs.toNat) (h0 : rhs.toNat ≠ 0) :
    (divStep rhs b q r).1.toNat = (2 * n + b.toNat) / rhs.toNat ∧
      (divStep rhs b q r).2.toNat = (2 * n + b.toNat) % rhs.toNat := by
  have hd := rhs.toNat_lt
  have hb : b.toNat ≤ 1 := Bool.toNat_le b
  have hdm := Nat.div_add_mod n rhs.toNat
  have hrlt := Nat.mod_lt n (Nat.pos_of_ne_zero h0)
  have hqn : q.toNat ≤ n := hq ▸ Nat.div_le_self _ _
  have hrn : r.toNat ≤ n := hr ▸ Nat.mod_le _ _
  have hq2 : (shl256 q 1).toNat = 2 * q.toNat := by
    rw [shl256_toNat]
    omega
  have hr2 : (shl256 r 1).toNat = 2 * r.toNat := by
    rw [shl256_toNat]
    omega
  have hr3 : (if b then or256 (shl256 r 1) Value.one else shl256 r 1).toNat = 2 * r.toNat + b.toNat := by
    cases b
    · simpa using hr2
    · simpa using or_one_toNat _ _ hr2
  rw [← hq, ← hr] at hdm
  rw [← hr] at hrlt
  have key : 2 * n + b.toNat = rhs.toNat * (2 * q.toNat) + (2 * r.toNat + b.toNat) := by
    rw [← hdm]
    ring
  simp only [divStep]
  generalize hg : (if b then or256 (shl256 r 1) Value.one else shl256 r 1) = r' at hr3 ⊢
  by_cases hge : ge256 r' rhs = true
  · have hle := (ge256_iff _ _).mp hge
    rw [hr3] at hle
    have key2 : 2 * n + b.toNat = rhs.toNat * (2 * q.toNat + 1) + (2 * r.toNat + b.toNat - rhs.toNat) := by
      rw [key, Nat.mul_add, Nat.mul_one, Nat.add_assoc]
      omega
    have hlt : 2 * r.toNat + b.toNat - rhs.toNat < rhs.toNat := by omega
    simp only [hge, if_true]
    rw [or_one_toNat _ _ hq2, sub256_toNat, hr3, key2]
    constructor
    · rw [Nat.mul_add_div (Nat.pos_of_ne_zero h0), Nat.div_eq_of_lt hlt, Nat.add_zero]
    · rw [Nat.mul_add_mod, Nat.mod_eq_of_lt hlt]
      omega
  · have hlt : 2 * r.toNat + b.toNat < rhs.toNat := by
      have := mt (ge256_iff _ _).mpr hge
      rw [hr3] at this
      omega
    simp only [hge, if_false, Bool.false_eq_true]
    rw [hq2, hr3, key]
    constructor
    · rw [Nat.mul_add_div (Nat.pos_of_ne_zero h0), Nat.div_eq_of_lt hlt, Nat.add_zero]
    · rw [Nat.mul_add_mod, Nat.mod_eq_of_lt hlt]

/-- The loop from step `i`: if `(q, r)` divides the bits of `lhs` above position `i`, the loop ends with the
quotient and remainder of `lhs` (R178, by induction on the steps). -/
theorem divLoop_spec (lhs rhs : Value) (h0 : rhs.toNat ≠ 0) (i : Nat) (qr : Value × Value) (hi : i ≤ 256)
    (hq : qr.1.toNat = lhs.toNat / 2 ^ i / rhs.toNat) (hr : qr.2.toNat = lhs.toNat / 2 ^ i % rhs.toNat) :
    (divLoop lhs rhs i qr).1.toNat = lhs.toNat / rhs.toNat ∧
      (divLoop lhs rhs i qr).2.toNat = lhs.toNat % rhs.toNat := by
  induction i generalizing qr with
  | zero =>
    rw [pow_zero, Nat.div_one] at hq hr
    exact ⟨hq, hr⟩
  | succ i ih =>
    have hbit : lhs.toNat / 2 ^ i = 2 * (lhs.toNat / 2 ^ (i + 1)) + (lhs.bit i).toNat := by
      rw [Value.bit_eq_testBit, Nat.toNat_testBit, pow_succ, ← Nat.div_div_eq_div_mul]
      omega
    have hlt : lhs.toNat / 2 ^ i < 2 ^ 256 := Nat.lt_of_le_of_lt (Nat.div_le_self _ _) lhs.toNat_lt
    rw [hbit] at hlt
    have hs := divStep_spec rhs qr.1 qr.2 (lhs.bit i) _ hlt hq hr h0
    rw [← hbit] at hs
    exact ih _ (by omega) hs.1 hs.2

/-- The general path of R177 gives the pair of R178. -/
theorem divGeneral_spec (lhs rhs : Value) (h0 : rhs.toNat ≠ 0) :
    (divGeneral lhs rhs).1.toNat = lhs.toNat / rhs.toNat ∧
      (divGeneral lhs rhs).2.toNat = lhs.toNat % rhs.toNat := by
  have hz : lhs.toNat / 2 ^ bits256 lhs = 0 := Nat.div_eq_of_lt (toNat_lt_two_pow_bits256 lhs)
  exact divLoop_spec lhs rhs h0 _ _ (bits256_le lhs) (by simp [hz, Value.zero_toNat])
    (by simp [hz, Value.zero_toNat])

/-- R175: a zero divisor gives no pair. -/
theorem divmod256_zero (lhs : Value) : divmod256 lhs Value.zero = none := by simp [divmod256]

/-- R178: everything `divmod256` answers for a divisor that is not zero, on whatever path. -/
theorem divmod256_spec (lhs rhs : Value) (h0 : rhs.toNat ≠ 0) :
    ∃ q r, divmod256 lhs rhs = some (q, r) ∧ q.toNat = lhs.toNat / rhs.toNat ∧
      r.toNat = lhs.toNat % rhs.toNat := by
  have hz : rhs ≠ Value.zero := fun h => h0 (h ▸ Value.zero_toNat)
  unfold divmod256
  rw [dif_neg hz]
  split_ifs with h1 he hl hs
  · exact ⟨_, _, rfl, by simp [h1, Value.one_toNat], by simp [h1, Value.one_toNat, Value.zero_toNat, Nat.mod_one]⟩
  · subst he
    exact ⟨_, _, rfl, by rw [Value.one_toNat, Nat.div_self (Nat.pos_of_ne_zero h0)],
      by rw [Value.zero_toNat, Nat.mod_self]⟩
  · have hlt : lhs.toNat < rhs.toNat := by
      rcases hl with h | h
      · rw [h, Value.zero_toNat]
        omega
      · exact (lt256_iff _ _).mp h
    exact ⟨_, _, rfl, by rw [Value.zero_toNat, Nat.div_eq_of_lt hlt], by rw [Nat.mod_eq_of_lt hlt]⟩
  · refine ⟨_, _, rfl, ?_, ?_⟩ <;>
      simp [Value.toNat, hs.1, hs.2, div128, mod128]
  · exact ⟨_, _, rfl, divGeneral_spec lhs rhs h0⟩

end Sys2Proof.Machine
end

