-- ==== Sys2Proof/Laws/State.lean ====
section
/-! SUPPORT. One lemma for each field under each update of the state, so that no later proof unfolds a record
update, and read after write on the register file. -/

namespace Sys2Proof.Machine

/-! ### Reading a register after a write -/

@[simp] theorem State.reg_setReg_same (s : State) (r : Reg) (v : Value) : (s.setReg r v).reg r = v := by
  simp [State.reg, State.setReg, Vector.get_eq_getElem]

theorem State.reg_setReg_of_ne (s : State) {r k : Reg} (v : Value) (h : k ≠ r) :
    (s.setReg r v).reg k = s.reg k := by
  have hv : r.val ≠ k.val := fun e => h (Fin.ext e.symm)
  simp [State.reg, State.setReg, Vector.get_eq_getElem, hv]

theorem State.reg_setReg (s : State) (r k : Reg) (v : Value) :
    (s.setReg r v).reg k = if k = r then v else s.reg k := by
  split
  · next h => subst h; simp
  · next h => exact s.reg_setReg_of_ne v h

@[simp] theorem State.reg_reset (r : Reg) : State.reset.reg r = Value.zero := by
  simp [State.reg, State.reset, Vector.get_eq_getElem]

/-! ### `setReg` -/

@[simp] theorem State.setReg_status (s : State) (r : Reg) (v : Value) : (s.setReg r v).status = s.status := rfl
@[simp] theorem State.setReg_str (s : State) (r : Reg) (v : Value) : (s.setReg r v).str = s.str := rfl
@[simp] theorem State.setReg_resetLine (s : State) (r : Reg) (v : Value) :
    (s.setReg r v).resetLine = s.resetLine := rfl
@[simp] theorem State.setReg_pending (s : State) (r : Reg) (v : Value) :
    (s.setReg r v).pending = s.pending := rfl
@[simp] theorem State.setReg_responses (s : State) (r : Reg) (v : Value) :
    (s.setReg r v).responses = s.responses := rfl
@[simp] theorem State.setReg_wdata (s : State) (r : Reg) (v : Value) : (s.setReg r v).wdata = s.wdata := rfl

/-! ### `answer` and `respond` -/

@[simp] theorem State.answer_regs (s : State) (a : Response) : (s.answer a).regs = s.regs := rfl
@[simp] theorem State.answer_reg (s : State) (a : Response) (k : Reg) : (s.answer a).reg k = s.reg k := rfl
@[simp] theorem State.answer_status (s : State) (a : Response) : (s.answer a).status = s.status := rfl
@[simp] theorem State.answer_str (s : State) (a : Response) : (s.answer a).str = s.str := rfl
@[simp] theorem State.answer_resetLine (s : State) (a : Response) : (s.answer a).resetLine = s.resetLine := rfl
@[simp] theorem State.answer_pending (s : State) (a : Response) : (s.answer a).pending = s.pending.tail := rfl
@[simp] theorem State.answer_responses (s : State) (a : Response) :
    (s.answer a).responses = s.responses ++ [a] := rfl

@[simp] theorem State.respond_reg (s : State) (v : PortWord) (k : Reg) : (s.respond v).reg k = s.reg k := rfl
@[simp] theorem State.respond_status (s : State) (v : PortWord) : (s.respond v).status = s.status := rfl
@[simp] theorem State.respond_str (s : State) (v : PortWord) : (s.respond v).str = s.str := rfl
@[simp] theorem State.respond_resetLine (s : State) (v : PortWord) :
    (s.respond v).resetLine = s.resetLine := rfl
@[simp] theorem State.respond_pending (s : State) (v : PortWord) :
    (s.respond v).pending = s.pending.tail := rfl
@[simp] theorem State.respond_responses (s : State) (v : PortWord) :
    (s.respond v).responses = s.responses ++ [⟨.ok, v⟩] := rfl

/-! ### `raise` -/

@[simp] theorem State.raise_reg (s : State) (c : Cause) (k : Reg) : (s.raise c).reg k = s.reg k := rfl
@[simp] theorem State.raise_status (s : State) (c : Cause) : (s.raise c).status = s.status.record c := rfl
@[simp] theorem State.raise_str (s : State) (c : Cause) : (s.raise c).str = s.str := rfl
@[simp] theorem State.raise_resetLine (s : State) (c : Cause) : (s.raise c).resetLine = s.resetLine := rfl
@[simp] theorem State.raise_pending (s : State) (c : Cause) : (s.raise c).pending = s.pending.tail := rfl
@[simp] theorem State.raise_responses (s : State) (c : Cause) :
    (s.raise c).responses = s.responses ++ [⟨.raised c, 0#256⟩] := rfl

/-! ### `takeReset` -/

@[simp] theorem State.takeReset_reg (s : State) (k : Reg) : s.takeReset.reg k = Value.zero :=
  State.reg_reset k
@[simp] theorem State.takeReset_status (s : State) : s.takeReset.status = ⟨false, false⟩ := rfl
@[simp] theorem State.takeReset_str (s : State) : s.takeReset.str = [] := rfl
@[simp] theorem State.takeReset_resetLine (s : State) : s.takeReset.resetLine = false := rfl
@[simp] theorem State.takeReset_pending (s : State) : s.takeReset.pending = [] := rfl
@[simp] theorem State.takeReset_responses (s : State) : s.takeReset.responses = s.responses := rfl

/-! ### The three ways a command ends -/

/-- Everything `writeBack` does. -/
theorem writeBack_eq (rd : Reg) (v : Value) (s : State) :
    writeBack rd v s = .next ((s.setReg rd v).respond v.toPort) := rfl

/-- Everything `readOut` does. -/
theorem readOut_eq (v : PortWord) (s : State) : readOut v s = .next (s.respond v) := rfl

/-- Everything `fail` does. -/
theorem fail_eq (c : Cause) (s : State) : fail c s = .next (s.raise c) := rfl

/-- A sticky bit is never cleared by a fault, and the fault's own bit is set (R212, R213). -/
theorem StatusReg.record_dz (st : StatusReg) (c : Cause) :
    (st.record c).dz = (st.dz || decide (c = .divideByZero)) := by
  cases c <;> simp [StatusReg.record]

theorem StatusReg.record_ill (st : StatusReg) (c : Cause) :
    (st.record c).ill = (st.ill || decide (c = .illegalCommand)) := by
  cases c <;> simp [StatusReg.record]

end Sys2Proof.Machine
end

