-- ==== Sys2Proof/Laws/Endings.lean ====
section
/-! SUPPORT. The three ways a command ends, said in the terms the claims use (Safety.lean): everything that
`writeBack`, `readOut` and `fail` do. -/

namespace Sys2Proof.Machine

theorem writeBack_writesOnly (rd : Reg) (v : Value) (s : State) (n : Nat) (h : v.toNat = n) :
    WritesOnly (writeBack rd v s) s rd n := by
  subst h
  refine ⟨_, rfl, by simp, fun r hr => ?_, rfl, rfl, rfl, rfl, ?_⟩
  · simp [State.reg_setReg_of_ne _ _ hr]
  · simp [Value.toPort_eq]

theorem readOut_answersOnly (v : PortWord) (s : State) (n : Nat) (h : v.toNat = n) :
    AnswersOnly (readOut v s) s n := by
  subst h
  exact ⟨_, rfl, fun _ => rfl, rfl, rfl, rfl, rfl, by simp⟩

theorem fail_faultsWith (c : Cause) (s : State) : FaultsWith (fail c s) s c :=
  ⟨_, rfl, fun _ => rfl, by simp [StatusReg.record_dz], by simp [StatusReg.record_ill], rfl, rfl, rfl, rfl⟩

/-- A command that writes two registers, the other one first. -/
theorem writeBack_writesBoth (rd re : Reg) (v m : Value) (s : State) (n k : Nat) (hne : rd ≠ re) (hv : v.toNat = n)
    (hm : m.toNat = k) : WritesBoth (writeBack rd v (s.setReg re m)) s rd n re k := by
  subst hv hm
  refine ⟨_, rfl, by simp, ?_, fun r h1 h2 => ?_, rfl, rfl, rfl, rfl, ?_⟩
  · simp [State.reg_setReg_of_ne _ _ hne.symm]
  · simp [State.reg_setReg_of_ne _ _ h1, State.reg_setReg_of_ne _ _ h2]
  · simp [Value.toPort_eq]

end Sys2Proof.Machine
end

