-- ==== Sys2Proof/Laws/Exec.lean ====
section
/-! SUPPORT. The inversion of `exec`: every command in every state has a next state, and it is one of six
(20_memory.md R41; 60_exceptions.md section 7). Statements about all commands follow from it by cases. -/

namespace Sys2Proof.Machine

/-- The states a command can end in. -/
inductive CommandEnds (i : Instr) (s : State) : State → Prop
  /-- one register written -/
  | wrote (rd : Reg) (v : Value) (hd : destinations i = [rd]) (hs : isStr i = false) (hc : i ≠ .clrstat)
      (hr : isRead i = false) : CommandEnds i s ((s.setReg rd v).respond v.toPort)
  /-- two registers written -/
  | wroteBoth (rd re : Reg) (v m : Value) (hne : rd ≠ re) (hd : destinations i = [rd, re])
      (hs : isStr i = false) (hc : i ≠ .clrstat) (hr : isRead i = false) :
      CommandEnds i s (((s.setReg re m).setReg rd v).respond v.toPort)
  /-- an answer only -/
  | answered (v : PortWord) (hd : destinations i = []) (hs : isStr i = false) (hc : i ≠ .clrstat)
      (hr : isRead i = true) : CommandEnds i s (s.respond v)
  /-- a fault -/
  | faulted (c : Cause) (hc : i ≠ .clrstat) (hr : isRead i = false) : CommandEnds i s (s.raise c)
  /-- `STR` -/
  | string (ra : Reg) (base : BitVec 6) (minlen : BitVec 10) (hi : i = .str ra base minlen)
      (hb : baseLegal base = true) :
      CommandEnds i s (State.respond { s with str := strOf (s.reg ra) base minlen.toNat }
        (BitVec.ofNat 256 (strOf (s.reg ra) base minlen.toNat).length))
  /-- `CLRSTAT` -/
  | cleared (hi : i = .clrstat) : CommandEnds i s (State.respond { s with status := StatusReg.clear } 0#256)

theorem divProject_ends (i : Instr) (pick : Value × Value → Value) (rd : Reg) (a b : Value) (s : State)
    (hd : destinations i = [rd]) (hs : isStr i = false) (hc : i ≠ .clrstat) (hr : isRead i = false) :
    ∃ t, divProject pick rd a b s = .next t ∧ CommandEnds i s t := by
  unfold divProject
  cases divmod256 a b with
  | none => exact ⟨_, rfl, .faulted _ hc hr⟩
  | some qr => exact ⟨_, rfl, .wrote _ _ hd hs hc hr⟩

theorem postfixStep_ends (i : Instr) (f : Value → Value) (rd ra : Reg) (s : State)
    (hd : destinations i = [rd, ra]) (hs : isStr i = false) (hc : i ≠ .clrstat) (hr : isRead i = false) :
    ∃ t, postfixStep f rd ra s = .next t ∧ CommandEnds i s t := by
  unfold postfixStep
  split
  · exact ⟨_, rfl, .faulted _ hc hr⟩
  · exact ⟨_, rfl, .wroteBoth _ _ _ _ ‹_› hd hs hc hr⟩

theorem execDivmod_ends (rd re ra rb : Reg) (s : State) :
    ∃ t, execDivmod rd re ra rb s = .next t ∧ CommandEnds (.divmod rd re ra rb) s t := by
  unfold execDivmod
  split
  · exact ⟨_, rfl, .faulted _ (by simp) rfl⟩
  · split
    · exact ⟨_, rfl, .faulted _ (by simp) rfl⟩
    · exact ⟨_, rfl, .wroteBoth _ _ _ _ ‹_› rfl rfl (by simp) rfl⟩

theorem execStr_ends (ra : Reg) (base : BitVec 6) (minlen : BitVec 10) (s : State) :
    ∃ t, execStr ra base minlen s = .next t ∧ CommandEnds (.str ra base minlen) s t := by
  unfold execStr
  split
  · exact ⟨_, rfl, .string _ _ _ rfl ‹_›⟩
  · exact ⟨_, rfl, .faulted _ (by simp) rfl⟩

/-- The inversion of `exec`. -/
theorem exec_ends (i : Instr) (s : State) : ∃ t, exec i s = .next t ∧ CommandEnds i s t := by
  cases i
  case str ra base minlen => exact execStr_ends ra base minlen s
  case clrstat => exact ⟨_, rfl, .cleared rfl⟩
  case pinc rd ra => exact postfixStep_ends (.pinc rd ra) (fun t => add256 t Value.one) rd ra s rfl rfl (by simp) rfl
  case pdec rd ra => exact postfixStep_ends (.pdec rd ra) (fun t => sub256 t Value.one) rd ra s rfl rfl (by simp) rfl
  case divmod rd re ra rb => exact execDivmod_ends rd re ra rb s
  case div rd ra rb => exact divProject_ends (.div rd ra rb) _ rd _ _ s rfl rfl (by simp) rfl
  case mod rd ra rb => exact divProject_ends (.mod rd ra rb) _ rd _ _ s rfl rfl (by simp) rfl
  case divi rd ra imm => exact divProject_ends (.divi rd ra imm) _ rd _ _ s rfl rfl (by simp) rfl
  case modi rd ra imm => exact divProject_ends (.modi rd ra imm) _ rd _ _ s rfl rfl (by simp) rfl
  case rdstat => exact ⟨_, rfl, .answered _ rfl rfl (by simp) rfl⟩
  case rdsl => exact ⟨_, rfl, .answered _ rfl rfl (by simp) rfl⟩
  case rdsc => exact ⟨_, rfl, .answered _ rfl rfl (by simp) rfl⟩
  case rd8 => exact ⟨_, rfl, .answered _ rfl rfl (by simp) rfl⟩
  case rd16 => exact ⟨_, rfl, .answered _ rfl rfl (by simp) rfl⟩
  case rd32 => exact ⟨_, rfl, .answered _ rfl rfl (by simp) rfl⟩
  case rd64 => exact ⟨_, rfl, .answered _ rfl rfl (by simp) rfl⟩
  case rd128 => exact ⟨_, rfl, .answered _ rfl rfl (by simp) rfl⟩
  case rdu => exact ⟨_, rfl, .answered _ rfl rfl (by simp) rfl⟩
  case rdv => exact ⟨_, rfl, .answered _ rfl rfl (by simp) rfl⟩
  all_goals exact ⟨_, rfl, .wrote _ _ rfl rfl (by simp) rfl⟩

/-- What a command leaves alone but for answering: the reset input; and it answers exactly one transaction with
exactly one response, `rdata = 0` when it faults (R41, R212, R213). -/
theorem CommandEnds.answered_once {i : Instr} {s t : State} (h : CommandEnds i s t) :
    ∃ r, Answered s t r ∧ (r.status ≠ .ok → r.rdata = 0#256) := by
  cases h <;> exact ⟨_, ⟨rfl, rfl, rfl⟩, by simp⟩

end Sys2Proof.Machine
end

