-- ==== Sys2Proof/Laws/Multiply.lean ====
section
/-! SUPPORT. The three-product multiplier is exact modulo `2^256` (45_multiply.md R166), and so is the 64-bit
decomposition of the limb product (R167). -/

namespace Sys2Proof.Machine

/-- R8: the full product of two limbs. -/
theorem mulfull128_toNat (a b : Limb) : (mulfull128 a b).toNat = a.toNat * b.toNat := by
  have h : a.toNat * b.toNat < 2 ^ 256 :=
    Nat.lt_of_lt_of_le (Nat.mul_lt_mul'' a.isLt b.isLt) (by decide)
  have ha : a.toNat < 2 ^ 256 := Nat.lt_trans a.isLt (by decide)
  have hb : b.toNat < 2 ^ 256 := Nat.lt_trans b.isLt (by decide)
  rw [mulfull128, Value.ofPort_toNat, BitVec.toNat_mul, BitVec.toNat_setWidth, BitVec.toNat_setWidth,
    Nat.mod_eq_of_lt ha, Nat.mod_eq_of_lt hb, Nat.mod_eq_of_lt h]

/-- R166. -/
theorem mul256_toNat (a b : Value) : (mul256 a b).toNat = a.toNat * b.toNat % 2 ^ 256 := by
  have hp := mulfull128_toNat a.lower b.lower
  simp only [mul256, Value.toNat, add128, mul128, BitVec.toNat_add, BitVec.toNat_mul] at hp ⊢
  generalize (mulfull128 a.lower b.lower).upper.toNat = p1 at hp ⊢
  have h0 := (mulfull128 a.lower b.lower).lower.isLt
  generalize (mulfull128 a.lower b.lower).lower.toNat = p0 at hp h0 ⊢
  generalize a.upper.toNat = a1
  generalize b.upper.toNat = b1
  generalize a.lower.toNat = a0 at hp ⊢
  generalize b.lower.toNat = b0 at hp ⊢
  have e : (a1 * 2 ^ 128 + a0) * (b1 * 2 ^ 128 + b0)
      = (p1 + a1 * b0 + a0 * b1) * 2 ^ 128 + p0 + a1 * b1 * 2 ^ 256 := by
    calc _ = (a1 * b0 + a0 * b1) * 2 ^ 128 + a0 * b0 + a1 * b1 * 2 ^ 256 := by ring
      _ = _ := by rw [← hp]; ring
  rw [e, Nat.add_mul_mod_self_right]
  clear e hp
  generalize a1 * b0 = x
  generalize a0 * b1 = y
  omega

/-- R167: the 64-bit decomposition gives the full product. -/
theorem mulfull128Tree_toNat (x y : Limb) : (mulfull128Tree x y).toNat = x.toNat * y.toNat := by
  have hx := x.isLt
  have hy := y.isLt
  have hsx : x.toNat = x.toNat / 2 ^ 64 * 2 ^ 64 + x.toNat % 2 ^ 64 := by omega
  have hsy : y.toNat = y.toNat / 2 ^ 64 * 2 ^ 64 + y.toNat % 2 ^ 64 := by omega
  have h1 : x.toNat / 2 ^ 64 ≤ 2 ^ 64 - 1 := by omega
  have h0 : x.toNat % 2 ^ 64 ≤ 2 ^ 64 - 1 := by omega
  have g1 : y.toNat / 2 ^ 64 ≤ 2 ^ 64 - 1 := by omega
  have g0 : y.toNat % 2 ^ 64 ≤ 2 ^ 64 - 1 := by omega
  have hm : x.toNat / 2 ^ 64 % 2 ^ 64 = x.toNat / 2 ^ 64 := by omega
  have gm : y.toNat / 2 ^ 64 % 2 ^ 64 = y.toNat / 2 ^ 64 := by omega
  have b00 := Nat.mul_le_mul h0 g0
  have b01 := Nat.mul_le_mul h0 g1
  have b10 := Nat.mul_le_mul h1 g0
  have b11 := Nat.mul_le_mul h1 g1
  have e : x.toNat * y.toNat = x.toNat / 2 ^ 64 * (y.toNat / 2 ^ 64) * 2 ^ 128
      + (x.toNat % 2 ^ 64 * (y.toNat / 2 ^ 64) + x.toNat / 2 ^ 64 * (y.toNat % 2 ^ 64)) * 2 ^ 64
      + x.toNat % 2 ^ 64 * (y.toNat % 2 ^ 64) := by
    conv_lhs => rw [hsx, hsy]
    ring
  have happ : ∀ a b : BitVec 64, (a ++ b : Limb).toNat = a.toNat * 2 ^ 64 + b.toNat := fun a b => by
    rw [BitVec.toNat_append, ← Nat.shiftLeft_add_eq_or_of_lt b.isLt, Nat.shiftLeft_eq]
  rw [e]
  simp only [mulfull128Tree, Value.toNat, happ, BitVec.extractLsb'_toNat, BitVec.toNat_ofNat, Nat.shiftRight_eq_div_pow,
    pow_zero, Nat.div_one, hm, gm]
  generalize x.toNat / 2 ^ 64 * (y.toNat / 2 ^ 64) = q11 at *
  generalize x.toNat % 2 ^ 64 * (y.toNat / 2 ^ 64) = q01 at *
  generalize x.toNat / 2 ^ 64 * (y.toNat % 2 ^ 64) = q10 at *
  generalize x.toNat % 2 ^ 64 * (y.toNat % 2 ^ 64) = q00 at *
  omega

end Sys2Proof.Machine
end

