-- ==== Sys2Proof/Laws/PerInstr.lean ====
section
/-! SUPPORT. What is proved command by command. Family `DecodeEncode`: a well-formed command's word decodes to
the command (30_encoding.md R61 to R63), every operand at every value its field admits. -/

-- One declaration at a time: many at once ask for more threads than the check's memory limit leaves room for.
set_option Elab.async false

namespace Sys2Proof.Laws

/-- A well-formed command is what its word decodes to. -/
def DecodeEncode.Statement (i : Instr) : Prop := i.WellFormed → decode (encode i) = .ok i

theorem DecodeEncode.clr (rd : Reg) : DecodeEncode.Statement (Instr.clr rd) := by
  intro _
  rw [decode_encode_fields]
  simp [Instr.fields, decodeFields, decodeD, needZero]

theorem DecodeEncode.mov (rd ra : Reg) : DecodeEncode.Statement (Instr.mov rd ra) := by
  intro _
  rw [decode_encode_fields]
  simp [Instr.fields, decodeFields, decodeU, needZero]

theorem DecodeEncode.ldz8 (rd : Reg) : DecodeEncode.Statement (Instr.ldz8 rd) := by
  intro _
  rw [decode_encode_fields]
  simp [Instr.fields, decodeFields, decodeL, needZero, Fields.low12, Fields.wsel, lowWidth, pickWidth]

theorem DecodeEncode.ldz16 (rd : Reg) : DecodeEncode.Statement (Instr.ldz16 rd) := by
  intro _
  rw [decode_encode_fields]
  simp [Instr.fields, decodeFields, decodeL, needZero, Fields.low12, Fields.wsel, lowWidth, pickWidth]

theorem DecodeEncode.ldz32 (rd : Reg) : DecodeEncode.Statement (Instr.ldz32 rd) := by
  intro _
  rw [decode_encode_fields]
  simp [Instr.fields, decodeFields, decodeL, needZero, Fields.low12, Fields.wsel, lowWidth, pickWidth]

theorem DecodeEncode.ldz64 (rd : Reg) : DecodeEncode.Statement (Instr.ldz64 rd) := by
  intro _
  rw [decode_encode_fields]
  simp [Instr.fields, decodeFields, decodeL, needZero, Fields.low12, Fields.wsel, lowWidth, pickWidth]

theorem DecodeEncode.ldz128 (rd : Reg) : DecodeEncode.Statement (Instr.ldz128 rd) := by
  intro _
  rw [decode_encode_fields]
  simp [Instr.fields, decodeFields, decodeL, needZero, Fields.low12, Fields.wsel, lowWidth, pickWidth]

theorem DecodeEncode.lds8 (rd : Reg) : DecodeEncode.Statement (Instr.lds8 rd) := by
  intro _
  rw [decode_encode_fields]
  simp [Instr.fields, decodeFields, decodeL, needZero, Fields.low12, Fields.wsel, lowWidth, pickWidth]

theorem DecodeEncode.lds16 (rd : Reg) : DecodeEncode.Statement (Instr.lds16 rd) := by
  intro _
  rw [decode_encode_fields]
  simp [Instr.fields, decodeFields, decodeL, needZero, Fields.low12, Fields.wsel, lowWidth, pickWidth]

theorem DecodeEncode.lds32 (rd : Reg) : DecodeEncode.Statement (Instr.lds32 rd) := by
  intro _
  rw [decode_encode_fields]
  simp [Instr.fields, decodeFields, decodeL, needZero, Fields.low12, Fields.wsel, lowWidth, pickWidth]

theorem DecodeEncode.lds64 (rd : Reg) : DecodeEncode.Statement (Instr.lds64 rd) := by
  intro _
  rw [decode_encode_fields]
  simp [Instr.fields, decodeFields, decodeL, needZero, Fields.low12, Fields.wsel, lowWidth, pickWidth]

theorem DecodeEncode.lds128 (rd : Reg) : DecodeEncode.Statement (Instr.lds128 rd) := by
  intro _
  rw [decode_encode_fields]
  simp [Instr.fields, decodeFields, decodeL, needZero, Fields.low12, Fields.wsel, lowWidth, pickWidth]

theorem DecodeEncode.ldp (rd : Reg) : DecodeEncode.Statement (Instr.ldp rd) := by
  intro _
  rw [decode_encode_fields]
  simp [Instr.fields, decodeFields, decodeD, needZero]

theorem DecodeEncode.rd8 (ra : Reg) : DecodeEncode.Statement (Instr.rd8 ra) := by
  intro _
  rw [decode_encode_fields]
  simp [Instr.fields, decodeFields, decodeG, needZero, Fields.low12, Fields.wsel, lowWidth, pickWidth]

theorem DecodeEncode.rd16 (ra : Reg) : DecodeEncode.Statement (Instr.rd16 ra) := by
  intro _
  rw [decode_encode_fields]
  simp [Instr.fields, decodeFields, decodeG, needZero, Fields.low12, Fields.wsel, lowWidth, pickWidth]

theorem DecodeEncode.rd32 (ra : Reg) : DecodeEncode.Statement (Instr.rd32 ra) := by
  intro _
  rw [decode_encode_fields]
  simp [Instr.fields, decodeFields, decodeG, needZero, Fields.low12, Fields.wsel, lowWidth, pickWidth]

theorem DecodeEncode.rd64 (ra : Reg) : DecodeEncode.Statement (Instr.rd64 ra) := by
  intro _
  rw [decode_encode_fields]
  simp [Instr.fields, decodeFields, decodeG, needZero, Fields.low12, Fields.wsel, lowWidth, pickWidth]

theorem DecodeEncode.rd128 (ra : Reg) : DecodeEncode.Statement (Instr.rd128 ra) := by
  intro _
  rw [decode_encode_fields]
  simp [Instr.fields, decodeFields, decodeG, needZero, Fields.low12, Fields.wsel, lowWidth, pickWidth]

theorem DecodeEncode.rdu (ra : Reg) : DecodeEncode.Statement (Instr.rdu ra) := by
  intro _
  rw [decode_encode_fields]
  simp [Instr.fields, decodeFields, decodeA, needZero]

theorem DecodeEncode.rdv (ra : Reg) : DecodeEncode.Statement (Instr.rdv ra) := by
  intro _
  rw [decode_encode_fields]
  simp [Instr.fields, decodeFields, decodeA, needZero]

theorem DecodeEncode.bool (rd ra : Reg) : DecodeEncode.Statement (Instr.bool rd ra) := by
  intro _
  rw [decode_encode_fields]
  simp [Instr.fields, decodeFields, decodeU, needZero]

theorem DecodeEncode.bits (rd ra : Reg) : DecodeEncode.Statement (Instr.bits rd ra) := by
  intro _
  rw [decode_encode_fields]
  simp [Instr.fields, decodeFields, decodeU, needZero]

theorem DecodeEncode.rdstat : DecodeEncode.Statement Instr.rdstat := by
  intro _
  rw [decode_encode_fields]
  simp [Instr.fields, decodeFields, decodeN, needZero]

theorem DecodeEncode.clrstat : DecodeEncode.Statement Instr.clrstat := by
  intro _
  rw [decode_encode_fields]
  simp [Instr.fields, decodeFields, decodeN, needZero]

theorem DecodeEncode.and (rd ra rb : Reg) : DecodeEncode.Statement (Instr.and rd ra rb) := by
  intro _
  rw [decode_encode_fields]
  simp [Instr.fields, decodeFields, decodeR, needZero, Fields.low12, Fields.rb, lowRegs_rb, lowRegs_low12]

theorem DecodeEncode.or (rd ra rb : Reg) : DecodeEncode.Statement (Instr.or rd ra rb) := by
  intro _
  rw [decode_encode_fields]
  simp [Instr.fields, decodeFields, decodeR, needZero, Fields.low12, Fields.rb, lowRegs_rb, lowRegs_low12]

theorem DecodeEncode.xor (rd ra rb : Reg) : DecodeEncode.Statement (Instr.xor rd ra rb) := by
  intro _
  rw [decode_encode_fields]
  simp [Instr.fields, decodeFields, decodeR, needZero, Fields.low12, Fields.rb, lowRegs_rb, lowRegs_low12]

theorem DecodeEncode.not (rd ra : Reg) : DecodeEncode.Statement (Instr.not rd ra) := by
  intro _
  rw [decode_encode_fields]
  simp [Instr.fields, decodeFields, decodeU, needZero]

theorem DecodeEncode.shl (rd ra rb : Reg) : DecodeEncode.Statement (Instr.shl rd ra rb) := by
  intro _
  rw [decode_encode_fields]
  simp [Instr.fields, decodeFields, decodeR, needZero, Fields.low12, Fields.rb, lowRegs_rb, lowRegs_low12]

theorem DecodeEncode.shr (rd ra rb : Reg) : DecodeEncode.Statement (Instr.shr rd ra rb) := by
  intro _
  rw [decode_encode_fields]
  simp [Instr.fields, decodeFields, decodeR, needZero, Fields.low12, Fields.rb, lowRegs_rb, lowRegs_low12]

theorem DecodeEncode.eq (rd ra rb : Reg) : DecodeEncode.Statement (Instr.eq rd ra rb) := by
  intro _
  rw [decode_encode_fields]
  simp [Instr.fields, decodeFields, decodeR, needZero, Fields.low12, Fields.rb, lowRegs_rb, lowRegs_low12]

theorem DecodeEncode.ne (rd ra rb : Reg) : DecodeEncode.Statement (Instr.ne rd ra rb) := by
  intro _
  rw [decode_encode_fields]
  simp [Instr.fields, decodeFields, decodeR, needZero, Fields.low12, Fields.rb, lowRegs_rb, lowRegs_low12]

theorem DecodeEncode.lt (rd ra rb : Reg) : DecodeEncode.Statement (Instr.lt rd ra rb) := by
  intro _
  rw [decode_encode_fields]
  simp [Instr.fields, decodeFields, decodeR, needZero, Fields.low12, Fields.rb, lowRegs_rb, lowRegs_low12]

theorem DecodeEncode.gt (rd ra rb : Reg) : DecodeEncode.Statement (Instr.gt rd ra rb) := by
  intro _
  rw [decode_encode_fields]
  simp [Instr.fields, decodeFields, decodeR, needZero, Fields.low12, Fields.rb, lowRegs_rb, lowRegs_low12]

theorem DecodeEncode.le (rd ra rb : Reg) : DecodeEncode.Statement (Instr.le rd ra rb) := by
  intro _
  rw [decode_encode_fields]
  simp [Instr.fields, decodeFields, decodeR, needZero, Fields.low12, Fields.rb, lowRegs_rb, lowRegs_low12]

theorem DecodeEncode.ge (rd ra rb : Reg) : DecodeEncode.Statement (Instr.ge rd ra rb) := by
  intro _
  rw [decode_encode_fields]
  simp [Instr.fields, decodeFields, decodeR, needZero, Fields.low12, Fields.rb, lowRegs_rb, lowRegs_low12]

theorem DecodeEncode.add (rd ra rb : Reg) : DecodeEncode.Statement (Instr.add rd ra rb) := by
  intro _
  rw [decode_encode_fields]
  simp [Instr.fields, decodeFields, decodeR, needZero, Fields.low12, Fields.rb, lowRegs_rb, lowRegs_low12]

theorem DecodeEncode.sub (rd ra rb : Reg) : DecodeEncode.Statement (Instr.sub rd ra rb) := by
  intro _
  rw [decode_encode_fields]
  simp [Instr.fields, decodeFields, decodeR, needZero, Fields.low12, Fields.rb, lowRegs_rb, lowRegs_low12]

theorem DecodeEncode.neg (rd ra : Reg) : DecodeEncode.Statement (Instr.neg rd ra) := by
  intro _
  rw [decode_encode_fields]
  simp [Instr.fields, decodeFields, decodeU, needZero]

theorem DecodeEncode.inc (rd : Reg) : DecodeEncode.Statement (Instr.inc rd) := by
  intro _
  rw [decode_encode_fields]
  simp [Instr.fields, decodeFields, decodeD, needZero]

theorem DecodeEncode.dec (rd : Reg) : DecodeEncode.Statement (Instr.dec rd) := by
  intro _
  rw [decode_encode_fields]
  simp [Instr.fields, decodeFields, decodeD, needZero]

theorem DecodeEncode.pinc (rd ra : Reg) : DecodeEncode.Statement (Instr.pinc rd ra) := by
  intro h
  have h' : (rd == ra) = false := by simpa [Instr.WellFormed, Instr.wellFormed] using h
  rw [decode_encode_fields]
  simp [Instr.fields, decodeFields, decodeUPair, needZero, regField_beq, h', -beq_iff_eq]

theorem DecodeEncode.pdec (rd ra : Reg) : DecodeEncode.Statement (Instr.pdec rd ra) := by
  intro h
  have h' : (rd == ra) = false := by simpa [Instr.WellFormed, Instr.wellFormed] using h
  rw [decode_encode_fields]
  simp [Instr.fields, decodeFields, decodeUPair, needZero, regField_beq, h', -beq_iff_eq]

theorem DecodeEncode.mul (rd ra rb : Reg) : DecodeEncode.Statement (Instr.mul rd ra rb) := by
  intro _
  rw [decode_encode_fields]
  simp [Instr.fields, decodeFields, decodeR, needZero, Fields.low12, Fields.rb, lowRegs_rb, lowRegs_low12]

theorem DecodeEncode.divmod (rd re ra rb : Reg) : DecodeEncode.Statement (Instr.divmod rd re ra rb) := by
  intro h
  have h' : (rd == re) = false := by simpa [Instr.WellFormed, Instr.wellFormed] using h
  rw [decode_encode_fields]
  simp [Instr.fields, decodeFields, decodeQ, needZero, Fields.low8, Fields.rb, Fields.re, lowRegs_rb, lowRegs_re,
    lowRegs_low8, regField_beq, h', -beq_iff_eq]

theorem DecodeEncode.div (rd ra rb : Reg) : DecodeEncode.Statement (Instr.div rd ra rb) := by
  intro _
  rw [decode_encode_fields]
  simp [Instr.fields, decodeFields, decodeR, needZero, Fields.low12, Fields.rb, lowRegs_rb, lowRegs_low12]

theorem DecodeEncode.mod (rd ra rb : Reg) : DecodeEncode.Statement (Instr.mod rd ra rb) := by
  intro _
  rw [decode_encode_fields]
  simp [Instr.fields, decodeFields, decodeR, needZero, Fields.low12, Fields.rb, lowRegs_rb, lowRegs_low12]

theorem DecodeEncode.str (ra : Reg) (base : BitVec 6) (minlen : BitVec 10) : DecodeEncode.Statement (Instr.str ra base minlen) := by
  intro h
  have h' : baseLegal base = true := h
  rw [decode_encode_fields]
  simp [Instr.fields, decodeFields, decodeS, needZero, Fields.base, Fields.minlen, lowString_base, lowString_minlen, h']

theorem DecodeEncode.rdsl : DecodeEncode.Statement Instr.rdsl := by
  intro _
  rw [decode_encode_fields]
  simp [Instr.fields, decodeFields, decodeN, needZero]

theorem DecodeEncode.rdsc (idx : BitVec 16) : DecodeEncode.Statement (Instr.rdsc idx) := by
  intro _
  rw [decode_encode_fields]
  simp [Instr.fields, decodeFields, decodeX, needZero]

theorem DecodeEncode.andi (rd ra : Reg) (imm : BitVec 16) : DecodeEncode.Statement (Instr.andi rd ra imm) := by
  intro _
  rw [decode_encode_fields]
  simp [Instr.fields, decodeFields, decodeI]

theorem DecodeEncode.ori (rd ra : Reg) (imm : BitVec 16) : DecodeEncode.Statement (Instr.ori rd ra imm) := by
  intro _
  rw [decode_encode_fields]
  simp [Instr.fields, decodeFields, decodeI]

theorem DecodeEncode.xori (rd ra : Reg) (imm : BitVec 16) : DecodeEncode.Statement (Instr.xori rd ra imm) := by
  intro _
  rw [decode_encode_fields]
  simp [Instr.fields, decodeFields, decodeI]

theorem DecodeEncode.shli (rd ra : Reg) (imm : BitVec 16) : DecodeEncode.Statement (Instr.shli rd ra imm) := by
  intro _
  rw [decode_encode_fields]
  simp [Instr.fields, decodeFields, decodeI]

theorem DecodeEncode.shri (rd ra : Reg) (imm : BitVec 16) : DecodeEncode.Statement (Instr.shri rd ra imm) := by
  intro _
  rw [decode_encode_fields]
  simp [Instr.fields, decodeFields, decodeI]

theorem DecodeEncode.eqi (rd ra : Reg) (imm : BitVec 16) : DecodeEncode.Statement (Instr.eqi rd ra imm) := by
  intro _
  rw [decode_encode_fields]
  simp [Instr.fields, decodeFields, decodeI]

theorem DecodeEncode.nei (rd ra : Reg) (imm : BitVec 16) : DecodeEncode.Statement (Instr.nei rd ra imm) := by
  intro _
  rw [decode_encode_fields]
  simp [Instr.fields, decodeFields, decodeI]

theorem DecodeEncode.lti (rd ra : Reg) (imm : BitVec 16) : DecodeEncode.Statement (Instr.lti rd ra imm) := by
  intro _
  rw [decode_encode_fields]
  simp [Instr.fields, decodeFields, decodeI]

theorem DecodeEncode.gti (rd ra : Reg) (imm : BitVec 16) : DecodeEncode.Statement (Instr.gti rd ra imm) := by
  intro _
  rw [decode_encode_fields]
  simp [Instr.fields, decodeFields, decodeI]

theorem DecodeEncode.lei (rd ra : Reg) (imm : BitVec 16) : DecodeEncode.Statement (Instr.lei rd ra imm) := by
  intro _
  rw [decode_encode_fields]
  simp [Instr.fields, decodeFields, decodeI]

theorem DecodeEncode.gei (rd ra : Reg) (imm : BitVec 16) : DecodeEncode.Statement (Instr.gei rd ra imm) := by
  intro _
  rw [decode_encode_fields]
  simp [Instr.fields, decodeFields, decodeI]

theorem DecodeEncode.addi (rd ra : Reg) (imm : BitVec 16) : DecodeEncode.Statement (Instr.addi rd ra imm) := by
  intro _
  rw [decode_encode_fields]
  simp [Instr.fields, decodeFields, decodeI]

theorem DecodeEncode.subi (rd ra : Reg) (imm : BitVec 16) : DecodeEncode.Statement (Instr.subi rd ra imm) := by
  intro _
  rw [decode_encode_fields]
  simp [Instr.fields, decodeFields, decodeI]

theorem DecodeEncode.muli (rd ra : Reg) (imm : BitVec 16) : DecodeEncode.Statement (Instr.muli rd ra imm) := by
  intro _
  rw [decode_encode_fields]
  simp [Instr.fields, decodeFields, decodeI]

theorem DecodeEncode.divi (rd ra : Reg) (imm : BitVec 16) : DecodeEncode.Statement (Instr.divi rd ra imm) := by
  intro _
  rw [decode_encode_fields]
  simp [Instr.fields, decodeFields, decodeI]

theorem DecodeEncode.modi (rd ra : Reg) (imm : BitVec 16) : DecodeEncode.Statement (Instr.modi rd ra imm) := by
  intro _
  rw [decode_encode_fields]
  simp [Instr.fields, decodeFields, decodeI]

end Sys2Proof.Laws
end

