-- ==== Sys2Proof/Laws/Step.lean ====
section
/-! SUPPORT. What one step can do (20_memory.md R44; 70_reset_and_hazards.md R230): exactly one of four cases. -/

namespace Sys2Proof.Machine

/-- The inversion of `step`: reset is taken, the block waits, a legal command runs, or an illegal word
faults. -/
theorem step_cases (s : State) :
    (s.resetLine = true ∧ step s = .next s.takeReset) ∨
    (s.resetLine = false ∧ s.pending = [] ∧ step s = .next s) ∨
    (∃ t rest i, s.resetLine = false ∧ s.pending = t :: rest ∧ decode t.cmd = .ok i ∧ step s = exec i s) ∨
    (∃ t rest e, s.resetLine = false ∧ s.pending = t :: rest ∧ decode t.cmd = .error e ∧
      step s = .next (s.raise .illegalCommand)) := by
  unfold step
  cases hr : s.resetLine with
  | true => exact .inl ⟨rfl, by simp⟩
  | false =>
    refine .inr ?_
    cases hp : s.pending with
    | nil => exact .inl ⟨rfl, rfl, by simp⟩
    | cons t rest =>
      refine .inr ?_
      cases hd : decode t.cmd with
      | ok i => exact .inl ⟨t, rest, i, rfl, rfl, hd, by simp [hd]⟩
      | error e => exact .inr ⟨t, rest, e, rfl, rfl, hd, by simp [hd, fail]⟩

/-- `withFetchWord` puts the word at the head of the command port, with reset not asserted. -/
theorem withFetchWord_head (s : State) (nbits w : Nat) :
    ∃ d, (s.withFetchWord nbits w).pending = ⟨BitVec.ofNat 32 (w % 2 ^ nbits), d⟩ :: s.pending.tail ∧
      (s.withFetchWord nbits w).resetLine = false := by
  unfold State.withFetchWord
  cases s.pending with
  | nil => exact ⟨_, rfl, rfl⟩
  | cons t rest => exact ⟨_, rfl, rfl⟩

/-- One more step of a run, for any machine. -/
theorem run_succ_of_next (M : Host.Core) (k : Nat) (s u : M.State) (h : M.step s = .next u) :
    M.run (k + 1) s = M.run k u := by
  rw [Host.Core.run, h]

end Sys2Proof.Machine
end

