-- ==== Sys2Proof/Laws/StringConv.lean ====
section
/-! SUPPORT. The digit loop writes the base digits of the value, most significant first (47_string.md R190,
R191), in at most 256 rounds (70_reset_and_hazards.md R238). -/

namespace Sys2Proof.Machine

/-- The loop from any value that its rounds suffice for: the digits of the value to the left of what stood. -/
theorem digitLoop_eq (base : Value) (hb : 2 ≤ base.toNat) (n : Nat) (v : Value) (out : List Byte)
    (hv : v.toNat < 2 ^ n) :
    digitLoop base n v out = ((Nat.digits base.toNat v.toNat).map digitChar).reverse ++ out := by
  induction n generalizing v out with
  | zero =>
    have : v.toNat = 0 := by simpa using hv
    simp [digitLoop, this]
  | succ n ih =>
    unfold digitLoop
    split
    · next h => simp [h, Value.zero_toNat]
    · next h =>
      have hv0 : v.toNat ≠ 0 := fun e => h (Value.toNat_eq_zero.mp e)
      obtain ⟨q, d, hqd, hq, hd⟩ := divmod256_spec v base (by omega)
      have hqlt : q.toNat < 2 ^ n := by
        rw [hq]
        refine (Nat.div_lt_iff_lt_mul (by omega)).mpr (Nat.lt_of_lt_of_le hv ?_)
        rw [pow_succ]
        exact Nat.mul_le_mul_left _ hb
      simp only [hqd]
      rw [ih q _ hqlt, Nat.digits_def' (by omega) (Nat.pos_of_ne_zero hv0), hq, hd]
      simp

/-- The base field as the divisor of the loop. -/
theorem base_toNat (base : BitVec 6) : (⟨0#128, base.setWidth 128⟩ : Value).toNat = base.toNat := by
  have := base.isLt
  simp only [Value.toNat, BitVec.toNat_setWidth, BitVec.toNat_ofNat]
  omega

theorem baseLegal_iff (base : BitVec 6) : baseLegal base = true ↔ 2 ≤ base.toNat ∧ base.toNat ≤ 36 := by
  rw [baseLegal, Bool.and_eq_true, decide_eq_true_eq, decide_eq_true_eq]
  exact Iff.rfl

/-- The characters before padding: the digits of the value, most significant first, or a single "0". -/
def plainDigits (v base : Nat) : List Byte :=
  if v = 0 then [zeroChar] else ((Nat.digits base v).map digitChar).reverse

/-- R190: everything `str` gives for a legal base. -/
theorem strOf_eq (v : Value) (base : BitVec 6) (minlen : Nat) (hb : 2 ≤ base.toNat) :
    strOf v base minlen = padLeft minlen (plainDigits v.toNat base.toNat) := by
  unfold strOf plainDigits
  split
  · next h => simp [h, Value.zero_toNat]
  · next h =>
    have hv0 : v.toNat ≠ 0 := fun e => h (Value.toNat_eq_zero.mp e)
    rw [if_neg hv0, digitLoop_eq _ (by rw [base_toNat]; exact hb) 256 v [] v.toNat_lt, base_toNat]
    simp

theorem padLeft_length (minlen : Nat) (out : List Byte) :
    (padLeft minlen out).length = max minlen out.length := by
  simp only [padLeft, List.length_append, List.length_replicate]
  omega

/-- A value has at most 256 digits (base 2, R190), and at least one. -/
theorem plainDigits_length (v base : Nat) (hb : 2 ≤ base) (hv : v < 2 ^ 256) :
    1 ≤ (plainDigits v base).length ∧ (plainDigits v base).length ≤ 256 := by
  unfold plainDigits
  split
  · simp
  · next h =>
    simp only [List.length_reverse, List.length_map]
    constructor
    · exact List.length_pos_iff.mpr (Nat.digits_ne_nil_iff_ne_zero.mpr h)
    · rw [Nat.digits_length_le_iff hb]
      exact Nat.lt_of_lt_of_le hv (Nat.pow_le_pow_left hb 256)

/-- R191 read back: the value of a digit's character is the digit. -/
theorem charValue_digitChar (d : Nat) (hd : d < 36) : charValue (digitChar d) = d := by
  revert d
  decide

theorem charValue_zeroChar : charValue zeroChar = 0 := by decide

end Sys2Proof.Machine
end

