-- ==== Sys2Proof/Laws/Words.lean ====
section
/-! SUPPORT. A word written as the sum of its fields (Safety.lean `cmdWord`, `cmdR`, ...) decodes as those
fields (30_encoding.md R61): one lemma for each format. -/

namespace Sys2Proof.Machine

theorem cmdWord_toNat (op rd ra low : Nat) (h1 : op < 256) (h2 : rd < 16) (h3 : ra < 16) (h4 : low < 65536) :
    (cmdWord op rd ra low).toNat = op * 16777216 + rd * 1048576 + ra * 65536 + low := by
  simp only [cmdWord, BitVec.toNat_ofNat, Nat.reducePow]
  exact Nat.mod_eq_of_lt (by omega)

theorem sum_op (op rd ra low : Nat) (h2 : rd < 16) (h3 : ra < 16) (h4 : low < 65536) :
    (op * 16777216 + rd * 1048576 + ra * 65536 + low) / 16777216 % 256 = op % 256 := by omega

theorem sum_rd (op rd ra low : Nat) (h3 : ra < 16) (h4 : low < 65536) :
    (op * 16777216 + rd * 1048576 + ra * 65536 + low) / 1048576 % 16 = rd % 16 := by omega

theorem sum_ra (op rd ra low : Nat) (h4 : low < 65536) :
    (op * 16777216 + rd * 1048576 + ra * 65536 + low) / 65536 % 16 = ra % 16 := by omega

theorem sum_low (op rd ra low : Nat) :
    (op * 16777216 + rd * 1048576 + ra * 65536 + low) % 65536 = low % 65536 := by omega

theorem word_op (w : CmdWord) : (w.extractLsb' 24 8).toNat = w.toNat / 16777216 % 256 := by
  rw [BitVec.extractLsb'_toNat, Nat.shiftRight_eq_div_pow]

theorem word_rd (w : CmdWord) : (w.extractLsb' 20 4).toNat = w.toNat / 1048576 % 16 := by
  rw [BitVec.extractLsb'_toNat, Nat.shiftRight_eq_div_pow]

theorem word_ra (w : CmdWord) : (w.extractLsb' 16 4).toNat = w.toNat / 65536 % 16 := by
  rw [BitVec.extractLsb'_toNat, Nat.shiftRight_eq_div_pow]

theorem word_low (w : CmdWord) : (w.extractLsb' 0 16).toNat = w.toNat % 65536 := by
  rw [BitVec.extractLsb'_toNat, Nat.shiftRight_zero]

/-- The word cut into fields gives the summands back. -/
theorem ofWord_cmdWord (op rd ra low : Nat) (h1 : op < 256) (h2 : rd < 16) (h3 : ra < 16) (h4 : low < 65536) :
    Fields.ofWord (cmdWord op rd ra low) =
      ⟨BitVec.ofNat 8 op, BitVec.ofNat 4 rd, BitVec.ofNat 4 ra, BitVec.ofNat 16 low⟩ := by
  have hw := cmdWord_toNat op rd ra low h1 h2 h3 h4
  generalize cmdWord op rd ra low = w at hw
  rw [Fields.ofWord, Fields.mk.injEq]
  refine ⟨BitVec.eq_of_toNat_eq ?_, BitVec.eq_of_toNat_eq ?_, BitVec.eq_of_toNat_eq ?_,
    BitVec.eq_of_toNat_eq ?_⟩
  · rw [word_op, hw, BitVec.toNat_ofNat]
    exact sum_op op rd ra low h2 h3 h4
  · rw [word_rd, hw, BitVec.toNat_ofNat]
    exact sum_rd op rd ra low h3 h4
  · rw [word_ra, hw, BitVec.toNat_ofNat]
    exact sum_ra op rd ra low h4
  · rw [word_low, hw, BitVec.toNat_ofNat]
    exact sum_low op rd ra low

theorem decode_cmdWord (op rd ra low : Nat) (h1 : op < 256) (h2 : rd < 16) (h3 : ra < 16) (h4 : low < 65536) :
    decode (cmdWord op rd ra low) =
      decodeFields ⟨BitVec.ofNat 8 op, BitVec.ofNat 4 rd, BitVec.ofNat 4 ra, BitVec.ofNat 16 low⟩ := by
  rw [decode, ofWord_cmdWord op rd ra low h1 h2 h3 h4]

theorem ofNat_rb (rb : Reg) : BitVec.ofNat 16 (rb.val * 2 ^ 12) = lowRegs (regField rb) 0#4 := by
  revert rb
  decide

theorem ofNat_rb_re (rb re : Reg) :
    BitVec.ofNat 16 (rb.val * 2 ^ 12 + re.val * 2 ^ 8) = lowRegs (regField rb) (regField re) := by
  revert rb re
  decide

theorem ofNat_wsel (k : Fin 16) : BitVec.ofNat 16 (k.val * 2 ^ 12) = lowWidth (regField k) := by
  revert k
  decide

theorem ofNat_base_minlen (base : BitVec 6) (minlen : BitVec 10) :
    BitVec.ofNat 16 (base.toNat * 2 ^ 10 + minlen.toNat) = lowString base minlen := by
  have hb := base.isLt
  have hm := minlen.isLt
  apply BitVec.eq_of_toNat_eq
  rw [lowString, BitVec.toNat_append, ← Nat.shiftLeft_add_eq_or_of_lt hm, Nat.shiftLeft_eq, BitVec.toNat_ofNat]
  omega

theorem decode_cmdR (op : Nat) (rd ra rb : Reg) (h : op < 256) : decode (cmdR op rd ra rb) =
    decodeFields ⟨BitVec.ofNat 8 op, regField rd, regField ra, lowRegs (regField rb) 0#4⟩ := by
  rw [cmdR, decode_cmdWord _ _ _ _ h rd.isLt ra.isLt (by have := rb.isLt; omega), ofNat_rb]
  rfl

theorem decode_cmdI (op : Nat) (rd ra : Reg) (imm : BitVec 16) (h : op < 256) : decode (cmdI op rd ra imm) =
    decodeFields ⟨BitVec.ofNat 8 op, regField rd, regField ra, imm⟩ := by
  rw [cmdI, decode_cmdWord _ _ _ _ h rd.isLt ra.isLt imm.isLt, BitVec.ofNat_toNat, BitVec.setWidth_eq]
  rfl

theorem decode_cmdU (op : Nat) (rd ra : Reg) (h : op < 256) : decode (cmdU op rd ra) =
    decodeFields ⟨BitVec.ofNat 8 op, regField rd, regField ra, 0#16⟩ := by
  rw [cmdU, decode_cmdWord _ _ _ _ h rd.isLt ra.isLt (by decide)]
  rfl

theorem decode_cmdD (op : Nat) (rd : Reg) (h : op < 256) : decode (cmdD op rd) =
    decodeFields ⟨BitVec.ofNat 8 op, regField rd, 0#4, 0#16⟩ := by
  rw [cmdD, decode_cmdWord _ _ _ _ h rd.isLt (by decide) (by decide)]
  rfl

theorem decode_cmdA (op : Nat) (ra : Reg) (h : op < 256) : decode (cmdA op ra) =
    decodeFields ⟨BitVec.ofNat 8 op, 0#4, regField ra, 0#16⟩ := by
  rw [cmdA, decode_cmdWord _ _ _ _ h (by decide) ra.isLt (by decide)]
  rfl

theorem decode_cmdL (op : Nat) (rd : Reg) (k : Fin 16) (h : op < 256) : decode (cmdL op rd k) =
    decodeFields ⟨BitVec.ofNat 8 op, regField rd, 0#4, lowWidth (regField k)⟩ := by
  rw [cmdL, decode_cmdWord _ _ _ _ h rd.isLt (by decide) (by have := k.isLt; omega), ofNat_wsel]
  rfl

theorem decode_cmdG (op : Nat) (ra : Reg) (k : Fin 16) (h : op < 256) : decode (cmdG op ra k) =
    decodeFields ⟨BitVec.ofNat 8 op, 0#4, regField ra, lowWidth (regField k)⟩ := by
  rw [cmdG, decode_cmdWord _ _ _ _ h (by decide) ra.isLt (by have := k.isLt; omega), ofNat_wsel]
  rfl

theorem decode_cmdQ (op : Nat) (rd ra rb re : Reg) (h : op < 256) : decode (cmdQ op rd ra rb re) =
    decodeFields ⟨BitVec.ofNat 8 op, regField rd, regField ra, lowRegs (regField rb) (regField re)⟩ := by
  rw [cmdQ, decode_cmdWord _ _ _ _ h rd.isLt ra.isLt (by have := rb.isLt; have := re.isLt; omega), ofNat_rb_re]
  rfl

theorem decode_cmdS (op : Nat) (ra : Reg) (base : BitVec 6) (minlen : BitVec 10) (h : op < 256) :
    decode (cmdS op ra base minlen) =
      decodeFields ⟨BitVec.ofNat 8 op, 0#4, regField ra, lowString base minlen⟩ := by
  rw [cmdS, decode_cmdWord _ _ _ _ h (by decide) ra.isLt (by have := base.isLt; have := minlen.isLt; omega),
    ofNat_base_minlen]
  rfl

theorem decode_cmdX (op : Nat) (idx : BitVec 16) (h : op < 256) : decode (cmdX op idx) =
    decodeFields ⟨BitVec.ofNat 8 op, 0#4, 0#4, idx⟩ := by
  rw [cmdX, decode_cmdWord _ _ _ _ h (by decide) (by decide) idx.isLt, BitVec.ofNat_toNat, BitVec.setWidth_eq]

theorem decode_cmdN (op : Nat) (h : op < 256) : decode (cmdN op) =
    decodeFields ⟨BitVec.ofNat 8 op, 0#4, 0#4, 0#16⟩ := by
  rw [cmdN, decode_cmdWord _ _ _ _ h (by decide) (by decide) (by decide)]

end Sys2Proof.Machine
end

