-- ==== Sys2Proof/Tests/Slice0.lean ====
section
/-! SUPPORT. Tests of the model against words and values of the spec: encodings from 30_encoding.md R61, R62 and
section 6, results from 95_test_vectors.md and 96_test_vectors_part2.md; and one witness for every statement of
Obligations.lean that has hypotheses. -/

set_option Elab.async false
set_option maxRecDepth 4096

open Sys2Proof Sys2Proof.Machine

namespace Sys2Proof.Tests

/-! ### Helpers -/

/-- The operand `G` of the vectors (95_test_vectors.md, notation). -/
def G : Value := ⟨0x0123456789ABCDEFFEDCBA9876543210#128, 0x0F1E2D3C4B5A69788796A5B4C3D2E1F0#128⟩

/-- The operand `H` of the vectors. -/
def H : Value := ⟨0x80000000000000000000000000000001#128, 0xFFFFFFFFFFFFFFFF0000000000000003#128⟩

/-- All 256 bits one. -/
def ones : Value := ⟨0xFFFFFFFFFFFFFFFFFFFFFFFFFFFFFFFF#128, 0xFFFFFFFFFFFFFFFFFFFFFFFFFFFFFFFF#128⟩

/-- The reset state with some registers set. -/
def regsOf (rs : List (Reg × Value)) : State := rs.foldl (fun s r => s.setReg r.1 r.2) State.reset

/-- `regsOf` with one command presented. -/
def start (rs : List (Reg × Value)) (cmd : CmdWord) (wdata : Value) : State :=
  (regsOf rs).present cmd wdata.toPort

/-- One step answers with one response of this code and `rdata`, and leaves these registers. -/
def gives (s : State) (code : BitVec 2) (rdata : Value) (after : List (Reg × Value)) : Bool :=
  match step s with
  | .next t => (t.responses.map fun r => (r.status.code, r.rdata)) == [(code, rdata.toPort)] &&
      after.all (fun r => t.reg r.1 == r.2) && t.pending == []
  | .fault _ => false
  | .refused _ => false

/-- What one step makes of `S` and `STATUS`. -/
def leaves (s : State) (str : List Byte) (status : StatusReg) : Bool :=
  match step s with
  | .next t => t.str == str && t.status == status
  | .fault _ => false
  | .refused _ => false

/-! ### WellFormed refuses the ill-formed commands (R63 lines 4 to 6, R69) -/

theorem test_pinc_same_pair_ill_formed : (Instr.pinc 3 3).wellFormed = false := by decide
theorem test_pdec_same_pair_ill_formed : (Instr.pdec 0 0).wellFormed = false := by decide
theorem test_divmod_same_pair_ill_formed : (Instr.divmod 3 3 1 2).wellFormed = false := by decide
theorem test_str_base_ill_formed : (Instr.str 1 0#6 0#10).wellFormed = false ∧
    (Instr.str 1 1#6 0#10).wellFormed = false ∧ (Instr.str 1 37#6 0#10).wellFormed = false ∧
    (Instr.str 1 63#6 0#10).wellFormed = false := by decide
theorem test_well_formed_edges : (Instr.str 1 2#6 0#10).wellFormed = true ∧
    (Instr.str 1 36#6 1023#10).wellFormed = true ∧ (Instr.divmod 3 4 3 4).wellFormed = true ∧
    (Instr.pinc 2 1).wellFormed = true := by decide

/-! ### Decoding: words written out field by field from R61 and R62 -/

/-- Format D: opcode rd 0. -/
theorem test_decode_format_D :
    decode 0b00000001_0101_00000000000000000000#32 = .ok (.clr 5) ∧
    decode 0b00000101_0101_00000000000000000000#32 = .ok (.ldp 5) ∧
    decode 0b01000011_0101_00000000000000000000#32 = .ok (.inc 5) ∧
    decode 0b01000100_0101_00000000000000000000#32 = .ok (.dec 5) := by decide

/-- Format U: opcode rd ra 0. -/
theorem test_decode_format_U :
    decode 0b00000010_0101_1010_0000000000000000#32 = .ok (.mov 5 10) ∧
    decode 0b00001001_0101_1010_0000000000000000#32 = .ok (.bool 5 10) ∧
    decode 0b00001010_0101_1010_0000000000000000#32 = .ok (.bits 5 10) ∧
    decode 0b00010011_0101_1010_0000000000000000#32 = .ok (.not 5 10) ∧
    decode 0b01000010_0101_1010_0000000000000000#32 = .ok (.neg 5 10) ∧
    decode 0b01000101_0101_1010_0000000000000000#32 = .ok (.pinc 5 10) ∧
    decode 0b01000110_0101_1010_0000000000000000#32 = .ok (.pdec 5 10) := by decide

/-- Format L: opcode rd 0 wsel 0. -/
theorem test_decode_format_L_1 :
    decode 0b00000011_0101_0000_0000_000000000000#32 = .ok (.ldz8 5) ∧
    decode 0b00000011_0101_0000_0001_000000000000#32 = .ok (.ldz16 5) ∧
    decode 0b00000011_0101_0000_0010_000000000000#32 = .ok (.ldz32 5) ∧
    decode 0b00000011_0101_0000_0011_000000000000#32 = .ok (.ldz64 5) ∧
    decode 0b00000011_0101_0000_0100_000000000000#32 = .ok (.ldz128 5) ∧
    decode 0b00000100_0101_0000_0000_000000000000#32 = .ok (.lds8 5) ∧
    decode 0b00000100_0101_0000_0001_000000000000#32 = .ok (.lds16 5) ∧
    decode 0b00000100_0101_0000_0010_000000000000#32 = .ok (.lds32 5) ∧
    decode 0b00000100_0101_0000_0011_000000000000#32 = .ok (.lds64 5) := by decide

theorem test_decode_format_L_2 :
    decode 0b00000100_0101_0000_0100_000000000000#32 = .ok (.lds128 5) := by decide

/-- Format G: opcode 0 ra wsel 0. -/
theorem test_decode_format_G :
    decode 0b00000110_0000_1010_0000_000000000000#32 = .ok (.rd8 10) ∧
    decode 0b00000110_0000_1010_0001_000000000000#32 = .ok (.rd16 10) ∧
    decode 0b00000110_0000_1010_0010_000000000000#32 = .ok (.rd32 10) ∧
    decode 0b00000110_0000_1010_0011_000000000000#32 = .ok (.rd64 10) ∧
    decode 0b00000110_0000_1010_0100_000000000000#32 = .ok (.rd128 10) := by decide

/-- Format A: opcode 0 ra 0. -/
theorem test_decode_format_A :
    decode 0b00000111_0000_1010_0000000000000000#32 = .ok (.rdu 10) ∧
    decode 0b00001000_0000_1010_0000000000000000#32 = .ok (.rdv 10) := by decide

/-- Format N: opcode, 24 zeros. -/
theorem test_decode_format_N :
    decode 0b00001110_000000000000000000000000#32 = .ok (.rdstat) ∧
    decode 0b00001111_000000000000000000000000#32 = .ok (.clrstat) ∧
    decode 0b01110001_000000000000000000000000#32 = .ok (.rdsl) := by decide

/-- Format R: opcode rd ra rb 0. -/
theorem test_decode_format_R_1 :
    decode 0b00010000_0101_1010_0011_000000000000#32 = .ok (.and 5 10 3) ∧
    decode 0b00010001_0101_1010_0011_000000000000#32 = .ok (.or 5 10 3) ∧
    decode 0b00010010_0101_1010_0011_000000000000#32 = .ok (.xor 5 10 3) ∧
    decode 0b00100000_0101_1010_0011_000000000000#32 = .ok (.shl 5 10 3) ∧
    decode 0b00100001_0101_1010_0011_000000000000#32 = .ok (.shr 5 10 3) ∧
    decode 0b00110000_0101_1010_0011_000000000000#32 = .ok (.eq 5 10 3) ∧
    decode 0b00110001_0101_1010_0011_000000000000#32 = .ok (.ne 5 10 3) ∧
    decode 0b00110010_0101_1010_0011_000000000000#32 = .ok (.lt 5 10 3) ∧
    decode 0b00110011_0101_1010_0011_000000000000#32 = .ok (.gt 5 10 3) := by decide

theorem test_decode_format_R_2 :
    decode 0b00110100_0101_1010_0011_000000000000#32 = .ok (.le 5 10 3) ∧
    decode 0b00110101_0101_1010_0011_000000000000#32 = .ok (.ge 5 10 3) ∧
    decode 0b01000000_0101_1010_0011_000000000000#32 = .ok (.add 5 10 3) ∧
    decode 0b01000001_0101_1010_0011_000000000000#32 = .ok (.sub 5 10 3) ∧
    decode 0b01010000_0101_1010_0011_000000000000#32 = .ok (.mul 5 10 3) ∧
    decode 0b01100001_0101_1010_0011_000000000000#32 = .ok (.div 5 10 3) ∧
    decode 0b01100010_0101_1010_0011_000000000000#32 = .ok (.mod 5 10 3) := by decide

/-- Format Q: opcode rd ra rb re 0. -/
theorem test_decode_format_Q :
    decode 0b01100000_0101_1010_0011_1100_00000000#32 = .ok (.divmod 5 12 10 3) := by decide

/-- Format S: opcode 0 ra base minlen. -/
theorem test_decode_format_S :
    decode 0b01110000_0000_1010_100100_1111111110#32 = .ok (.str 10 36#6 1022#10) := by decide

/-- Format X: opcode 0 0 idx. -/
theorem test_decode_format_X :
    decode 0b01110010_0000_0000_1011111011101111#32 = .ok (.rdsc 0xbeef#16) := by decide

/-- Format I: opcode rd ra imm16. -/
theorem test_decode_format_I_1 :
    decode 0b10010000_0101_1010_1011111011101111#32 = .ok (.andi 5 10 0xbeef#16) ∧
    decode 0b10010001_0101_1010_1011111011101111#32 = .ok (.ori 5 10 0xbeef#16) ∧
    decode 0b10010010_0101_1010_1011111011101111#32 = .ok (.xori 5 10 0xbeef#16) ∧
    decode 0b10100000_0101_1010_1011111011101111#32 = .ok (.shli 5 10 0xbeef#16) ∧
    decode 0b10100001_0101_1010_1011111011101111#32 = .ok (.shri 5 10 0xbeef#16) ∧
    decode 0b10110000_0101_1010_1011111011101111#32 = .ok (.eqi 5 10 0xbeef#16) ∧
    decode 0b10110001_0101_1010_1011111011101111#32 = .ok (.nei 5 10 0xbeef#16) ∧
    decode 0b10110010_0101_1010_1011111011101111#32 = .ok (.lti 5 10 0xbeef#16) ∧
    decode 0b10110011_0101_1010_1011111011101111#32 = .ok (.gti 5 10 0xbeef#16) := by decide

theorem test_decode_format_I_2 :
    decode 0b10110100_0101_1010_1011111011101111#32 = .ok (.lei 5 10 0xbeef#16) ∧
    decode 0b10110101_0101_1010_1011111011101111#32 = .ok (.gei 5 10 0xbeef#16) ∧
    decode 0b11000000_0101_1010_1011111011101111#32 = .ok (.addi 5 10 0xbeef#16) ∧
    decode 0b11000001_0101_1010_1011111011101111#32 = .ok (.subi 5 10 0xbeef#16) ∧
    decode 0b11010000_0101_1010_1011111011101111#32 = .ok (.muli 5 10 0xbeef#16) ∧
    decode 0b11100001_0101_1010_1011111011101111#32 = .ok (.divi 5 10 0xbeef#16) ∧
    decode 0b11100010_0101_1010_1011111011101111#32 = .ok (.modi 5 10 0xbeef#16) := by decide

/-! ### Illegal words, each for the line of R63 it fails (96_test_vectors_part2.md section 2.9) -/

theorem test_unassigned_words : decode 0x00000000#32 = .error .unassignedOpcode ∧
    decode 0xFFFFFFFF#32 = .error .unassignedOpcode ∧ decode 0x0B210000#32 = .error .unassignedOpcode ∧
    decode 0xE0210007#32 = .error .unassignedOpcode ∧ decode 0x80000000#32 = .error .unassignedOpcode ∧
    decode 0x93210000#32 = .error .unassignedOpcode := by decide
theorem test_reserved_bits_words : decode 0x0F000001#32 = .error .reservedBits ∧
    decode 0x01500001#32 = .error .reservedBits ∧ decode 0x02211000#32 = .error .reservedBits ∧
    decode 0x40312100#32 = .error .reservedBits ∧ decode 0x60312480#32 = .error .reservedBits ∧
    decode 0x03110000#32 = .error .reservedBits ∧ decode 0x07110000#32 = .error .reservedBits ∧
    decode 0x72010000#32 = .error .reservedBits ∧ decode 0x70112800#32 = .error .reservedBits := by decide
theorem test_reserved_width_words : decode 0x03105000#32 = .error .reservedWidth ∧
    decode 0x0601F000#32 = .error .reservedWidth := by decide
theorem test_reserved_base_words : decode 0x70010000#32 = .error .reservedBase ∧
    decode 0x70010400#32 = .error .reservedBase ∧ decode 0x70019400#32 = .error .reservedBase ∧
    decode 0x7001FC00#32 = .error .reservedBase := by decide
theorem test_same_pair_words : decode 0x45220000#32 = .error .samePair ∧
    decode 0x46110000#32 = .error .samePair ∧ decode 0x60312300#32 = .error .samePair := by decide
theorem test_decodeTableWord : decodeTableWord 32 0x40312000 = some (.add 3 1 2) ∧
    decodeTableWord 32 0 = none := by decide

/-! ### One step each: results from the vectors of 95_test_vectors.md and 96_test_vectors_part2.md -/

/-- `CLR x5` -/
theorem test_clr :
    gives (start [(5, G)] 0x01500000#32 Value.zero)
      0#2 ⟨0#128, 0#128⟩ [(5, ⟨0#128, 0#128⟩)] = true := by decide +kernel

/-- `MOV x2, x7` -/
theorem test_mov :
    gives (start [(7, ⟨1#128, 2#128⟩)] 0x02270000#32 Value.zero)
      0#2 ⟨1#128, 2#128⟩ [(2, ⟨1#128, 2#128⟩), (7, ⟨1#128, 2#128⟩)] = true := by decide +kernel

/-- `LDZ.8 x1, 0x1ff` -/
theorem test_ldz8 :
    gives (start [] 0x03100000#32 ⟨0#128, 511#128⟩)
      0#2 ⟨0#128, 255#128⟩ [(1, ⟨0#128, 255#128⟩)] = true := by decide +kernel

/-- `LDZ.16 x1, 0xffff` -/
theorem test_ldz16 :
    gives (start [] 0x03101000#32 ⟨0#128, 65535#128⟩)
      0#2 ⟨0#128, 65535#128⟩ [(1, ⟨0#128, 65535#128⟩)] = true := by decide +kernel

/-- `LDZ.32 x1, 0x1ffffffff` -/
theorem test_ldz32 :
    gives (start [] 0x03102000#32 ⟨0#128, 0x1FFFFFFFF#128⟩)
      0#2 ⟨0#128, 0xFFFFFFFF#128⟩ [(1, ⟨0#128, 0xFFFFFFFF#128⟩)] = true := by decide +kernel

/-- `LDZ.64 x1, 0xffffffffffffffff` -/
theorem test_ldz64 :
    gives (start [] 0x03103000#32 ⟨0#128, 0xFFFFFFFFFFFFFFFF#128⟩)
      0#2 ⟨0#128, 0xFFFFFFFFFFFFFFFF#128⟩ [(1, ⟨0#128, 0xFFFFFFFFFFFFFFFF#128⟩)] = true := by decide +kernel

/-- `LDZ.128 x1, (2^128-1, 2^128-1)` -/
theorem test_ldz128 :
    gives (start [] 0x03104000#32 ones)
      0#2 ⟨0#128, 0xFFFFFFFFFFFFFFFFFFFFFFFFFFFFFFFF#128⟩ [(1, ⟨0#128, 0xFFFFFFFFFFFFFFFFFFFFFFFFFFFFFFFF#128⟩)] = true := by decide +kernel

/-- `LDS.8 x1, 0x80` -/
theorem test_lds8_1 :
    gives (start [] 0x04100000#32 ⟨0#128, 128#128⟩)
      0#2 ⟨0xFFFFFFFFFFFFFFFFFFFFFFFFFFFFFFFF#128, 0xFFFFFFFFFFFFFFFFFFFFFFFFFFFFFF80#128⟩ [(1, ⟨0xFFFFFFFFFFFFFFFFFFFFFFFFFFFFFFFF#128, 0xFFFFFFFFFFFFFFFFFFFFFFFFFFFFFF80#128⟩)] = true := by decide +kernel

/-- `LDS.8 x1, 0x17f` -/
theorem test_lds8_2 :
    gives (start [] 0x04100000#32 ⟨0#128, 383#128⟩)
      0#2 ⟨0#128, 127#128⟩ [(1, ⟨0#128, 127#128⟩)] = true := by decide +kernel

/-- `LDS.16 x1, 0x8000` -/
theorem test_lds16 :
    gives (start [] 0x04101000#32 ⟨0#128, 32768#128⟩)
      0#2 ⟨0xFFFFFFFFFFFFFFFFFFFFFFFFFFFFFFFF#128, 0xFFFFFFFFFFFFFFFFFFFFFFFFFFFF8000#128⟩ [(1, ⟨0xFFFFFFFFFFFFFFFFFFFFFFFFFFFFFFFF#128, 0xFFFFFFFFFFFFFFFFFFFFFFFFFFFF8000#128⟩)] = true := by decide +kernel

/-- `LDS.32 x1, 0xfffffffe` -/
theorem test_lds32 :
    gives (start [] 0x04102000#32 ⟨0#128, 0xFFFFFFFE#128⟩)
      0#2 ⟨0xFFFFFFFFFFFFFFFFFFFFFFFFFFFFFFFF#128, 0xFFFFFFFFFFFFFFFFFFFFFFFFFFFFFFFE#128⟩ [(1, ⟨0xFFFFFFFFFFFFFFFFFFFFFFFFFFFFFFFF#128, 0xFFFFFFFFFFFFFFFFFFFFFFFFFFFFFFFE#128⟩)] = true := by decide +kernel

/-- `LDS.64 x1, 0x8000000000000000` -/
theorem test_lds64 :
    gives (start [] 0x04103000#32 ⟨0#128, 0x8000000000000000#128⟩)
      0#2 ⟨0xFFFFFFFFFFFFFFFFFFFFFFFFFFFFFFFF#128, 0xFFFFFFFFFFFFFFFF8000000000000000#128⟩ [(1, ⟨0xFFFFFFFFFFFFFFFFFFFFFFFFFFFFFFFF#128, 0xFFFFFFFFFFFFFFFF8000000000000000#128⟩)] = true := by decide +kernel

/-- `LDS.128 x1, (0, 0x80000000000000000000000000000000)` -/
theorem test_lds128 :
    gives (start [] 0x04104000#32 ⟨0#128, 0x80000000000000000000000000000000#128⟩)
      0#2 ⟨0xFFFFFFFFFFFFFFFFFFFFFFFFFFFFFFFF#128, 0x80000000000000000000000000000000#128⟩ [(1, ⟨0xFFFFFFFFFFFFFFFFFFFFFFFFFFFFFFFF#128, 0x80000000000000000000000000000000#128⟩)] = true := by decide +kernel

/-- `LDP x1, G` -/
theorem test_ldp :
    gives (start [] 0x05100000#32 G)
      0#2 G [(1, G)] = true := by decide +kernel

/-- `RD.8 x9` -/
theorem test_rd8 :
    gives (start [(9, G)] 0x06090000#32 Value.zero)
      0#2 ⟨0#128, 240#128⟩ [] = true := by decide +kernel

/-- `RD.16 x9` -/
theorem test_rd16 :
    gives (start [(9, G)] 0x06091000#32 Value.zero)
      0#2 ⟨0#128, 57840#128⟩ [] = true := by decide +kernel

/-- `RD.32 x9` -/
theorem test_rd32 :
    gives (start [(9, G)] 0x06092000#32 Value.zero)
      0#2 ⟨0#128, 0xC3D2E1F0#128⟩ [] = true := by decide +kernel

/-- `RD.64 x9` -/
theorem test_rd64 :
    gives (start [(9, G)] 0x06093000#32 Value.zero)
      0#2 ⟨0#128, 0x8796A5B4C3D2E1F0#128⟩ [] = true := by decide +kernel

/-- `RD.128 x9` -/
theorem test_rd128 :
    gives (start [(9, G)] 0x06094000#32 Value.zero)
      0#2 ⟨0#128, 0xF1E2D3C4B5A69788796A5B4C3D2E1F0#128⟩ [] = true := by decide +kernel

/-- `RDU x1` -/
theorem test_rdu :
    gives (start [(1, G)] 0x07010000#32 Value.zero)
      0#2 ⟨0#128, 0x123456789ABCDEFFEDCBA9876543210#128⟩ [] = true := by decide +kernel

/-- `RDV x1` -/
theorem test_rdv :
    gives (start [(1, ⟨7#128, 9#128⟩)] 0x08010000#32 Value.zero)
      0#2 ⟨7#128, 9#128⟩ [] = true := by decide +kernel

/-- `BOOL x2, x1` -/
theorem test_bool_1 :
    gives (start [(1, ⟨0#128, 0#128⟩)] 0x09210000#32 Value.zero)
      0#2 ⟨0#128, 0#128⟩ [(2, ⟨0#128, 0#128⟩)] = true := by decide +kernel

/-- `BOOL x2, x1` -/
theorem test_bool_2 :
    gives (start [(1, ⟨1#128, 0#128⟩)] 0x09210000#32 Value.zero)
      0#2 ⟨0#128, 1#128⟩ [(2, ⟨0#128, 1#128⟩)] = true := by decide +kernel

/-- `BITS x2, x1` -/
theorem test_bits_1 :
    gives (start [(1, ⟨0#128, 0xFFFFFFFFFFFFFFFFFFFFFFFFFFFFFFFF#128⟩)] 0x0A210000#32 Value.zero)
      0#2 ⟨0#128, 128#128⟩ [(2, ⟨0#128, 128#128⟩)] = true := by decide +kernel

/-- `BITS x2, x1` -/
theorem test_bits_2 :
    gives (start [(1, ⟨1#128, 0#128⟩)] 0x0A210000#32 Value.zero)
      0#2 ⟨0#128, 129#128⟩ [(2, ⟨0#128, 129#128⟩)] = true := by decide +kernel

/-- `AND x3, x1, x2` -/
theorem test_and :
    gives (start [(1, G), (2, H)] 0x10312000#32 Value.zero)
      0#2 ⟨0#128, 0xF1E2D3C4B5A69780000000000000000#128⟩ [(3, ⟨0#128, 0xF1E2D3C4B5A69780000000000000000#128⟩)] = true := by decide +kernel

/-- `OR x3, x1, x2` -/
theorem test_or :
    gives (start [(1, G), (2, H)] 0x11312000#32 Value.zero)
      0#2 ⟨0x8123456789ABCDEFFEDCBA9876543211#128, 0xFFFFFFFFFFFFFFFF8796A5B4C3D2E1F3#128⟩ [(3, ⟨0x8123456789ABCDEFFEDCBA9876543211#128, 0xFFFFFFFFFFFFFFFF8796A5B4C3D2E1F3#128⟩)] = true := by decide +kernel

/-- `XOR x3, x1, x2` -/
theorem test_xor :
    gives (start [(1, G), (2, H)] 0x12312000#32 Value.zero)
      0#2 ⟨0x8123456789ABCDEFFEDCBA9876543211#128, 0xF0E1D2C3B4A596878796A5B4C3D2E1F3#128⟩ [(3, ⟨0x8123456789ABCDEFFEDCBA9876543211#128, 0xF0E1D2C3B4A596878796A5B4C3D2E1F3#128⟩)] = true := by decide +kernel

/-- `NOT x3, x1` -/
theorem test_not :
    gives (start [(1, G)] 0x13310000#32 Value.zero)
      0#2 ⟨0xFEDCBA98765432100123456789ABCDEF#128, 0xF0E1D2C3B4A5968778695A4B3C2D1E0F#128⟩ [(3, ⟨0xFEDCBA98765432100123456789ABCDEF#128, 0xF0E1D2C3B4A5968778695A4B3C2D1E0F#128⟩)] = true := by decide +kernel

/-- `SHL x2, x1, x3` -/
theorem test_shl_1 :
    gives (start [(1, G), (3, ⟨0#128, 4#128⟩)] 0x20213000#32 Value.zero)
      0#2 ⟨0x123456789ABCDEFFEDCBA98765432100#128, 0xF1E2D3C4B5A69788796A5B4C3D2E1F00#128⟩ [(2, ⟨0x123456789ABCDEFFEDCBA98765432100#128, 0xF1E2D3C4B5A69788796A5B4C3D2E1F00#128⟩)] = true := by decide +kernel

/-- `SHL x2, x1, x3` -/
theorem test_shl_2 :
    gives (start [(1, G), (3, ⟨1#128, 0#128⟩)] 0x20213000#32 Value.zero)
      0#2 ⟨0#128, 0#128⟩ [(2, ⟨0#128, 0#128⟩)] = true := by decide +kernel

/-- `SHR x2, x1, x3` -/
theorem test_shr :
    gives (start [(1, G), (3, ⟨1#128, 4#128⟩)] 0x21213000#32 Value.zero)
      0#2 ⟨0#128, 0#128⟩ [(2, ⟨0#128, 0#128⟩)] = true := by decide +kernel

/-- `EQ x3, x1, x2` -/
theorem test_eq :
    gives (start [(1, ⟨1#128, 5#128⟩), (2, ⟨0#128, 5#128⟩)] 0x30312000#32 Value.zero)
      0#2 ⟨0#128, 0#128⟩ [(3, ⟨0#128, 0#128⟩)] = true := by decide +kernel

/-- `NE x3, x1, x2` -/
theorem test_ne :
    gives (start [(1, ⟨1#128, 5#128⟩), (2, ⟨0#128, 5#128⟩)] 0x31312000#32 Value.zero)
      0#2 ⟨0#128, 1#128⟩ [(3, ⟨0#128, 1#128⟩)] = true := by decide +kernel

/-- `LT x3, x1, x2` -/
theorem test_lt :
    gives (start [(1, ⟨0#128, 0xFFFFFFFFFFFFFFFFFFFFFFFFFFFFFFFF#128⟩), (2, ⟨1#128, 0#128⟩)] 0x32312000#32 Value.zero)
      0#2 ⟨0#128, 1#128⟩ [(3, ⟨0#128, 1#128⟩)] = true := by decide +kernel

/-- `GT x3, x1, x2` -/
theorem test_gt :
    gives (start [(1, ⟨2#128, 0#128⟩), (2, ⟨1#128, 0xFFFFFFFFFFFFFFFFFFFFFFFFFFFFFFFF#128⟩)] 0x33312000#32 Value.zero)
      0#2 ⟨0#128, 1#128⟩ [(3, ⟨0#128, 1#128⟩)] = true := by decide +kernel

/-- `LE x3, x1, x2` -/
theorem test_le :
    gives (start [(1, ⟨1#128, 5#128⟩), (2, ⟨1#128, 5#128⟩)] 0x34312000#32 Value.zero)
      0#2 ⟨0#128, 1#128⟩ [(3, ⟨0#128, 1#128⟩)] = true := by decide +kernel

/-- `GE x3, x1, x2` -/
theorem test_ge :
    gives (start [(1, ⟨0#128, 0#128⟩), (2, ones)] 0x35312000#32 Value.zero)
      0#2 ⟨0#128, 0#128⟩ [(3, ⟨0#128, 0#128⟩)] = true := by decide +kernel

/-- `ADD x3, x1, x2` -/
theorem test_add_1 :
    gives (start [(1, ⟨0#128, 0xFFFFFFFFFFFFFFFFFFFFFFFFFFFFFFFF#128⟩), (2, ⟨0#128, 1#128⟩)] 0x40312000#32 Value.zero)
      0#2 ⟨1#128, 0#128⟩ [(3, ⟨1#128, 0#128⟩)] = true := by decide +kernel

/-- `ADD x1, x1, x1` -/
theorem test_add_2 :
    gives (start [(1, G)] 0x40111000#32 Value.zero)
      0#2 ⟨0x2468ACF13579BDFFDB97530ECA86420#128, 0x1E3C5A7896B4D2F10F2D4B6987A5C3E0#128⟩ [(1, ⟨0x2468ACF13579BDFFDB97530ECA86420#128, 0x1E3C5A7896B4D2F10F2D4B6987A5C3E0#128⟩)] = true := by decide +kernel

/-- `SUB x3, x1, x2` -/
theorem test_sub_1 :
    gives (start [(1, ⟨1#128, 0#128⟩), (2, ⟨0#128, 1#128⟩)] 0x41312000#32 Value.zero)
      0#2 ⟨0#128, 0xFFFFFFFFFFFFFFFFFFFFFFFFFFFFFFFF#128⟩ [(3, ⟨0#128, 0xFFFFFFFFFFFFFFFFFFFFFFFFFFFFFFFF#128⟩)] = true := by decide +kernel

/-- `SUB x3, x1, x2` -/
theorem test_sub_2 :
    gives (start [(1, G), (2, H)] 0x41312000#32 Value.zero)
      0#2 ⟨0x8123456789ABCDEFFEDCBA987654320E#128, 0xF1E2D3C4B5A69798796A5B4C3D2E1ED#128⟩ [(3, ⟨0x8123456789ABCDEFFEDCBA987654320E#128, 0xF1E2D3C4B5A69798796A5B4C3D2E1ED#128⟩)] = true := by decide +kernel

/-- `NEG x2, x1` -/
theorem test_neg :
    gives (start [(1, ⟨1#128, 0#128⟩)] 0x42210000#32 Value.zero)
      0#2 ⟨0xFFFFFFFFFFFFFFFFFFFFFFFFFFFFFFFF#128, 0#128⟩ [(2, ⟨0xFFFFFFFFFFFFFFFFFFFFFFFFFFFFFFFF#128, 0#128⟩)] = true := by decide +kernel

/-- `INC x4` -/
theorem test_inc :
    gives (start [(4, ⟨0#128, 0xFFFFFFFFFFFFFFFFFFFFFFFFFFFFFFFF#128⟩)] 0x43400000#32 Value.zero)
      0#2 ⟨1#128, 0#128⟩ [(4, ⟨1#128, 0#128⟩)] = true := by decide +kernel

/-- `DEC x4` -/
theorem test_dec :
    gives (start [(4, ⟨0#128, 0#128⟩)] 0x44400000#32 Value.zero)
      0#2 ones [(4, ones)] = true := by decide +kernel

/-- `PINC x2, x1` -/
theorem test_pinc_1 :
    gives (start [(1, ones), (2, ⟨0#128, 55#128⟩)] 0x45210000#32 Value.zero)
      0#2 ones [(2, ones), (1, ⟨0#128, 0#128⟩)] = true := by decide +kernel

/-- `PINC x1, x1` -/
theorem test_pinc_2 :
    gives (start [(1, ⟨0#128, 9#128⟩)] 0x45110000#32 Value.zero)
      2#2 ⟨0#128, 0#128⟩ [(1, ⟨0#128, 9#128⟩)] = true := by decide +kernel

/-- `PDEC x2, x1` -/
theorem test_pdec_1 :
    gives (start [(1, ⟨0#128, 0#128⟩), (2, ⟨0#128, 55#128⟩)] 0x46210000#32 Value.zero)
      0#2 ⟨0#128, 0#128⟩ [(2, ⟨0#128, 0#128⟩), (1, ones)] = true := by decide +kernel

/-- `PDEC x1, x1` -/
theorem test_pdec_2 :
    gives (start [(1, ⟨0#128, 9#128⟩)] 0x46110000#32 Value.zero)
      2#2 ⟨0#128, 0#128⟩ [(1, ⟨0#128, 9#128⟩)] = true := by decide +kernel

/-- `MUL x1, x1, x1` -/
theorem test_mul_1 :
    gives (start [(1, ⟨0#128, 0x10000000000000000#128⟩)] 0x50111000#32 Value.zero)
      0#2 ⟨1#128, 0#128⟩ [(1, ⟨1#128, 0#128⟩)] = true := by decide +kernel

/-- `MUL x3, x1, x2` -/
theorem test_mul_2 :
    gives (start [(1, G), (2, H)] 0x50312000#32 Value.zero)
      0#2 ⟨0x22C97016BD640AB0FCA54DF69F47F097#128, 0xA5C3E2001E3C5A7996C3F11E4B78A5D0#128⟩ [(3, ⟨0x22C97016BD640AB0FCA54DF69F47F097#128, 0xA5C3E2001E3C5A7996C3F11E4B78A5D0#128⟩)] = true := by decide +kernel

/-- `DIVMOD x1, x2, x1, x2` -/
theorem test_divmod_1 :
    gives (start [(1, ⟨0#128, 100#128⟩), (2, ⟨0#128, 7#128⟩)] 0x60112200#32 Value.zero)
      0#2 ⟨0#128, 14#128⟩ [(1, ⟨0#128, 14#128⟩), (2, ⟨0#128, 2#128⟩)] = true := by decide +kernel

/-- `DIVMOD x3, x4, x1, x2` -/
theorem test_divmod_2 :
    gives (start [(1, ⟨1#128, 0#128⟩), (2, ⟨0#128, 3#128⟩), (3, ⟨0#128, 77#128⟩), (4, ⟨0#128, 88#128⟩)] 0x60312400#32 Value.zero)
      0#2 ⟨0#128, 0x55555555555555555555555555555555#128⟩ [(3, ⟨0#128, 0x55555555555555555555555555555555#128⟩), (4, ⟨0#128, 1#128⟩)] = true := by decide +kernel

/-- `DIV x3, x1, x2` -/
theorem test_div_1 :
    gives (start [(1, ⟨0#128, 100#128⟩), (2, ⟨0#128, 7#128⟩)] 0x61312000#32 Value.zero)
      0#2 ⟨0#128, 14#128⟩ [(3, ⟨0#128, 14#128⟩)] = true := by decide +kernel

/-- `DIV x2, x1, x1` -/
theorem test_div_2 :
    gives (start [(1, ⟨0#128, 0#128⟩), (2, ⟨0#128, 55#128⟩)] 0x61211000#32 Value.zero)
      1#2 ⟨0#128, 0#128⟩ [(2, ⟨0#128, 55#128⟩)] = true := by decide +kernel

/-- `MOD x3, x1, x2` -/
theorem test_mod_1 :
    gives (start [(1, ⟨0#128, 100#128⟩), (2, ⟨0#128, 7#128⟩)] 0x62312000#32 Value.zero)
      0#2 ⟨0#128, 2#128⟩ [(3, ⟨0#128, 2#128⟩)] = true := by decide +kernel

/-- `MOD x1, x1, x2` -/
theorem test_mod_2 :
    gives (start [(1, ⟨0#128, 10#128⟩), (2, ⟨0#128, 0#128⟩), (3, ⟨0#128, 77#128⟩)] 0x62112000#32 Value.zero)
      1#2 ⟨0#128, 0#128⟩ [(1, ⟨0#128, 10#128⟩)] = true := by decide +kernel

/-- `ANDI x2, x1, 0xff0` -/
theorem test_andi :
    gives (start [(1, ⟨3#128, 65295#128⟩)] 0x90210FF0#32 Value.zero)
      0#2 ⟨0#128, 3840#128⟩ [(2, ⟨0#128, 3840#128⟩)] = true := by decide +kernel

/-- `ORI x2, x1, 0xf` -/
theorem test_ori :
    gives (start [(1, ⟨3#128, 61440#128⟩)] 0x9121000F#32 Value.zero)
      0#2 ⟨3#128, 61455#128⟩ [(2, ⟨3#128, 61455#128⟩)] = true := by decide +kernel

/-- `XORI x2, x1, 0xff` -/
theorem test_xori :
    gives (start [(1, ⟨3#128, 65535#128⟩)] 0x922100FF#32 Value.zero)
      0#2 ⟨3#128, 65280#128⟩ [(2, ⟨3#128, 65280#128⟩)] = true := by decide +kernel

/-- `SHLI x2, x1, 127` -/
theorem test_shli_1 :
    gives (start [(1, G)] 0xA021007F#32 Value.zero)
      0#2 ⟨0x78F169E25AD34BC43CB52DA61E970F8#128, 0#128⟩ [(2, ⟨0x78F169E25AD34BC43CB52DA61E970F8#128, 0#128⟩)] = true := by decide +kernel

/-- `SHLI x2, x1, 255` -/
theorem test_shli_2 :
    gives (start [(1, ones)] 0xA02100FF#32 Value.zero)
      0#2 ⟨0x80000000000000000000000000000000#128, 0#128⟩ [(2, ⟨0x80000000000000000000000000000000#128, 0#128⟩)] = true := by decide +kernel

/-- `SHRI x2, x1, 127` -/
theorem test_shri_1 :
    gives (start [(1, G)] 0xA121007F#32 Value.zero)
      0#2 ⟨0#128, 0x2468ACF13579BDFFDB97530ECA86420#128⟩ [(2, ⟨0#128, 0x2468ACF13579BDFFDB97530ECA86420#128⟩)] = true := by decide +kernel

/-- `SHRI x2, x1, 255` -/
theorem test_shri_2 :
    gives (start [(1, ones)] 0xA12100FF#32 Value.zero)
      0#2 ⟨0#128, 1#128⟩ [(2, ⟨0#128, 1#128⟩)] = true := by decide +kernel

/-- `EQI x2, x1, 7` -/
theorem test_eqi :
    gives (start [(1, ⟨1#128, 7#128⟩)] 0xB0210007#32 Value.zero)
      0#2 ⟨0#128, 0#128⟩ [(2, ⟨0#128, 0#128⟩)] = true := by decide +kernel

/-- `NEI x2, x1, 7` -/
theorem test_nei :
    gives (start [(1, ⟨1#128, 7#128⟩)] 0xB1210007#32 Value.zero)
      0#2 ⟨0#128, 1#128⟩ [(2, ⟨0#128, 1#128⟩)] = true := by decide +kernel

/-- `LTI x2, x1, 65535` -/
theorem test_lti :
    gives (start [(1, ⟨1#128, 0#128⟩)] 0xB221FFFF#32 Value.zero)
      0#2 ⟨0#128, 0#128⟩ [(2, ⟨0#128, 0#128⟩)] = true := by decide +kernel

/-- `GTI x2, x1, 65535` -/
theorem test_gti :
    gives (start [(1, ⟨1#128, 0#128⟩)] 0xB321FFFF#32 Value.zero)
      0#2 ⟨0#128, 1#128⟩ [(2, ⟨0#128, 1#128⟩)] = true := by decide +kernel

/-- `LEI x2, x1, 5` -/
theorem test_lei :
    gives (start [(1, ⟨0#128, 5#128⟩)] 0xB4210005#32 Value.zero)
      0#2 ⟨0#128, 1#128⟩ [(2, ⟨0#128, 1#128⟩)] = true := by decide +kernel

/-- `GEI x2, x1, 5` -/
theorem test_gei :
    gives (start [(1, ⟨0#128, 4#128⟩)] 0xB5210005#32 Value.zero)
      0#2 ⟨0#128, 0#128⟩ [(2, ⟨0#128, 0#128⟩)] = true := by decide +kernel

/-- `ADDI x2, x1, 2` -/
theorem test_addi :
    gives (start [(1, ⟨0#128, 0xFFFFFFFFFFFFFFFFFFFFFFFFFFFFFFFE#128⟩)] 0xC0210002#32 Value.zero)
      0#2 ⟨1#128, 0#128⟩ [(2, ⟨1#128, 0#128⟩)] = true := by decide +kernel

/-- `SUBI x2, x1, 65535` -/
theorem test_subi :
    gives (start [(1, ⟨0#128, 0#128⟩)] 0xC121FFFF#32 Value.zero)
      0#2 ⟨0xFFFFFFFFFFFFFFFFFFFFFFFFFFFFFFFF#128, 0xFFFFFFFFFFFFFFFFFFFFFFFFFFFF0001#128⟩ [(2, ⟨0xFFFFFFFFFFFFFFFFFFFFFFFFFFFFFFFF#128, 0xFFFFFFFFFFFFFFFFFFFFFFFFFFFF0001#128⟩)] = true := by decide +kernel

/-- `MULI x2, x1, 65535` -/
theorem test_muli :
    gives (start [(1, G)] 0xD021FFFF#32 Value.zero)
      0#2 ⟨0x44444444444430ECBBBBBBBBBBBBDD0E#128, 0x1E1E1E1E1E1E1E1E1E1E1E1E1E1D1E10#128⟩ [(2, ⟨0x44444444444430ECBBBBBBBBBBBBDD0E#128, 0x1E1E1E1E1E1E1E1E1E1E1E1E1E1D1E10#128⟩)] = true := by decide +kernel

/-- `DIVI x2, x1, 65535` -/
theorem test_divi :
    gives (start [(1, ones)] 0xE121FFFF#32 Value.zero)
      0#2 ⟨0x10001000100010001000100010001#128, 0x10001000100010001000100010001#128⟩ [(2, ⟨0x10001000100010001000100010001#128, 0x10001000100010001000100010001#128⟩)] = true := by decide +kernel

/-- `MODI x2, x1, 10` -/
theorem test_modi_1 :
    gives (start [(1, ones)] 0xE221000A#32 Value.zero)
      0#2 ⟨0#128, 5#128⟩ [(2, ⟨0#128, 5#128⟩)] = true := by decide +kernel

/-- `MODI x2, x1, 0` -/
theorem test_modi_2 :
    gives (start [(1, ⟨0#128, 10#128⟩), (2, ⟨0#128, 55#128⟩)] 0xE2210000#32 Value.zero)
      1#2 ⟨0#128, 0#128⟩ [(2, ⟨0#128, 55#128⟩)] = true := by decide +kernel

/-- `STR x1, 16, 4` of 255 is "00ff" -/
theorem test_str_1 : leaves (start [(1, ⟨0#128, 255#128⟩)] 0x70014004#32 Value.zero)
    [0x30#8, 0x30#8, 0x66#8, 0x66#8] ⟨false, false⟩ = true := by decide +kernel

/-- `STR x1, 36, 0` of 36 is "10" -/
theorem test_str_2 : leaves (start [(1, ⟨0#128, 36#128⟩)] 0x70019000#32 Value.zero)
    [0x31#8, 0x30#8] ⟨false, false⟩ = true := by decide +kernel

/-- The state after `STR x1, 16, 4` of 255: `S = "00ff"`. -/
def after00ff (cmd : CmdWord) : State :=
  State.present { State.reset with str := [0x30#8, 0x30#8, 0x66#8, 0x66#8] } cmd 0#256

/-- `RDSL` -/
theorem test_rdsl : gives (after00ff 0x71000000#32) 0#2 ⟨0#128, 4#128⟩ [] = true := by decide

/-- `RDSC 2` -/
theorem test_rdsc_1 : gives (after00ff 0x72000002#32) 0#2 ⟨0#128, 0x66#128⟩ [] = true := by decide

/-- `RDSC 4` -/
theorem test_rdsc_2 : gives (after00ff 0x72000004#32) 0#2 Value.zero [] = true := by decide

/-- `STR x1, 37, 0`: `S` unchanged, `STATUS = 0b10` -/
theorem test_illegal_word_keeps_string : leaves (after00ff 0x70019400#32) [0x30#8, 0x30#8, 0x66#8, 0x66#8]
    ⟨false, true⟩ = true := by decide

/-- A state with both sticky bits set. -/
def sticky (cmd : CmdWord) : State := State.present { State.reset with status := ⟨true, true⟩ } cmd 0#256

/-- `RDSTAT` answers 3 and clears nothing. -/
theorem test_rdstat : gives (sticky 0x0E000000#32) 0#2 ⟨0#128, 3#128⟩ [] = true ∧
    leaves (sticky 0x0E000000#32) [] ⟨true, true⟩ = true := by decide

/-- `CLRSTAT` answers 0 and clears both. -/
theorem test_clrstat : gives (sticky 0x0F000000#32) 0#2 Value.zero [] = true ∧
    leaves (sticky 0x0F000000#32) [] ⟨false, false⟩ = true := by decide

/-- `CLRSTAT` with a reserved bit set clears nothing. -/
theorem test_illegal_word_clears_nothing : leaves (sticky 0x0F000001#32) [] ⟨true, true⟩ = true := by decide

/-- `DIVI x2, x1, 0` of 10: `status = 1`, `x2` keeps 77, `DZ` is set and `ILL` is not. -/
theorem test_divi_zero :
    gives (start [(1, ⟨0#128, 10#128⟩), (2, ⟨0#128, 77#128⟩)] 0xE1210000#32 Value.zero) 1#2 Value.zero
      [(2, ⟨0#128, 77#128⟩)] = true ∧
    leaves (start [(1, ⟨0#128, 10#128⟩)] 0xE1210000#32 Value.zero) [] ⟨true, false⟩ = true := by decide

/-- `step` runs the word that `withFetchWord` places, from reset. -/
theorem test_withFetchWord : gives (State.reset.withFetchWord 32 0x43400000) 0#2 Value.one
    [(4, Value.one)] = true := by decide

/-- A reset that is asserted is taken before the waiting command, and the command is lost. -/
theorem test_reset_first : leaves (State.assertReset (after00ff 0x71000000#32)) [] ⟨false, false⟩ = true := by
  decide

/-! ### The written form and the pseudo-instructions (R72, R73) -/

theorem test_asm_text : asmText (.divmod 3 4 1 2) 0#256 = "DIVMOD x3, x4, x1, x2" ∧
    asmText (.ldz8 1) 10#256 = "LDZ.8 x1, 10" ∧ asmText .rdstat 0#256 = "RDSTAT" ∧
    asmText (.str 1 16#6 4#10) 0#256 = "STR x1, 16, 4" := by decide +kernel
/-- Case, comments, blank lines, hexadecimal, a load with its `wdata`, a pseudo-instruction (R72, R73). -/
theorem test_assemble : assemble
    "ldz.64 X1, 0xFFFF # load\n\n# nothing\nSTR x1, 16, 4\nLD2 x2, 7, 9\nDIVMOD x3, x4, x1, x2\nrdstat" =
    some [⟨0x03103000#32, 0xFFFF#256⟩, ⟨0x70014004#32, 0#256⟩,
      ⟨0x05200000#32, 0x700000000000000000000000000000009#256⟩, ⟨0x60312400#32, 0#256⟩,
      ⟨0x0E000000#32, 0#256⟩] := by decide +kernel

/-- `PINC`/`PDEC` with `rd = ra` and `DIVMOD` with `rd = re` are not emitted (R235), not even in a longer text; the
other pairings of a register are, and so is a `STR` with a bad base. -/
theorem test_assembler_rejects_pairings : assemble "PINC x1, x1" = none ∧ assemble "PDEC x15, x15" = none ∧
    assemble "RDSTAT\nDIVMOD x3, x3, x1, x2" = none ∧
    assemble "PINC x2, x1\nDIVMOD x1, x2, x1, x2\nSTR x1, 37, 0" =
      some [⟨0x45210000#32, 0#256⟩, ⟨0x60112200#32, 0#256⟩, ⟨0x70019400#32, 0#256⟩] := by decide +kernel

/-- One command of each of six formats. -/
def sampleCommands : List Instr :=
  [.ldz16 5, .rd64 10, .and 5 10 3, .divmod 5 12 10 3, .pinc 2 1, .rdsc 9#16]

/-- The written form reads back as the command. -/
theorem test_written_form_reads_back : (sampleCommands.all fun i =>
    readLine (asmText i 77#256).toList == some (i, if takesWdata i then 77#256 else 0#256)) = true ∧
    sampleCommands.length = 6 := by decide +kernel
theorem test_pseudo_words : encode (Pseudo.rdl 1).expand.1 = 0x06014000#32 ∧
    encode (Pseudo.strd 1).expand.1 = 0x70012800#32 ∧
    (Pseudo.ld4 1 1#64 2#64 3#64 4#64).expand.2 =
      0x0000000000000001000000000000000200000000000000030000000000000004#256 := by decide

/-! ### Witnesses: for each statement with hypotheses, a state and operands that meet them -/

/-- A state with one word at the command port and reset not asserted. -/
abbrev At (s : State) (w : CmdWord) : Prop := s.resetLine = false ∧ s.pending = [⟨w, 0#256⟩]

theorem witness_EncodedCommandDecodesBack : (Instr.divmod 3 4 1 2).WellFormed ∧ (Instr.pinc 2 1).WellFormed ∧
    (Instr.pdec 15 0).WellFormed ∧ (Instr.str 1 2#6 0#10).WellFormed ∧ (Instr.str 1 36#6 1023#10).WellFormed ∧
    (Instr.addi 15 15 0xFFFF#16).WellFormed := by decide

theorem witness_DecodedWordEncodesBack : decode 0x40312000#32 = .ok (.add 3 1 2) ∧
    decode 0x700193FF#32 = .ok (.str 1 36#6 1023#10) := by decide

theorem witness_DecoderAcceptsExactlyLegalWords : legalWord 0x03104000#32 = true ∧
    legalWord 0x03105000#32 = false ∧ legalWord 0x70010800#32 = true ∧ legalWord 0x70010400#32 = false ∧
    legalWord 0x70019000#32 = true ∧ legalWord 0x70019400#32 = false ∧ legalWord 0x45220000#32 = false ∧
    legalWord 0x60312300#32 = false ∧ legalWord 0x40312001#32 = false ∧
    At (start [] 0x03105000#32 Value.zero) 0x03105000#32 := by decide

theorem witness_UnassignedOpcodesRaise : unassigned (bitsOf (0x0B210000#32).toNat 24 8) = true ∧
    unassigned (bitsOf (0xE0210007#32).toNat 24 8) = true ∧ unassigned 0x0A = false ∧ unassigned 0x0D = true ∧
    unassigned 0x0E = false ∧ unassigned 0xE3 = true ∧ unassigned 0xE2 = false ∧
    At (start [] 0x0B210000#32 Value.zero) 0x0B210000#32 := by decide

theorem witness_ReservedFieldBitsRaise : formatOf (bitsOf (0x01500001#32).toNat 24 8) = some .D ∧
    (0x01500001#32).toNat &&& Format.D.reserved ≠ 0 ∧ At (start [] 0x01500001#32 Value.zero) 0x01500001#32 ∧
    At (start [] 0x00000000#32 Value.zero) 0x00000000#32 ∧
    At (start [] 0xFFFFFFFF#32 Value.zero) 0xFFFFFFFF#32 := by decide

theorem witness_StepRunsDecodedCommand : At (start [] 0x43400000#32 Value.zero) 0x43400000#32 ∧
    decode 0x43400000#32 = .ok (.inc 4) ∧ decode (BitVec.ofNat 32 (0x43400000 % 2 ^ 32)) = .ok (.inc 4) := by
  decide

theorem witness_IllegalWordRaisesIllegalCommand : At (start [] 0x00000000#32 Value.zero) 0x00000000#32 ∧
    decode 0x00000000#32 = .error .unassignedOpcode := by decide

theorem witness_BlockWaitsWithoutCommand : (regsOf [(1, G)]).resetLine = false ∧ (regsOf [(1, G)]).pending = [] := by
  decide

theorem witness_ResetClearsAndDropsUnanswered : (State.assertReset (sticky 0x0E000000#32)).resetLine = true ∧
    (State.assertReset (sticky 0x0E000000#32)).pending ≠ [] := by decide

/-- A state that meets the invariant with a string, a fault on record and a command to run. -/
def busy : State :=
  { after00ff 0x70012800#32 with responses := [⟨.raised .divideByZero, 0#256⟩, ⟨.ok, 7#256⟩] }

theorem witness_StepKeepsInvariant : busy.Inv ∧ ∃ t, step busy = .next t := ⟨by decide, _, rfl⟩

theorem reset_inv : State.reset.Inv := by decide

theorem witness_EveryCommandAnswersItsResult : (destinations (.divmod 3 4 1 2)).head? = some 3 ∧
    isStr (.str 1 10#6 0#10) = true ∧ (RespStatus.raised .divideByZero) ≠ .ok ∧
    gives (start [] 0xE1210000#32 Value.zero) 1#2 Value.zero [] = true := by decide

theorem witness_PresentedCommandsAreAnswered :
    ((start [] 0x43400000#32 Value.zero).present 0x00000000#32 0#256).resetLine = false ∧
    ((start [] 0x43400000#32 Value.zero).present 0x00000000#32 0#256).pending.length = 2 := by decide

theorem witness_LaterCommandsAreNotSeen : State.reset.resetLine = false := rfl

theorem witness_StickyBitsRecordFaults : At (start [] 0xE1210000#32 Value.zero) 0xE1210000#32 ∧
    decode 0xE1210000#32 ≠ .ok .clrstat ∧ At (start [] 0x00000000#32 Value.zero) 0x00000000#32 ∧
    decode 0x00000000#32 ≠ .ok .clrstat := by decide

theorem witness_OnlyNamedRegistersChange :
    (∃ t, step (start [] 0x43400000#32 Value.zero) = .next t ∧
      t.reg 4 ≠ (start [] 0x43400000#32 Value.zero).reg 4) ∧
    ∃ t, step (regsOf [(1, G)]).assertReset = .next t ∧ t.reg 1 ≠ (regsOf [(1, G)]).reg 1 :=
  ⟨⟨_, rfl, by decide⟩, _, rfl, by decide⟩

theorem witness_OnlyStrChangesString :
    ∃ t, step (start [] 0x70012800#32 Value.zero) = .next t ∧ t.str ≠ (start [] 0x70012800#32 Value.zero).str :=
  ⟨_, rfl, by decide⟩

theorem witness_ReadsHaveNoSideEffect : isRead (.rdv 1) = true ∧ isRead .rdstat = true ∧
    isRead (.rdsc 0xFFFF#16) = true := by decide

theorem witness_IgnoredWdataBitsDoNotMatter : (0x1FF#256).toNat % 2 ^ wdataBits (.ldz8 1) =
    (0xFF#256).toNat % 2 ^ wdataBits (.ldz8 1) ∧ (0x1FF#256).toNat % 2 ^ wdataBits (.add 3 1 2) =
    (0#256).toNat % 2 ^ wdataBits (.add 3 1 2) ∧ legalWord 0xFFFFFFFF#32 = false ∧
    State.reset.resetLine = false := by decide

theorem witness_ReservedPairsRaise : At (start [] (cmdU 0x45 2 2) Value.zero) (cmdU 0x45 2 2) ∧
    At (start [] (cmdU 0x46 1 1) Value.zero) (cmdU 0x46 1 1) ∧
    At (start [] (cmdQ 0x60 3 1 2 3) Value.zero) (cmdQ 0x60 3 1 2 3) ∧ cmdU 0x45 2 2 = 0x45220000#32 ∧
    cmdQ 0x60 3 1 2 3 = 0x60312300#32 ∧ (3 : Reg) ≠ 4 := by decide

theorem witness_ReservedBaseRaises : (0#6).toNat < 2 ∧ (1#6).toNat < 2 ∧ 36 < (37#6).toNat ∧ 36 < (63#6).toNat ∧
    At (start [] (cmdS 0x70 1 37#6 0#10) Value.zero) (cmdS 0x70 1 37#6 0#10) ∧ 2 ≤ (2#6).toNat ∧
    (36#6).toNat ≤ 36 ∧ cmdS 0x70 1 37#6 0#10 = 0x70019400#32 := by decide

theorem witness_IllegalCommandBeatsDivideByZero :
    At (start [(3, ⟨0#128, 77#128⟩)] (cmdQ 0x60 3 1 2 3) Value.zero) (cmdQ 0x60 3 1 2 3) ∧
    (start [(3, ⟨0#128, 77#128⟩)] (cmdQ 0x60 3 1 2 3) Value.zero).reg 2 = Value.zero ∧ (1#12) ≠ 0#12 ∧
    (0x80#8) ≠ 0#8 ∧ cmdWord 0x60 3 1 (2 * 2 ^ 12 + 4 * 2 ^ 8 + 0x80) = 0x60312480#32 ∧
    cmdWord 0x61 3 1 (2 * 2 ^ 12 + 1) = 0x61312001#32 := by decide

theorem witness_LdsSignExtends : 0x7F = (start [] 0x04100000#32 ⟨0#128, 0x17F#128⟩).wdata.toNat % 2 ^ 8 ∧
    0x80 = (start [] 0x04100000#32 ⟨0#128, 0x80#128⟩).wdata.toNat % 2 ^ 8 ∧
    0x8000 = (start [] 0x04101000#32 ⟨0#128, 0x8000#128⟩).wdata.toNat % 2 ^ 16 ∧
    0xFFFFFFFE = (start [] 0x04102000#32 ⟨0#128, 0xFFFFFFFE#128⟩).wdata.toNat % 2 ^ 32 ∧
    2 ^ 63 = (start [] 0x04103000#32 ⟨0#128, 0x8000000000000000#128⟩).wdata.toNat % 2 ^ 64 ∧
    2 ^ 127 = (start [] 0x04104000#32 ⟨0#128, 0x80000000000000000000000000000000#128⟩).wdata.toNat % 2 ^ 128 := by
  decide

theorem witness_PairAndFourWayConstruction :
    (start [] 0x05100000#32 ⟨7#128, 9#128⟩).wdata = BitVec.ofNat 256 ((7#128).toNat * 2 ^ 128 + (9#128).toNat) ∧
    (start [] 0x05100000#32 ⟨0x00000000000000010000000000000002#128, 0x00000000000000030000000000000004#128⟩).wdata =
      BitVec.ofNat 256 ((1#64).toNat * 2 ^ 192 + (2#64).toNat * 2 ^ 128 + (3#64).toNat * 2 ^ 64 + (4#64).toNat) := by
  decide

theorem witness_PseudoInstructionsDoWhatTheyName :
    (start [] 0x03104000#32 ⟨0#128, 5#128⟩).wdata = (Pseudo.li 1 5#128).expand.2 ∧
    (start [] 0x05100000#32 ⟨7#128, 9#128⟩).wdata = (Pseudo.ld2 1 7#128 9#128).expand.2 ∧
    (start [] 0x05100000#32 ⟨0x00000000000000010000000000000002#128, 0x00000000000000030000000000000004#128⟩).wdata =
      (Pseudo.ld4 1 1#64 2#64 3#64 4#64).expand.2 := by decide

theorem witness_NarrowOperandSuppliesNoUpperBits : ((regsOf [(2, ⟨0#128, 7#128⟩)]).reg 2).upper = 0#128 := by decide

theorem witness_ShiftLeftCommands : 256 ≤ ((regsOf [(3, ⟨0#128, 256#128⟩)]).reg 3).toNat ∧
    256 ≤ ((regsOf [(3, ⟨1#128, 4#128⟩)]).reg 3).toNat := by decide

theorem witness_ShiftRightCommands : 256 ≤ ((regsOf [(3, ⟨0#128, 256#128⟩)]).reg 3).toNat ∧
    256 ≤ ((regsOf [(3, ones)]).reg 3).toNat := by decide

theorem witness_ShiftLeftThenRightClearsTop : (0#16).toNat ≤ 255 ∧ (255#16).toNat ≤ 255 ∧ (2 : Reg) ≠ 3 ∧
    ((regsOf [(3, ⟨0#128, 255#128⟩)]).reg 3).toNat ≤ 255 := by decide

theorem witness_PostfixCommands : (2 : Reg) ≠ 1 ∧ At (start [] (cmdU 0x45 2 2) Value.zero) (cmdU 0x45 2 2) ∧
    At (start [] (cmdU 0x46 2 2) Value.zero) (cmdU 0x46 2 2) := by decide

theorem witness_CarryOutIsSumBelowOperand : (3 : Reg) ≠ 1 ∧
    2 ^ 256 ≤ ((regsOf [(1, ones), (2, Value.one)]).reg 1).toNat +
      ((regsOf [(1, ones), (2, Value.one)]).reg 2).toNat ∧
    ¬ 2 ^ 256 ≤ ((regsOf [(1, ones)]).reg 1).toNat + ((regsOf [(1, ones)]).reg 2).toNat := by decide

theorem witness_DivmodCommand : (3 : Reg) ≠ 4 ∧ ((regsOf [(2, Value.one)]).reg 2).toNat ≠ 0 ∧
    (State.reset.reg 2).toNat = 0 ∧ At (start [] (cmdQ 0x60 3 1 2 3) Value.zero) (cmdQ 0x60 3 1 2 3) := by decide

theorem witness_DivAndModCommands : ((regsOf [(2, Value.one)]).reg 2).toNat ≠ 0 ∧ (1#16).toNat ≠ 0 ∧
    (State.reset.reg 2).toNat = 0 ∧ (0#16).toNat = 0 := by decide

theorem witness_ZeroDivisorFaultIsPrecise : (3 : Reg) ≠ 4 ∧ State.reset.reg 2 = Value.zero ∧
    decode 0x60312400#32 = .ok (.divmod 3 4 1 2) ∧ decode 0x61312000#32 = .ok (.div 3 1 2) ∧
    decode 0x62312000#32 = .ok (.mod 3 1 2) ∧ decode 0xE1310000#32 = .ok (.divi 3 1 0#16) ∧
    decode 0xE2310000#32 = .ok (.modi 3 1 0#16) ∧
    ((start [] 0x61312000#32 Value.zero).present 0x43400000#32 0#256).pending =
      [⟨0x61312000#32, 0#256⟩, ⟨0x43400000#32, 0#256⟩] ∧ decode 0x43400000#32 = .ok (.inc 4) := by decide

theorem witness_LongDivisionMeetsItsResult : Value.zero.toNat = 0 ∧ H.toNat ≠ 0 ∧
    ones.toNat = 1 * H.toNat + (ones.toNat - H.toNat) ∧ ones.toNat - H.toNat < H.toNat := by decide

theorem witness_DivisionIdentityHoldsOnTheBlock : (6 : Reg) ≠ 7 ∧ (6 : Reg) ≠ 4 ∧ (7 : Reg) ≠ 4 ∧ (8 : Reg) ≠ 7 ∧
    ((regsOf [(4, H)]).reg 4).toNat ≠ 0 := by decide

theorem witness_StrWritesTheDigits : 2 ≤ (2#6).toNat ∧ (36#6).toNat ≤ 36 ∧ (1#6).toNat < 2 ∧ 36 < (37#6).toNat ∧
    ((regsOf [(1, G)]).reg 1).toNat ≠ 0 ∧ At (start [] (cmdS 0x70 1 1#6 0#10) Value.zero) (cmdS 0x70 1 1#6 0#10) ∧
    At (start [] (cmdS 0x70 1 37#6 0#10) Value.zero) (cmdS 0x70 1 37#6 0#10) := by decide

theorem witness_DigitCharactersAreAscii : digitChar 9 = 0x39#8 ∧ digitChar 10 = 0x61#8 ∧ digitChar 35 = 0x7A#8 := by
  decide

theorem witness_StringReadCommands : (3#16).toNat < (after00ff 0x72000003#32).slen ∧
    (after00ff 0x72000004#32).slen ≤ (4#16).toNat ∧ (after00ff 0x7200FFFF#32).slen ≤ (0xFFFF#16).toNat := by decide


end Sys2Proof.Tests
end

/-! Proofs of the statements about the state (10_state.md): the reset table, the invariant, and what a step may
change. -/

namespace Sys2Proof.Machine

/-! ### The characters of `str` -/

/-- Every digit below 36 has a digit character (R191). -/
theorem isDigitByte_digitChar (d : Nat) (hd : d < 36) : isDigitByte (digitChar d) = true := by
  revert d
  decide

theorem isDigitByte_zeroChar : isDigitByte zeroChar = true := by decide

theorem isDigitByte_of_mem_plainDigits {v base : Nat} (hb : 2 ≤ base) (hb' : base ≤ 36) {c : Byte}
    (hc : c ∈ plainDigits v base) : isDigitByte c = true := by
  unfold plainDigits at hc
  split at hc
  · rw [List.mem_singleton.mp hc, isDigitByte_zeroChar]
  · obtain ⟨d, hd, rfl⟩ := List.mem_map.mp (List.mem_reverse.mp hc)
    exact isDigitByte_digitChar d (Nat.lt_of_lt_of_le (Nat.digits_lt_base hb hd) hb')

theorem isDigitByte_of_mem_padLeft {n : Nat} {out : List Byte} (hout : ∀ c ∈ out, isDigitByte c = true) {c : Byte}
    (hc : c ∈ padLeft n out) : isDigitByte c = true := by
  obtain hpad | hc := List.mem_append.mp hc
  · rw [List.eq_of_mem_replicate hpad, isDigitByte_zeroChar]
  · exact hout c hc

theorem isDigitByte_of_mem_strOf {v : Value} {base : BitVec 6} {n : Nat} (hb : baseLegal base = true) {c : Byte}
    (hc : c ∈ strOf v base n) : isDigitByte c = true := by
  obtain ⟨hlo, hhi⟩ := (baseLegal_iff base).mp hb
  rw [strOf_eq v base n hlo] at hc
  exact isDigitByte_of_mem_padLeft (fun _ => isDigitByte_of_mem_plainDigits hlo hhi) hc

/-- No `STR` writes more than `STRCAP` characters: the padding stops at `minlen`, and a value has at most 256 digits
(R27, R190). -/
theorem strOf_length_le_strCap (v : Value) {base : BitVec 6} (minlen : BitVec 10) (hb : baseLegal base = true) :
    (strOf v base minlen.toNat).length ≤ Config.strCap := by
  have hlo : 2 ≤ base.toNat := ((baseLegal_iff base).mp hb).1
  have hdigits := (plainDigits_length v.toNat base.toNat hlo v.toNat_lt).2
  have hminlen : minlen.toNat < 1024 := minlen.isLt
  rw [strOf_eq v base _ hlo, padLeft_length, Config.strCap]
  omega

/-! ### What a command leaves unchanged -/

section CommandEnds

variable {i : Instr} {s t : State}

/-- A register that the command does not name as a destination keeps its value (R22). -/
theorem CommandEnds.reg_eq (h : CommandEnds i s t) {r : Reg} (hr : r ∉ destinations i) : t.reg r = s.reg r := by
  cases h with
  | wrote rd v hd =>
    have hne : r ≠ rd := by simpa [hd] using hr
    simp [State.reg_setReg_of_ne _ _ hne]
  | wroteBoth rd re v m _ hd =>
    obtain ⟨hrd, hre⟩ : r ≠ rd ∧ r ≠ re := by simpa [hd] using hr
    simp [State.reg_setReg_of_ne _ _ hrd, State.reg_setReg_of_ne _ _ hre]
  | answered | faulted | string | cleared => rfl

/-- `S` is kept, or the command is a `STR` with a legal base and `S` is what it converts (R27, R192). -/
theorem CommandEnds.str_cases (h : CommandEnds i s t) :
    t.str = s.str ∨ ∃ ra base minlen, i = .str ra base minlen ∧ baseLegal base = true ∧
      t.str = strOf (s.reg ra) base minlen.toNat := by
  cases h with
  | string ra base minlen hi hb => exact .inr ⟨ra, base, minlen, hi, hb, rfl⟩
  | wrote | wroteBoth | answered | faulted | cleared => exact .inl rfl

theorem CommandEnds.str_eq (h : CommandEnds i s t) (hi : isStr i = false) : t.str = s.str := by
  obtain hkept | ⟨_, _, _, rfl, _⟩ := h.str_cases
  · exact hkept
  · cases hi

end CommandEnds

/-! ### The inversion of a step -/

/-- The states a step can end in. -/
inductive StepEnds (s : State) : State → Prop
  /-- reset is taken -/
  | reset (hr : s.resetLine = true) : StepEnds s s.takeReset
  /-- no command waits -/
  | waited (hr : s.resetLine = false) (hp : s.pending = []) : StepEnds s s
  /-- the oldest word is a command, and it is executed -/
  | ran {t : State} (tx : Transaction) (rest : List Transaction) (i : Instr) (hr : s.resetLine = false)
      (hp : s.pending = tx :: rest) (hd : decode tx.cmd = .ok i) (he : CommandEnds i s t) : StepEnds s t
  /-- the oldest word is illegal -/
  | illegal (tx : Transaction) (rest : List Transaction) (e : DecodeError) (hr : s.resetLine = false)
      (hp : s.pending = tx :: rest) (hd : decode tx.cmd = .error e) : StepEnds s (s.raise .illegalCommand)

/-- Every step has a next state, and it is one of the four. -/
theorem step_ends (s : State) : ∃ t, step s = .next t ∧ StepEnds s t := by
  obtain ⟨hr, h⟩ | ⟨hr, hp, h⟩ | ⟨tx, rest, i, hr, hp, hd, h⟩ | ⟨tx, rest, e, hr, hp, hd, h⟩ := step_cases s
  · exact ⟨_, h, .reset hr⟩
  · exact ⟨_, h, .waited hr hp⟩
  · obtain ⟨t, ht, he⟩ := exec_ends i s
    exact ⟨t, h.trans ht, .ran tx rest i hr hp hd he⟩
  · exact ⟨_, h, .illegal tx rest e hr hp hd⟩

theorem stepEnds_of_step {s t : State} (h : step s = .next t) : StepEnds s t := by
  obtain ⟨u, hu, he⟩ := step_ends s
  cases h.symm.trans hu
  exact he

/-! ### The invariant -/

/-- The part of `State.Inv` about the string buffer: at most `STRCAP` characters, all of them digit characters. -/
def StringInv (str : List Byte) : Prop := str.length ≤ Config.strCap ∧ ∀ c ∈ str, isDigitByte c = true

theorem State.Inv.stringInv {s : State} (h : s.Inv) : StringInv s.str := by
  obtain ⟨hlen, hchars, -⟩ := h
  exact ⟨hlen, hchars⟩

theorem stringInv_strOf (v : Value) {base : BitVec 6} (minlen : BitVec 10) (hb : baseLegal base = true) :
    StringInv (strOf v base minlen.toNat) :=
  ⟨strOf_length_le_strCap v minlen hb, fun _ => isDigitByte_of_mem_strOf hb⟩

theorem CommandEnds.keeps_stringInv {i : Instr} {s t : State} (h : CommandEnds i s t) (hs : StringInv s.str) :
    StringInv t.str := by
  obtain hkept | ⟨ra, base, minlen, -, hb, hstr⟩ := h.str_cases
  · rwa [hkept]
  · rw [hstr]
    exact stringInv_strOf _ _ hb

/-- Giving one more response keeps the invariant when the new `S` meets its part and a fault's `rdata` is 0. -/
theorem Answered.keeps_inv {s t : State} {r : Response} (h : Answered s t r) (hs : s.Inv) (ht : StringInv t.str)
    (hr : r.status ≠ .ok → r.rdata = 0#256) : t.Inv := by
  obtain ⟨-, -, hresponses⟩ := h
  obtain ⟨-, -, hold⟩ := hs
  obtain ⟨hlen, hchars⟩ := ht
  refine ⟨hlen, hchars, ?_⟩
  rw [hresponses]
  exact List.forall_mem_append.mpr ⟨hold, List.forall_mem_singleton.mpr hr⟩

theorem CommandEnds.keeps_inv {i : Instr} {s t : State} (h : CommandEnds i s t) (hs : s.Inv) : t.Inv := by
  obtain ⟨r, hanswered, hr⟩ := h.answered_once
  exact hanswered.keeps_inv hs (h.keeps_stringInv hs.stringInv) hr

theorem State.raise_answered (s : State) (c : Cause) : Answered s (s.raise c) ⟨.raised c, 0#256⟩ :=
  ⟨rfl, rfl, rfl⟩

/-- Settles O13, by the four cases of a step: reset empties `S` and keeps the responses; a command answers once, and
only `STR` writes `S`; an illegal word answers with `rdata = 0`. -/
theorem stepKeepsInvariant : Obligations.StepKeepsInvariant := by
  intro s t hs h
  cases stepEnds_of_step h with
  | reset =>
    obtain ⟨-, -, hresponses⟩ := hs
    exact ⟨Nat.zero_le _, List.forall_mem_nil _, hresponses⟩
  | waited => exact hs
  | ran _ _ _ _ _ _ he => exact he.keeps_inv hs
  | illegal => exact (s.raise_answered _).keeps_inv hs hs.stringInv fun _ => rfl

/-! ### The sticky bits -/

/-- One response is given, and each sticky bit is or-ed with whether that response reports the bit's fault (R25). -/
def RecordsItsFault (s t : State) : Prop :=
  ∃ r : Response, t.responses = s.responses ++ [r] ∧
    t.status.dz = (s.status.dz || decide (r.status = .raised .divideByZero)) ∧
    t.status.ill = (s.status.ill || decide (r.status = .raised .illegalCommand))

theorem State.raise_recordsItsFault (s : State) (c : Cause) : RecordsItsFault s (s.raise c) :=
  ⟨⟨.raised c, 0#256⟩, rfl, by simp [StatusReg.record_dz], by simp [StatusReg.record_ill]⟩

/-- A response with status `OK` and an unchanged `STATUS`: nothing is recorded and nothing is cleared (R216). -/
theorem State.respond_recordsItsFault {s t : State} (v : PortWord) (hstatus : t.status = s.status)
    (hresponses : t.responses = s.responses) : RecordsItsFault s (t.respond v) :=
  ⟨⟨.ok, v⟩, by simp [hresponses], by simp [hstatus], by simp [hstatus]⟩

theorem CommandEnds.recordsItsFault {i : Instr} {s t : State} (h : CommandEnds i s t) (hc : i ≠ .clrstat) :
    RecordsItsFault s t := by
  cases h with
  | wrote | wroteBoth | answered | string => exact State.respond_recordsItsFault _ rfl rfl
  | faulted c => exact s.raise_recordsItsFault c
  | cleared hi => exact absurd hi hc

/-- Settles O18: the step runs the word at the head of the port, a command other than `CLRSTAT` or an illegal word,
and both record their own fault and clear nothing. -/
theorem stickyBitsRecordFaults : Obligations.StickyBitsRecordFaults := by
  intro s tx rest hr hp hclr
  obtain ⟨u, hu, hends⟩ := step_ends s
  suffices hrec : RecordsItsFault s u by
    obtain ⟨r, hrec⟩ := hrec
    exact ⟨u, r, hu, hrec⟩
  cases hends with
  | reset hreset => simp [hr] at hreset
  | waited _ hnone => simp [hp] at hnone
  | ran tx' rest' i _ hp' hd he =>
    obtain ⟨rfl, rfl⟩ := List.cons_eq_cons.mp (hp.symm.trans hp')
    exact he.recordsItsFault fun hi => hclr (hi ▸ hd)
  | illegal => exact s.raise_recordsItsFault _

/-! ### Who may change a register or the string buffer -/

/-- Settles O19: of the four ends of a step, waiting and an illegal word keep every register, and a command keeps
those it does not name. -/
theorem onlyNamedRegistersChange : Obligations.OnlyNamedRegistersChange := by
  intro s t r h hchanged
  cases stepEnds_of_step h with
  | reset hr => exact .inl hr
  | waited => exact absurd rfl hchanged
  | ran tx rest i _ hp hd he =>
    exact .inr ⟨tx, rest, i, hp, hd, by_contra fun hr => hchanged (he.reg_eq hr)⟩
  | illegal => exact absurd (s.raise_reg _ r) hchanged

/-- Settles O20: of the four ends of a step, waiting and an illegal word keep `S`, and so does a command that is no
`STR`. -/
theorem onlyStrChangesString : Obligations.OnlyStrChangesString := by
  intro s t h hchanged
  cases stepEnds_of_step h with
  | reset hr => exact .inl hr
  | waited => exact absurd rfl hchanged
  | ran tx rest i _ hp hd he =>
    exact .inr ⟨tx, rest, i, hp, hd, by_contra fun hi => hchanged (he.str_eq (Bool.eq_false_of_not_eq_true hi))⟩
  | illegal => exact absurd (s.raise_str _) hchanged

/-! ### The reset state -/

/-- Settles O11: every register reads the zero value, and the other fields stand in the reset state as literals. -/
theorem resetStateIsAllZero : Obligations.ResetStateIsAllZero :=
  ⟨fun r => by simp [Value.zero], rfl, rfl, rfl, rfl⟩

/-- Settles O14: `S` and the response port are empty. -/
theorem resetMeetsInvariant : Obligations.ResetMeetsInvariant :=
  ⟨Nat.zero_le _, List.forall_mem_nil _, List.forall_mem_nil _⟩

end Sys2Proof.Machine

/-! Proofs of the statements about the command and response ports (20_memory.md): what a command answers, and that it
sees nothing of the ports but the low `wdata` bits it uses. -/

namespace Sys2Proof.Machine

/-! ### A step with a command waiting -/

theorem step_of_decode_ok {s : State} {tx : Transaction} {rest : List Transaction} {i : Instr}
    (hr : s.resetLine = false) (hp : s.pending = tx :: rest) (hd : decode tx.cmd = .ok i) : step s = exec i s := by
  simp [step, hr, hp, hd]

theorem step_of_decode_error {s : State} {tx : Transaction} {rest : List Transaction} {e : DecodeError}
    (hr : s.resetLine = false) (hp : s.pending = tx :: rest) (hd : decode tx.cmd = .error e) :
    step s = fail .illegalCommand s := by
  simp [step, hr, hp, hd]

/-- Settles O7: `step` dispatches on the head of the port, which is where `withFetchWord` puts its word. -/
theorem stepRunsDecodedCommand : Obligations.StepRunsDecodedCommand := by
  refine ⟨fun s tx rest i => step_of_decode_ok, fun s i nbits w hd => ?_⟩
  obtain ⟨d, hp, hr⟩ := withFetchWord_head s nbits w
  exact step_of_decode_ok hr hp hd

/-! ### What a response carries -/

/-- The `rdata` of a command that completes: the value of its first destination, the new `SLEN` of `STR`, 0 of
`CLRSTAT` (R41). -/
def CarriesResult (i : Instr) (t : State) (rdata : PortWord) : Prop :=
  (∀ rd, (destinations i).head? = some rd → rdata = (t.reg rd).toPort) ∧
    (isStr i = true → rdata = BitVec.ofNat 256 t.slen) ∧ (i = .clrstat → rdata = 0#256)

theorem CommandEnds.answers_result {i : Instr} {s t : State} (h : CommandEnds i s t) :
    ∃ r, Answered s t r ∧ (r.status ≠ .ok → r.rdata = 0#256) ∧ (r.status = .ok → CarriesResult i t r.rdata) := by
  cases h with
  | wrote _ _ hd hs hc | wroteBoth _ _ _ _ _ hd hs hc | answered _ hd hs hc =>
    exact ⟨⟨.ok, _⟩, ⟨rfl, rfl, rfl⟩, by simp, fun _ => ⟨by simp [hd], by simp [hs], by simp [hc]⟩⟩
  | faulted c => exact ⟨⟨.raised c, 0#256⟩, ⟨rfl, rfl, rfl⟩, fun _ => rfl, by simp⟩
  | string ra base minlen hi =>
    subst hi
    exact ⟨_, ⟨rfl, rfl, rfl⟩, by simp, fun _ => ⟨by simp [destinations], fun _ => rfl, by simp⟩⟩
  | cleared hi =>
    subst hi
    exact ⟨⟨.ok, 0#256⟩, ⟨rfl, rfl, rfl⟩, by simp, fun _ => ⟨by simp [destinations], by simp [isStr], fun _ => rfl⟩⟩

/-- Settles O15: each of the six ends of a command gives its one response. -/
theorem everyCommandAnswersItsResult : Obligations.EveryCommandAnswersItsResult := by
  intro i s
  obtain ⟨t, ht, hends⟩ := exec_ends i s
  obtain ⟨r, hanswered, hfault, hok⟩ := hends.answers_result
  exact ⟨t, r, ht, hanswered, hfault, hok⟩

/-! ### A command does not see the ports -/

/-- The state with other transactions waiting and other responses standing. -/
def State.withPorts (s : State) (pending : List Transaction) (responses : List Response) : State :=
  { s with pending := pending, responses := responses }

theorem State.withPorts_eq_self {s : State} {p : List Transaction} {q : List Response} (hp : s.pending = p)
    (hq : s.responses = q) : s.withPorts p q = s := by
  subst hp hq
  rfl

/-- `f` answers `s` once, and does the same whatever waits or stands at the ports, as long as the low `n` bits of
`wdata` are the same: it uses no other part of the ports (R45, R49). -/
def BlindToPorts (n : Nat) (f : State → Result) (s : State) : Prop :=
  ∃ t r, f s = .next t ∧ Answered s t r ∧ ∀ p q, (s.withPorts p q).wdataLow n = s.wdataLow n →
    f (s.withPorts p q) = .next (t.withPorts p.tail (q ++ [r]))

theorem fail_blindToPorts (n : Nat) (c : Cause) (s : State) : BlindToPorts n (fail c) s :=
  ⟨_, _, rfl, ⟨rfl, rfl, rfl⟩, fun _ _ _ => rfl⟩

theorem writeBack_blindToPorts (n : Nat) (rd : Reg) (v : Value) (s : State) : BlindToPorts n (writeBack rd v) s :=
  ⟨_, _, rfl, ⟨rfl, rfl, rfl⟩, fun _ _ _ => rfl⟩

theorem writeBack_setReg_blindToPorts (n : Nat) (rd re : Reg) (v m : Value) (s : State) :
    BlindToPorts n (fun s => writeBack rd v (s.setReg re m)) s :=
  ⟨_, _, rfl, ⟨rfl, rfl, rfl⟩, fun _ _ _ => rfl⟩

/-- A load: the value written is a function of the low `n` bits of `wdata`. -/
theorem load_blindToPorts {n : Nat} (rd : Reg) (cast : BitVec n → Value) (s : State) :
    BlindToPorts n (fun s => writeBack rd (cast (s.wdataLow n)) s) s :=
  ⟨_, _, rfl, ⟨rfl, rfl, rfl⟩, fun p q hw => by simp only [hw]; rfl⟩

theorem State.wdataLow_256 (s : State) : s.wdataLow 256 = s.wdata :=
  BitVec.extractLsb'_eq_self

theorem execLdp_blindToPorts (rd : Reg) (s : State) : BlindToPorts 256 (execLdp rd) s := by
  have h := load_blindToPorts rd Value.ofPort s
  simp only [State.wdataLow_256] at h
  exact h

theorem divProject_blindToPorts (n : Nat) (pick : Value × Value → Value) (rd : Reg) (a b : Value) (s : State) :
    BlindToPorts n (divProject pick rd a b) s := by
  unfold divProject
  cases divmod256 a b with
  | none => exact fail_blindToPorts n _ s
  | some qr => exact writeBack_blindToPorts n rd _ s

theorem execDivmod_blindToPorts (n : Nat) (rd re ra rb : Reg) (s : State) :
    BlindToPorts n (execDivmod rd re ra rb) s := by
  unfold execDivmod
  split
  · exact fail_blindToPorts n _ s
  · suffices h : ∀ result, BlindToPorts n (fun s' => match result with
        | none => fail .divideByZero s'
        | some (q, r) => writeBack rd q (s'.setReg re r)) s from h (divmod256 (s.reg ra) (s.reg rb))
    intro result
    cases result with
    | none => exact fail_blindToPorts n _ s
    | some qr => exact writeBack_setReg_blindToPorts n rd re _ _ s

theorem postfixStep_blindToPorts (n : Nat) (f : Value → Value) (rd ra : Reg) (s : State) :
    BlindToPorts n (postfixStep f rd ra) s := by
  unfold postfixStep
  split
  · exact fail_blindToPorts n _ s
  · exact writeBack_setReg_blindToPorts n rd ra _ _ s

theorem execStr_blindToPorts (n : Nat) (ra : Reg) (base : BitVec 6) (minlen : BitVec 10) (s : State) :
    BlindToPorts n (execStr ra base minlen) s := by
  unfold execStr
  split
  · exact ⟨_, _, rfl, ⟨rfl, rfl, rfl⟩, fun _ _ _ => rfl⟩
  · exact fail_blindToPorts n _ s

/-- No command sees more of the ports than the `wdata` bits it uses (R45, R49). -/
theorem exec_blindToPorts (i : Instr) (s : State) : BlindToPorts (wdataBits i) (exec i) s := by
  cases i
  case ldz8 rd => exact load_blindToPorts rd zext256 s
  case ldz16 rd => exact load_blindToPorts rd zext256 s
  case ldz32 rd => exact load_blindToPorts rd zext256 s
  case ldz64 rd => exact load_blindToPorts rd zext256 s
  case ldz128 rd => exact load_blindToPorts rd zext256 s
  case lds8 rd => exact load_blindToPorts rd sext256 s
  case lds16 rd => exact load_blindToPorts rd sext256 s
  case lds32 rd => exact load_blindToPorts rd sext256 s
  case lds64 rd => exact load_blindToPorts rd sext256 s
  case lds128 rd => exact load_blindToPorts rd sext256 s
  case ldp rd => exact execLdp_blindToPorts rd s
  case pinc rd ra => exact postfixStep_blindToPorts 0 (fun t => add256 t Value.one) rd ra s
  case pdec rd ra => exact postfixStep_blindToPorts 0 (fun t => sub256 t Value.one) rd ra s
  case divmod rd re ra rb => exact execDivmod_blindToPorts 0 rd re ra rb s
  case div rd ra rb => exact divProject_blindToPorts 0 Prod.fst rd (s.reg ra) (s.reg rb) s
  case mod rd ra rb => exact divProject_blindToPorts 0 Prod.snd rd (s.reg ra) (s.reg rb) s
  case divi rd ra imm => exact divProject_blindToPorts 0 Prod.fst rd (s.reg ra) (immOperand imm) s
  case modi rd ra imm => exact divProject_blindToPorts 0 Prod.snd rd (s.reg ra) (immOperand imm) s
  case str ra base minlen => exact execStr_blindToPorts 0 ra base minlen s
  all_goals exact ⟨_, _, rfl, ⟨rfl, rfl, rfl⟩, fun _ _ _ => rfl⟩

/-! ### The commands that wait behind -/

/-- A step with a command waiting answers that command, and does the same whatever waits behind it: it leaves it
waiting. -/
theorem step_answers_head {s : State} {tx : Transaction} {rest : List Transaction} (hr : s.resetLine = false)
    (hp : s.pending = tx :: rest) :
    ∃ u r, step s = .next u ∧ Answered s u r ∧
      ∀ behind, step { s with pending := tx :: behind } = .next { u with pending := behind } := by
  cases hd : decode tx.cmd with
  | error e =>
    refine ⟨_, _, step_of_decode_error hr hp hd, s.raise_answered _, fun behind => ?_⟩
    exact step_of_decode_error hr rfl hd
  | ok i =>
    obtain ⟨u, r, hu, hanswered, hblind⟩ := exec_blindToPorts i s
    refine ⟨u, r, (step_of_decode_ok hr hp hd).trans hu, hanswered, fun behind => ?_⟩
    have hwdata : (s.withPorts (tx :: behind) s.responses).wdata = s.wdata := by simp [State.wdata, State.withPorts, hp]
    obtain ⟨-, -, hresponses⟩ := hanswered
    calc step { s with pending := tx :: behind }
        = exec i (s.withPorts (tx :: behind) s.responses) := step_of_decode_ok hr rfl hd
      _ = .next (u.withPorts behind (s.responses ++ [r])) := hblind _ _ (by rw [State.wdataLow, hwdata, State.wdataLow])
      _ = .next { u with pending := behind } := by rw [← hresponses]; rfl

/-- Settles O17: the port with one command alone is the case of `step_answers_head` with nothing behind. -/
theorem laterCommandsAreNotSeen : Obligations.LaterCommandsAreNotSeen := by
  intro s tx rest hr
  obtain ⟨u, r, hu, ⟨-, hpending, -⟩, hbehind⟩ :=
    step_answers_head (s := { s with pending := [tx] }) (tx := tx) (rest := []) hr rfl
  exact ⟨u, hu, hpending, hbehind rest⟩

/-- One step of a run answers the oldest command, and commands presented behind the waiting ones stay behind. -/
theorem step_presentAll {s : State} {tx : Transaction} {rest : List Transaction} (hr : s.resetLine = false)
    (hp : s.pending = tx :: rest) :
    ∃ u r, step s = .next u ∧ Answered s u r ∧ ∀ more, step (s.presentAll more) = .next (u.presentAll more) := by
  obtain ⟨u, r, hu, hanswered, hbehind⟩ := step_answers_head hr hp
  have ⟨_, hpending, _⟩ := hanswered
  refine ⟨u, r, hu, hanswered, fun more => ?_⟩
  rw [State.presentAll, State.presentAll, hpending, hp]
  exact hbehind (rest ++ more)

/-- Settles O16, by induction on the waiting commands. -/
theorem presentedCommandsAreAnswered : Obligations.PresentedCommandsAreAnswered := by
  intro s more hr
  induction hp : s.pending generalizing s with
  | nil => exact ⟨s, [], rfl, hp, hr, by simp, rfl, rfl⟩
  | cons tx rest ih =>
    obtain ⟨u, r, hu, ⟨hreset, hpending, hresponses⟩, hmore⟩ := step_presentAll hr hp
    obtain ⟨t, rs, hrun, hnone, htr, hrs, hlen, hrunMore⟩ := ih u (hreset.trans hr) (by rw [hpending, hp]; rfl)
    refine ⟨t, r :: rs, ?_, hnone, htr, by simp [hrs, hresponses], by simp [hlen], ?_⟩
    · exact (run_succ_of_next core rest.length s u hu).trans hrun
    · exact (run_succ_of_next core rest.length _ _ (hmore more)).trans hrunMore

/-! ### The read commands -/

theorem wdataBits_of_isRead {i : Instr} (h : isRead i = true) : wdataBits i = 0 := by
  revert h
  cases i <;> simp [isRead, wdataBits]

theorem CommandEnds.eq_respond_of_isRead {i : Instr} {s t : State} (h : CommandEnds i s t) (hi : isRead i = true) :
    ∃ v, t = s.respond v := by
  cases h with
  | answered v => exact ⟨v, rfl⟩
  | wrote _ _ _ _ _ hr | wroteBoth _ _ _ _ _ _ _ _ hr | faulted _ _ hr => simp [hi] at hr
  | string _ _ _ h | cleared h => simp [h, isRead] at hi

/-- Settles O21: a read only responds, and the second one starts from a state that differs from the first one's at
the ports, which it does not see. -/
theorem readsHaveNoSideEffect : Obligations.ReadsHaveNoSideEffect := by
  intro i s hi
  obtain ⟨t, r, ht, hanswered, hblind⟩ := exec_blindToPorts i s
  obtain ⟨t', ht', hends⟩ := exec_ends i s
  cases ht.symm.trans ht'
  obtain ⟨v, rfl⟩ := hends.eq_respond_of_isRead hi
  rw [wdataBits_of_isRead hi] at hblind
  have hagain := hblind s.pending.tail (s.responses ++ [⟨.ok, v⟩]) (Subsingleton.elim _ _)
  exact ⟨s.respond v, _, r, ht, hagain, hanswered, ⟨rfl, rfl, rfl⟩, fun _ => rfl, rfl, rfl⟩

/-! ### A word that decodes is legal by the masks of R61 to R63 -/

theorem bitsOf_toNat (w : CmdWord) (lo len : Nat) : bitsOf w.toNat lo len = (w.extractLsb' lo len).toNat := by
  rw [BitVec.extractLsb'_toNat, Nat.shiftRight_eq_div_pow, bitsOf]

theorem ofWord_rd_toNat (w : CmdWord) : (Fields.ofWord w).rd.toNat = bitsOf w.toNat 20 4 := (bitsOf_toNat w 20 4).symm

theorem ofWord_ra_toNat (w : CmdWord) : (Fields.ofWord w).ra.toNat = bitsOf w.toNat 16 4 := (bitsOf_toNat w 16 4).symm

/-- A piece of `cmd[15:0]` is the same piece of the word. -/
theorem ofWord_imm_extractLsb' (w : CmdWord) (lo len : Nat) (h : lo + len ≤ 16) :
    ((Fields.ofWord w).imm.extractLsb' lo len).toNat = bitsOf w.toNat lo len := by
  rw [Fields.ofWord, BitVec.extractLsb'_extractLsb'_of_le h, bitsOf_toNat]

theorem ofWord_wsel_toNat (w : CmdWord) : (Fields.ofWord w).wsel.toNat = bitsOf w.toNat 12 4 :=
  ofWord_imm_extractLsb' w 12 4 (by decide)

theorem ofWord_re_toNat (w : CmdWord) : (Fields.ofWord w).re.toNat = bitsOf w.toNat 8 4 :=
  ofWord_imm_extractLsb' w 8 4 (by decide)

theorem ofWord_base_toNat (w : CmdWord) : (Fields.ofWord w).base.toNat = bitsOf w.toNat 10 6 :=
  ofWord_imm_extractLsb' w 10 6 (by decide)

/-- The bits a format marks 0, as fields of the word (R61). -/
def reservedFields : Format → Fields
  | .N => ⟨0#8, 0xF#4, 0xF#4, 0xFFFF#16⟩
  | .D => ⟨0#8, 0#4, 0xF#4, 0xFFFF#16⟩
  | .U => ⟨0#8, 0#4, 0#4, 0xFFFF#16⟩
  | .R => ⟨0#8, 0#4, 0#4, 0x0FFF#16⟩
  | .Q => ⟨0#8, 0#4, 0#4, 0x00FF#16⟩
  | .I => ⟨0#8, 0#4, 0#4, 0x0000#16⟩
  | .L => ⟨0#8, 0#4, 0xF#4, 0x0FFF#16⟩
  | .G => ⟨0#8, 0xF#4, 0#4, 0x0FFF#16⟩
  | .A => ⟨0#8, 0xF#4, 0#4, 0xFFFF#16⟩
  | .S => ⟨0#8, 0xF#4, 0#4, 0x0000#16⟩
  | .X => ⟨0#8, 0xF#4, 0xF#4, 0x0000#16⟩

theorem reservedFields_toWord (fmt : Format) : (reservedFields fmt).toWord.toNat = fmt.reserved := by
  cases fmt <;> rfl

theorem reservedFields_op (fmt : Format) : (reservedFields fmt).op = 0#8 := by
  cases fmt <;> rfl

theorem toWord_and_toWord (f g : Fields) :
    f.toWord &&& g.toWord = Fields.toWord ⟨f.op &&& g.op, f.rd &&& g.rd, f.ra &&& g.ra, f.imm &&& g.imm⟩ := by
  refine BitVec.and_append.trans ?_
  rw [BitVec.and_append, BitVec.and_append]
  rfl

/-- The fields hold no 1 where the format marks 0 (R64). -/
def ReservedZero (fmt : Format) (f : Fields) : Prop :=
  f.rd &&& (reservedFields fmt).rd = 0#4 ∧ f.ra &&& (reservedFields fmt).ra = 0#4 ∧
    f.imm &&& (reservedFields fmt).imm = 0#16

theorem ReservedZero.and_reserved {fmt : Format} {w : CmdWord} (h : ReservedZero fmt (Fields.ofWord w)) :
    w.toNat &&& fmt.reserved = 0 := by
  obtain ⟨hrd, hra, himm⟩ := h
  have hand := toWord_and_toWord (Fields.ofWord w) (reservedFields fmt)
  rw [hrd, hra, himm, reservedFields_op, Fields.toWord_ofWord] at hand
  rw [← reservedFields_toWord, ← BitVec.toNat_and, hand]
  simp [Fields.toWord]

/-- A field of zeros below bit `n`, under the mask of these bits. -/
theorem and_lowMask_eq_zero {x : BitVec 16} {n : Nat} (h : x.extractLsb' 0 n = 0#n) :
    x &&& BitVec.ofNat 16 (2 ^ n - 1) = 0#16 := by
  have hx : x.toNat % 2 ^ n = 0 := by simpa using congrArg BitVec.toNat h
  calc x &&& BitVec.ofNat 16 (2 ^ n - 1)
      = BitVec.ofNat 16 (x.toNat &&& (2 ^ n - 1)) := by rw [BitVec.ofNat_and, BitVec.ofNat_toNat, BitVec.setWidth_eq]
    _ = 0#16 := by rw [Nat.and_two_pow_sub_one_eq_mod, hx]

/-- `PINC`, `PDEC`, `DIVMOD` and `STR`: the opcodes of lines 4 to 6 of R63. -/
def restrictedOpcodes : List Nat := [0x45, 0x46, 0x60, 0x70]

/-- The rules by which a word of an assigned opcode is read: one for each format of R61, and format U with two
destinations apart. -/
inductive ReadAs (f : Fields) (op : Nat) : Format → Decoded → Prop
  | N (i : Instr) (hop : op ∉ restrictedOpcodes) : ReadAs f op .N (decodeN f i)
  | D (i : Reg → Instr) (hop : op ∉ restrictedOpcodes) : ReadAs f op .D (decodeD f i)
  | U (i : Reg → Reg → Instr) (hop : op ∉ restrictedOpcodes) : ReadAs f op .U (decodeU f i)
  | UPair (i : Reg → Reg → Instr) (hop : op ∈ [0x45, 0x46]) : ReadAs f op .U (decodeUPair f i)
  | R (i : Reg → Reg → Reg → Instr) (hop : op ∉ restrictedOpcodes) : ReadAs f op .R (decodeR f i)
  | Q (i : Reg → Reg → Reg → Reg → Instr) (hop : op = 0x60) : ReadAs f op .Q (decodeQ f i)
  | I (i : Reg → Reg → BitVec 16 → Instr) (hop : op ∉ restrictedOpcodes) : ReadAs f op .I (decodeI f i)
  | L (i8 i16 i32 i64 i128 : Reg → Instr) (hop : op ∉ restrictedOpcodes) :
      ReadAs f op .L (decodeL f i8 i16 i32 i64 i128)
  | G (i8 i16 i32 i64 i128 : Reg → Instr) (hop : op ∉ restrictedOpcodes) :
      ReadAs f op .G (decodeG f i8 i16 i32 i64 i128)
  | A (i : Reg → Instr) (hop : op ∉ restrictedOpcodes) : ReadAs f op .A (decodeA f i)
  | S (i : Reg → BitVec 6 → BitVec 10 → Instr) (hop : op = 0x70) : ReadAs f op .S (decodeS f i)
  | X (i : BitVec 16 → Instr) (hop : op ∉ restrictedOpcodes) : ReadAs f op .X (decodeX f i)

/-- The opcode map read once: an unassigned opcode, or the rule of the opcode's format (R62, R65). -/
theorem decodeFields_cases (f : Fields) :
    decodeFields f = .error .unassignedOpcode ∨
      ∃ fmt, formatOf f.op.toNat = some fmt ∧ ReadAs f f.op.toNat fmt (decodeFields f) := by
  unfold decodeFields
  split
  case h_55 => exact .inl rfl
  all_goals
    next hop =>
    rw [hop]
    exact .inr ⟨_, rfl, by constructor; decide⟩

theorem needZero_eq_ok {zero : Bool} {d : Decoded} {i : Instr} :
    needZero zero d = .ok i ↔ zero = true ∧ d = .ok i := by
  cases zero <;> simp [needZero]

theorem pickWidth_eq_ok {wsel : BitVec 4} {i8 i16 i32 i64 i128 i : Instr}
    (h : pickWidth wsel i8 i16 i32 i64 i128 = .ok i) : wsel.toNat ≤ 4 := by
  unfold pickWidth at h
  split at h
  case h_6 => cases h
  all_goals omega

/-- Line 2 of R63. -/
theorem ReadAs.reservedZero {f : Fields} {op : Nat} {fmt : Format} {d : Decoded} {i : Instr}
    (h : ReadAs f op fmt d) (hd : d = .ok i) : ReservedZero fmt f := by
  have hlow12 : f.low12 = 0#12 → f.imm &&& 0x0FFF#16 = 0#16 := and_lowMask_eq_zero (n := 12)
  have hlow8 : f.low8 = 0#8 → f.imm &&& 0x00FF#16 = 0#16 := and_lowMask_eq_zero (n := 8)
  cases h with
  | I => simp [ReservedZero, reservedFields]
  | N | D | U | UPair | R | Q | L | G | A | S | X =>
    obtain ⟨hzero, -⟩ := needZero_eq_ok.mp hd
    simp_all [ReservedZero, reservedFields]

/-- Lines 3 to 6 of R63. -/
theorem ReadAs.restrictions_hold {w : CmdWord} {op : Nat} {fmt : Format} {d : Decoded} {i : Instr}
    (h : ReadAs (Fields.ofWord w) op fmt d) (hd : d = .ok i) : restrictionsHold op fmt w.toNat = true := by
  cases h with
  | N _ hop | D _ hop | U _ hop | R _ hop | I _ hop | A _ hop | X _ hop =>
    simp_all [restrictionsHold, restrictedOpcodes]
  | L _ _ _ _ _ hop | G _ _ _ _ _ hop =>
    obtain ⟨-, hpick⟩ := needZero_eq_ok.mp hd
    have hwsel := pickWidth_eq_ok hpick
    rw [ofWord_wsel_toNat] at hwsel
    simp_all [restrictionsHold, restrictedOpcodes]
  | UPair _ hop =>
    obtain ⟨-, hpair⟩ := needZero_eq_ok.mp hd
    split at hpair
    · cases hpair
    · next hne =>
      rw [beq_iff_eq, ← BitVec.toNat_inj, ofWord_rd_toNat, ofWord_ra_toNat] at hne
      obtain rfl | rfl : op = 0x45 ∨ op = 0x46 := by simpa using hop
      all_goals simp [restrictionsHold, hne]
  | Q _ hop =>
    obtain ⟨-, hpair⟩ := needZero_eq_ok.mp hd
    split at hpair
    · cases hpair
    · next hne =>
      rw [beq_iff_eq, ← BitVec.toNat_inj, ofWord_rd_toNat, ofWord_re_toNat] at hne
      simp [restrictionsHold, hop, hne]
  | S _ hop =>
    obtain ⟨-, hbase⟩ := needZero_eq_ok.mp hd
    split at hbase
    · next hlegal =>
      rw [baseLegal_iff, ofWord_base_toNat] at hlegal
      simp [restrictionsHold, hop, hlegal]
    · cases hbase

/-- The masks accept every word that the decoder accepts (R63). -/
theorem legalWord_of_decode_ok {w : CmdWord} {i : Instr} (h : decode w = .ok i) : legalWord w = true := by
  obtain herr | ⟨fmt, hfmt, hread⟩ := decodeFields_cases (Fields.ofWord w)
  · cases herr.symm.trans h
  · have hop : bitsOf w.toNat 24 8 = (Fields.ofWord w).op.toNat := bitsOf_toNat w 24 8
    simp [legalWord, hop, hfmt, (hread.reservedZero h).and_reserved, hread.restrictions_hold h]

/-! ### The `wdata` bits that a command does not use -/

theorem decode_of_not_legalWord {w : CmdWord} (h : legalWord w = false) : ∃ e, decode w = .error e := by
  cases hd : decode w with
  | error e => exact ⟨e, rfl⟩
  | ok i => simp [legalWord_of_decode_ok hd] at h

/-- Settles O22: a command does not see the other bits, and an illegal word is not executed at all. -/
theorem ignoredWdataBitsDoNotMatter : Obligations.IgnoredWdataBitsDoNotMatter := by
  intro s w d d' rest
  refine ⟨fun i hbits => ?_, fun hlegal hr => ?_⟩
  · obtain ⟨t, r, ht, ⟨-, hpending, hresponses⟩, hblind⟩ := exec_blindToPorts i { s with pending := ⟨w, d⟩ :: rest }
    have hother := hblind (⟨w, d'⟩ :: rest) s.responses
      (BitVec.eq_of_toNat_eq (by rw [wdataLow_toNat, wdataLow_toNat]; exact hbits.symm))
    have hself : t.withPorts rest (s.responses ++ [r]) = t := State.withPorts_eq_self hpending hresponses
    exact ht.trans (hother.trans (congrArg _ hself)).symm
  · obtain ⟨e, hd⟩ := decode_of_not_legalWord hlegal
    have hfault (d : PortWord) : step { s with pending := ⟨w, d⟩ :: rest } =
        fail .illegalCommand { s with pending := ⟨w, d⟩ :: rest } := step_of_decode_error hr rfl hd
    rw [hfault d, hfault d']
    rfl

end Sys2Proof.Machine

/-! Proofs of the statements about the encoding (30_encoding.md): the round trip between commands and words, which
words are legal, what an illegal one does, and the pseudo-instructions. -/

namespace Sys2Proof.Machine

/-! ### From a command to its word and back -/

/-- The family `DecodeEncode` put together: one member for each command. -/
theorem decode_encode : (i : Instr) → Laws.DecodeEncode.Statement i
  | .clr rd => Laws.DecodeEncode.clr rd
  | .mov rd ra => Laws.DecodeEncode.mov rd ra
  | .ldz8 rd => Laws.DecodeEncode.ldz8 rd
  | .ldz16 rd => Laws.DecodeEncode.ldz16 rd
  | .ldz32 rd => Laws.DecodeEncode.ldz32 rd
  | .ldz64 rd => Laws.DecodeEncode.ldz64 rd
  | .ldz128 rd => Laws.DecodeEncode.ldz128 rd
  | .lds8 rd => Laws.DecodeEncode.lds8 rd
  | .lds16 rd => Laws.DecodeEncode.lds16 rd
  | .lds32 rd => Laws.DecodeEncode.lds32 rd
  | .lds64 rd => Laws.DecodeEncode.lds64 rd
  | .lds128 rd => Laws.DecodeEncode.lds128 rd
  | .ldp rd => Laws.DecodeEncode.ldp rd
  | .rd8 ra => Laws.DecodeEncode.rd8 ra
  | .rd16 ra => Laws.DecodeEncode.rd16 ra
  | .rd32 ra => Laws.DecodeEncode.rd32 ra
  | .rd64 ra => Laws.DecodeEncode.rd64 ra
  | .rd128 ra => Laws.DecodeEncode.rd128 ra
  | .rdu ra => Laws.DecodeEncode.rdu ra
  | .rdv ra => Laws.DecodeEncode.rdv ra
  | .bool rd ra => Laws.DecodeEncode.bool rd ra
  | .bits rd ra => Laws.DecodeEncode.bits rd ra
  | .rdstat => Laws.DecodeEncode.rdstat
  | .clrstat => Laws.DecodeEncode.clrstat
  | .and rd ra rb => Laws.DecodeEncode.and rd ra rb
  | .or rd ra rb => Laws.DecodeEncode.or rd ra rb
  | .xor rd ra rb => Laws.DecodeEncode.xor rd ra rb
  | .not rd ra => Laws.DecodeEncode.not rd ra
  | .shl rd ra rb => Laws.DecodeEncode.shl rd ra rb
  | .shr rd ra rb => Laws.DecodeEncode.shr rd ra rb
  | .eq rd ra rb => Laws.DecodeEncode.eq rd ra rb
  | .ne rd ra rb => Laws.DecodeEncode.ne rd ra rb
  | .lt rd ra rb => Laws.DecodeEncode.lt rd ra rb
  | .gt rd ra rb => Laws.DecodeEncode.gt rd ra rb
  | .le rd ra rb => Laws.DecodeEncode.le rd ra rb
  | .ge rd ra rb => Laws.DecodeEncode.ge rd ra rb
  | .add rd ra rb => Laws.DecodeEncode.add rd ra rb
  | .sub rd ra rb => Laws.DecodeEncode.sub rd ra rb
  | .neg rd ra => Laws.DecodeEncode.neg rd ra
  | .inc rd => Laws.DecodeEncode.inc rd
  | .dec rd => Laws.DecodeEncode.dec rd
  | .pinc rd ra => Laws.DecodeEncode.pinc rd ra
  | .pdec rd ra => Laws.DecodeEncode.pdec rd ra
  | .mul rd ra rb => Laws.DecodeEncode.mul rd ra rb
  | .divmod rd re ra rb => Laws.DecodeEncode.divmod rd re ra rb
  | .div rd ra rb => Laws.DecodeEncode.div rd ra rb
  | .mod rd ra rb => Laws.DecodeEncode.mod rd ra rb
  | .str ra base minlen => Laws.DecodeEncode.str ra base minlen
  | .rdsl => Laws.DecodeEncode.rdsl
  | .rdsc idx => Laws.DecodeEncode.rdsc idx
  | .andi rd ra imm => Laws.DecodeEncode.andi rd ra imm
  | .ori rd ra imm => Laws.DecodeEncode.ori rd ra imm
  | .xori rd ra imm => Laws.DecodeEncode.xori rd ra imm
  | .shli rd ra imm => Laws.DecodeEncode.shli rd ra imm
  | .shri rd ra imm => Laws.DecodeEncode.shri rd ra imm
  | .eqi rd ra imm => Laws.DecodeEncode.eqi rd ra imm
  | .nei rd ra imm => Laws.DecodeEncode.nei rd ra imm
  | .lti rd ra imm => Laws.DecodeEncode.lti rd ra imm
  | .gti rd ra imm => Laws.DecodeEncode.gti rd ra imm
  | .lei rd ra imm => Laws.DecodeEncode.lei rd ra imm
  | .gei rd ra imm => Laws.DecodeEncode.gei rd ra imm
  | .addi rd ra imm => Laws.DecodeEncode.addi rd ra imm
  | .subi rd ra imm => Laws.DecodeEncode.subi rd ra imm
  | .muli rd ra imm => Laws.DecodeEncode.muli rd ra imm
  | .divi rd ra imm => Laws.DecodeEncode.divi rd ra imm
  | .modi rd ra imm => Laws.DecodeEncode.modi rd ra imm

/-- Settles O2, command by command. -/
theorem encodedCommandDecodesBack : Obligations.EncodedCommandDecodesBack := decode_encode

/-! ### From a word to its command and back -/

/-- `i` is a well-formed command whose word has the fields `f`. -/
def IsCommandOf (f : Fields) (i : Instr) : Prop := i.WellFormed ∧ i.fields = f

/-- A reading of the fields `f` accepts no command but one whose word has these fields. -/
def ReadsBack (f : Fields) (d : Decoded) : Prop := ∀ i, d = .ok i → IsCommandOf f i

theorem ok_readsBack {f : Fields} {n : Nat} {rd ra : BitVec 4} {imm : BitVec 16} {i : Instr} (hop : f.op.toNat = n)
    (hi : IsCommandOf ⟨BitVec.ofNat 8 n, rd, ra, imm⟩ i) (hrd : rd = f.rd) (hra : ra = f.ra) (himm : imm = f.imm) :
    ReadsBack f (.ok i) := by
  intro j hj
  cases hj
  subst hop hrd hra himm
  rwa [BitVec.ofNat_toNat, BitVec.setWidth_eq] at hi

theorem error_readsBack {f : Fields} (e : DecodeError) : ReadsBack f (.error e) := by
  intro i hi
  cases hi

theorem needZero_readsBack {f : Fields} {zero : Bool} {d : Decoded} (h : zero = true → ReadsBack f d) :
    ReadsBack f (needZero zero d) := by
  intro i hi
  obtain ⟨hzero, hd⟩ := needZero_eq_ok.mp hi
  exact h hzero i hd

/-! The low half of a word is what the encoder packs from the pieces that the decoder cuts (R61). -/

theorem lowRegs_of_low8 {f : Fields} (h : f.low8 = 0#8) : lowRegs f.rb f.re = f.imm := by
  rw [Fields.low8] at h
  rw [lowRegs, ← h, Fields.rb, Fields.re, extractLsb'_append_extractLsb' f.imm 8 4 4,
    extractLsb'_append_extractLsb' f.imm 0 8 8, BitVec.extractLsb'_eq_self]

theorem lowWidth_of_low12 {f : Fields} (h : f.low12 = 0#12) : lowWidth f.wsel = f.imm := by
  rw [Fields.low12] at h
  rw [lowWidth, ← h, Fields.wsel, extractLsb'_append_extractLsb' f.imm 0 4 12, BitVec.extractLsb'_eq_self]

/-- Format R is packed with `re` 0, and its low 12 bits are then those of format L. -/
theorem lowRegs_zero (rb : BitVec 4) : lowRegs rb 0#4 = lowWidth rb := by
  revert rb
  decide

theorem lowString_base_minlen (f : Fields) : lowString f.base f.minlen = f.imm := by
  rw [lowString, Fields.base, Fields.minlen, extractLsb'_append_extractLsb' f.imm 0 6 10, BitVec.extractLsb'_eq_self]

theorem regOf_ne {a b : BitVec 4} (h : ¬(a == b) = true) : regOf a ≠ regOf b := by
  intro hab
  exact h (beq_iff_eq.mpr (by rw [← regField_regOf a, hab, regField_regOf]))

/-- The commands of a width selector with the field that selects each (R67). -/
def byWidth (i8 i16 i32 i64 i128 : Instr) : List (BitVec 4 × Instr) :=
  [(0#4, i8), (1#4, i16), (2#4, i32), (3#4, i64), (4#4, i128)]

theorem pickWidth_mem_byWidth {wsel : BitVec 4} {i8 i16 i32 i64 i128 i : Instr}
    (h : pickWidth wsel i8 i16 i32 i64 i128 = .ok i) : (wsel, i) ∈ byWidth i8 i16 i32 i64 i128 := by
  unfold pickWidth at h
  split at h
  case h_6 => cases h
  all_goals
    next hwsel =>
    cases h
    simp [byWidth, ← BitVec.toNat_inj, hwsel]

section Formats

/-! One lemma for each format of R61: a word of opcode `n` read in the format is read back, when the commands the
reading chooses from are the ones the encoder writes with that opcode in that format. -/

variable {f : Fields} {n : Nat} (hop : f.op.toNat = n)

include hop

theorem decodeN_readsBack {c : Instr} (hc : IsCommandOf ⟨BitVec.ofNat 8 n, 0#4, 0#4, 0#16⟩ c) :
    ReadsBack f (decodeN f c) := by
  refine needZero_readsBack fun hzero => ?_
  simp only [Bool.and_eq_true, beq_iff_eq] at hzero
  obtain ⟨⟨hrd, hra⟩, himm⟩ := hzero
  exact ok_readsBack hop hc hrd.symm hra.symm himm.symm

theorem decodeD_readsBack {c : Reg → Instr}
    (hc : ∀ rd, IsCommandOf ⟨BitVec.ofNat 8 n, regField rd, 0#4, 0#16⟩ (c rd)) : ReadsBack f (decodeD f c) := by
  refine needZero_readsBack fun hzero => ?_
  simp only [Bool.and_eq_true, beq_iff_eq] at hzero
  obtain ⟨hra, himm⟩ := hzero
  exact ok_readsBack hop (hc _) (regField_regOf _) hra.symm himm.symm

theorem decodeA_readsBack {c : Reg → Instr}
    (hc : ∀ ra, IsCommandOf ⟨BitVec.ofNat 8 n, 0#4, regField ra, 0#16⟩ (c ra)) : ReadsBack f (decodeA f c) := by
  refine needZero_readsBack fun hzero => ?_
  simp only [Bool.and_eq_true, beq_iff_eq] at hzero
  obtain ⟨hrd, himm⟩ := hzero
  exact ok_readsBack hop (hc _) hrd.symm (regField_regOf _) himm.symm

theorem decodeU_readsBack {c : Reg → Reg → Instr}
    (hc : ∀ rd ra, IsCommandOf ⟨BitVec.ofNat 8 n, regField rd, regField ra, 0#16⟩ (c rd ra)) :
    ReadsBack f (decodeU f c) :=
  needZero_readsBack fun hzero =>
    ok_readsBack hop (hc _ _) (regField_regOf _) (regField_regOf _) (eq_of_beq hzero).symm

theorem decodeUPair_readsBack {c : Reg → Reg → Instr}
    (hc : ∀ rd ra, rd ≠ ra → IsCommandOf ⟨BitVec.ofNat 8 n, regField rd, regField ra, 0#16⟩ (c rd ra)) :
    ReadsBack f (decodeUPair f c) := by
  refine needZero_readsBack fun hzero => ?_
  split
  · exact error_readsBack _
  · next hne =>
    exact ok_readsBack hop (hc _ _ (regOf_ne hne)) (regField_regOf _) (regField_regOf _) (eq_of_beq hzero).symm

theorem decodeR_readsBack {c : Reg → Reg → Reg → Instr}
    (hc : ∀ rd ra rb, IsCommandOf ⟨BitVec.ofNat 8 n, regField rd, regField ra, lowRegs (regField rb) 0#4⟩
      (c rd ra rb)) : ReadsBack f (decodeR f c) := by
  refine needZero_readsBack fun hzero => ?_
  have himm : lowRegs f.rb 0#4 = f.imm := (lowRegs_zero _).trans (lowWidth_of_low12 (eq_of_beq hzero))
  exact ok_readsBack hop (hc _ _ _) (regField_regOf _) (regField_regOf _) (by rwa [regField_regOf])

theorem decodeQ_readsBack {c : Reg → Reg → Reg → Reg → Instr}
    (hc : ∀ rd re ra rb, rd ≠ re →
      IsCommandOf ⟨BitVec.ofNat 8 n, regField rd, regField ra, lowRegs (regField rb) (regField re)⟩ (c rd re ra rb)) :
    ReadsBack f (decodeQ f c) := by
  refine needZero_readsBack fun hzero => ?_
  split
  · exact error_readsBack _
  · next hne =>
    have himm : lowRegs f.rb f.re = f.imm := lowRegs_of_low8 (eq_of_beq hzero)
    exact ok_readsBack hop (hc _ _ _ _ (regOf_ne hne)) (regField_regOf _) (regField_regOf _)
      (by rwa [regField_regOf, regField_regOf])

theorem decodeI_readsBack {c : Reg → Reg → BitVec 16 → Instr}
    (hc : ∀ rd ra imm, IsCommandOf ⟨BitVec.ofNat 8 n, regField rd, regField ra, imm⟩ (c rd ra imm)) :
    ReadsBack f (decodeI f c) :=
  ok_readsBack hop (hc _ _ _) (regField_regOf _) (regField_regOf _) rfl

theorem decodeL_readsBack {i8 i16 i32 i64 i128 : Reg → Instr}
    (hc : ∀ rd, ∀ c ∈ byWidth (i8 rd) (i16 rd) (i32 rd) (i64 rd) (i128 rd),
      IsCommandOf ⟨BitVec.ofNat 8 n, regField rd, 0#4, lowWidth c.1⟩ c.2) :
    ReadsBack f (decodeL f i8 i16 i32 i64 i128) := by
  refine needZero_readsBack fun hzero i hi => ?_
  simp only [Bool.and_eq_true, beq_iff_eq] at hzero
  obtain ⟨hra, hlow⟩ := hzero
  exact ok_readsBack hop (hc _ _ (pickWidth_mem_byWidth hi)) (regField_regOf _) hra.symm (lowWidth_of_low12 hlow) i rfl

theorem decodeG_readsBack {i8 i16 i32 i64 i128 : Reg → Instr}
    (hc : ∀ ra, ∀ c ∈ byWidth (i8 ra) (i16 ra) (i32 ra) (i64 ra) (i128 ra),
      IsCommandOf ⟨BitVec.ofNat 8 n, 0#4, regField ra, lowWidth c.1⟩ c.2) :
    ReadsBack f (decodeG f i8 i16 i32 i64 i128) := by
  refine needZero_readsBack fun hzero i hi => ?_
  simp only [Bool.and_eq_true, beq_iff_eq] at hzero
  obtain ⟨hrd, hlow⟩ := hzero
  exact ok_readsBack hop (hc _ _ (pickWidth_mem_byWidth hi)) hrd.symm (regField_regOf _) (lowWidth_of_low12 hlow) i rfl

theorem decodeS_readsBack {c : Reg → BitVec 6 → BitVec 10 → Instr}
    (hc : ∀ ra base minlen, baseLegal base = true →
      IsCommandOf ⟨BitVec.ofNat 8 n, 0#4, regField ra, lowString base minlen⟩ (c ra base minlen)) :
    ReadsBack f (decodeS f c) := by
  refine needZero_readsBack fun hzero => ?_
  split
  · next hbase =>
    exact ok_readsBack hop (hc _ _ _ hbase) (eq_of_beq hzero).symm (regField_regOf _) (lowString_base_minlen f)
  · exact error_readsBack _

theorem decodeX_readsBack {c : BitVec 16 → Instr}
    (hc : ∀ idx, IsCommandOf ⟨BitVec.ofNat 8 n, 0#4, 0#4, idx⟩ (c idx)) : ReadsBack f (decodeX f c) := by
  refine needZero_readsBack fun hzero => ?_
  simp only [Bool.and_eq_true, beq_iff_eq] at hzero
  obtain ⟨hrd, hra⟩ := hzero
  exact ok_readsBack hop (hc _) hrd.symm hra.symm rfl

end Formats

/-- The opcode map reads back what the encoder writes: the same opcode, in the same format, for every command. -/
theorem decodeFields_readsBack (f : Fields) : ReadsBack f (decodeFields f) := by
  unfold decodeFields
  split
  -- formats N, D, A, U and U with two destinations
  case h_11 hop | h_12 hop | h_37 hop => exact decodeN_readsBack hop ⟨rfl, rfl⟩
  case h_1 hop | h_5 hop | h_28 hop | h_29 hop => exact decodeD_readsBack hop fun _ => ⟨rfl, rfl⟩
  case h_7 hop | h_8 hop => exact decodeA_readsBack hop fun _ => ⟨rfl, rfl⟩
  case h_2 hop | h_9 hop | h_10 hop | h_16 hop | h_27 hop => exact decodeU_readsBack hop fun _ _ => ⟨rfl, rfl⟩
  case h_30 hop | h_31 hop => exact decodeUPair_readsBack hop fun _ _ hne => ⟨bne_iff_ne.mpr hne, rfl⟩
  -- formats L and G
  case h_3 hop | h_4 hop => exact decodeL_readsBack hop fun _ _ hc => by fin_cases hc <;> exact ⟨rfl, rfl⟩
  case h_6 hop => exact decodeG_readsBack hop fun _ _ hc => by fin_cases hc <;> exact ⟨rfl, rfl⟩
  -- formats Q, S and X
  case h_33 hop => exact decodeQ_readsBack hop fun _ _ _ _ hne => ⟨bne_iff_ne.mpr hne, rfl⟩
  case h_36 hop => exact decodeS_readsBack hop fun _ _ _ hbase => ⟨hbase, rfl⟩
  case h_38 hop => exact decodeX_readsBack hop fun _ => ⟨rfl, rfl⟩
  -- format I
  case h_39 hop | h_40 hop | h_41 hop | h_42 hop | h_43 hop | h_44 hop | h_45 hop | h_46 hop | h_47 hop | h_48 hop |
      h_49 hop | h_50 hop | h_51 hop | h_52 hop | h_53 hop | h_54 hop =>
    exact decodeI_readsBack hop fun _ _ _ => ⟨rfl, rfl⟩
  -- an unassigned opcode, and format R
  case h_55 => exact error_readsBack _
  all_goals
    next hop =>
    exact decodeR_readsBack hop fun _ _ _ => ⟨rfl, rfl⟩

/-- Settles O3: the command's word has the fields of `w`, and a word is its fields. -/
theorem decodedWordEncodesBack : Obligations.DecodedWordEncodesBack := by
  intro w i hd
  obtain ⟨hwf, hfields⟩ := decodeFields_readsBack (Fields.ofWord w) i hd
  exact ⟨hwf, by rw [encode, hfields, Fields.toWord_ofWord]⟩

/-! ### A word that is legal by the masks of R61 to R63 decodes -/

/-- The opcode map read the other way: an opcode with a format is read by the rule of that format (R62). -/
theorem ReadAs.of_formatOf {f : Fields} {fmt : Format} (hfmt : formatOf f.op.toNat = some fmt) :
    ReadAs f f.op.toNat fmt (decodeFields f) := by
  unfold decodeFields
  split
  case h_55 =>
    have hnone : formatOf f.op.toNat = none := by
      simp only [formatOf, List.lookup_eq_none_iff, opcodeTable, List.forall_mem_cons, bne_iff_ne, List.not_mem_nil,
        false_imp_iff, implies_true, and_true]
      and_intros
      all_goals assumption
    cases hfmt.symm.trans hnone
  all_goals
    next hop =>
    rw [hop] at hfmt ⊢
    obtain rfl := Option.some.inj hfmt
    constructor
    decide

theorem ReservedZero.of_and_reserved {fmt : Format} {w : CmdWord} (h : w.toNat &&& fmt.reserved = 0) :
    ReservedZero fmt (Fields.ofWord w) := by
  have hw : w &&& (reservedFields fmt).toWord = 0#32 := by
    rw [← BitVec.toNat_inj, BitVec.toNat_and, reservedFields_toWord, h, BitVec.toNat_ofNat]
  have hand := toWord_and_toWord (Fields.ofWord w) (reservedFields fmt)
  rw [Fields.toWord_ofWord, hw] at hand
  have hfields := (congrArg Fields.ofWord hand).trans (Fields.ofWord_toWord _)
  obtain ⟨-, hrd, hra, himm⟩ := Fields.mk.inj hfields
  exact ⟨hrd.symm, hra.symm, himm.symm⟩

/-- The low `n` bits are zero when the mask of these bits finds no 1. -/
theorem low_eq_zero_of_and_lowMask {k n : Nat} {x : BitVec k} (hn : n ≤ k)
    (h : x &&& BitVec.ofNat k (2 ^ n - 1) = 0#k) : x.extractLsb' 0 n = 0#n := by
  have hmask : 2 ^ n - 1 < 2 ^ k :=
    Nat.lt_of_lt_of_le (Nat.sub_one_lt_of_lt (Nat.two_pow_pos n)) (Nat.pow_le_pow_right (by decide) hn)
  have hx : x.toNat % 2 ^ n = 0 := by
    simpa [Nat.mod_eq_of_lt hmask, Nat.and_two_pow_sub_one_eq_mod] using congrArg BitVec.toNat h
  exact BitVec.eq_of_toNat_eq (by simpa using hx)

theorem eq_zero_of_and_fullMask {k : Nat} {x : BitVec k} (h : x &&& BitVec.ofNat k (2 ^ k - 1) = 0#k) : x = 0#k :=
  BitVec.extractLsb'_eq_self.symm.trans (low_eq_zero_of_and_lowMask (Nat.le_refl k) h)

theorem pickWidth_of_le {wsel : BitVec 4} (h : wsel.toNat ≤ 4) (i8 i16 i32 i64 i128 : Instr) :
    ∃ i, pickWidth wsel i8 i16 i32 i64 i128 = .ok i := by
  interval_cases hw : wsel.toNat
  all_goals simp [pickWidth, hw]

theorem wsel_le_of_restrictionsHold {w : CmdWord} {op : Nat} {fmt : Format}
    (hfmt : (fmt == .L || fmt == .G) = true) (hrest : restrictionsHold op fmt w.toNat = true) :
    (Fields.ofWord w).wsel.toNat ≤ 4 := by
  rw [ofWord_wsel_toNat]
  simp only [restrictionsHold, hfmt, Bool.and_eq_true] at hrest
  obtain ⟨⟨⟨hwsel, -⟩, -⟩, -⟩ := hrest
  simpa using hwsel

/-- Line 2 of R63 is the test that the reading makes, and lines 3 to 6 are what it needs from there on. -/
theorem ReadAs.exists_ok {w : CmdWord} {op : Nat} {fmt : Format} {d : Decoded}
    (h : ReadAs (Fields.ofWord w) op fmt d) (hzero : ReservedZero fmt (Fields.ofWord w))
    (hrest : restrictionsHold op fmt w.toNat = true) : ∃ i, d = .ok i := by
  have hfield : ∀ {x : BitVec 4}, x &&& 0xF#4 = 0#4 → x = 0#4 := eq_zero_of_and_fullMask (k := 4)
  have himm : ∀ {x : BitVec 16}, x &&& 0xFFFF#16 = 0#16 → x = 0#16 := eq_zero_of_and_fullMask (k := 16)
  have hlow12 : ∀ {f : Fields}, f.imm &&& 0x0FFF#16 = 0#16 → f.low12 = 0#12 :=
    low_eq_zero_of_and_lowMask (n := 12) (by decide)
  have hlow8 : ∀ {f : Fields}, f.imm &&& 0x00FF#16 = 0#16 → f.low8 = 0#8 :=
    low_eq_zero_of_and_lowMask (n := 8) (by decide)
  obtain ⟨hrd, hra, hlow⟩ := hzero
  cases h with
  | I => exact ⟨_, rfl⟩
  | N => exact ⟨_, needZero_eq_ok.mpr ⟨by simp [hfield hrd, hfield hra, himm hlow], rfl⟩⟩
  | D => exact ⟨_, needZero_eq_ok.mpr ⟨by simp [hfield hra, himm hlow], rfl⟩⟩
  | A => exact ⟨_, needZero_eq_ok.mpr ⟨by simp [hfield hrd, himm hlow], rfl⟩⟩
  | X => exact ⟨_, needZero_eq_ok.mpr ⟨by simp [hfield hrd, hfield hra], rfl⟩⟩
  | U => exact ⟨_, needZero_eq_ok.mpr ⟨by simp [himm hlow], rfl⟩⟩
  | R => exact ⟨_, needZero_eq_ok.mpr ⟨by simp [hlow12 hlow], rfl⟩⟩
  | L =>
    obtain ⟨i, hi⟩ := pickWidth_of_le (wsel_le_of_restrictionsHold (fmt := .L) rfl hrest) _ _ _ _ _
    exact ⟨i, needZero_eq_ok.mpr ⟨by simp [hfield hra, hlow12 hlow], hi⟩⟩
  | G =>
    obtain ⟨i, hi⟩ := pickWidth_of_le (wsel_le_of_restrictionsHold (fmt := .G) rfl hrest) _ _ _ _ _
    exact ⟨i, needZero_eq_ok.mpr ⟨by simp [hfield hrd, hlow12 hlow], hi⟩⟩
  | UPair _ hop =>
    have hne : (Fields.ofWord w).rd ≠ (Fields.ofWord w).ra := by
      rw [← BitVec.toNat_ne_iff_ne, ofWord_rd_toNat, ofWord_ra_toNat]
      obtain rfl | rfl : op = 0x45 ∨ op = 0x46 := by simpa using hop
      all_goals simpa [restrictionsHold] using hrest
    exact ⟨_, needZero_eq_ok.mpr ⟨by simp [himm hlow], if_neg (by simpa using hne)⟩⟩
  | Q _ hop =>
    subst hop
    have hne : (Fields.ofWord w).rd ≠ (Fields.ofWord w).re := by
      rw [← BitVec.toNat_ne_iff_ne, ofWord_rd_toNat, ofWord_re_toNat]
      simpa [restrictionsHold] using hrest
    exact ⟨_, needZero_eq_ok.mpr ⟨by simp [hlow8 hlow], if_neg (by simpa using hne)⟩⟩
  | S _ hop =>
    subst hop
    have hbase : baseLegal (Fields.ofWord w).base = true := by
      rw [baseLegal_iff, ofWord_base_toNat]
      simpa [restrictionsHold] using hrest
    exact ⟨_, needZero_eq_ok.mpr ⟨by simp [hfield hrd], if_pos hbase⟩⟩

/-- The decoder accepts every word that the masks accept (R63). -/
theorem decode_ok_of_legalWord {w : CmdWord} (h : legalWord w = true) : ∃ i, decode w = .ok i := by
  have hop : bitsOf w.toNat 24 8 = (Fields.ofWord w).op.toNat := bitsOf_toNat w 24 8
  unfold legalWord at h
  split at h
  · cases h
  · next fmt hfmt =>
    obtain ⟨hzero, hrest⟩ := Bool.and_eq_true_iff.mp h
    rw [hop] at hfmt hrest
    exact (ReadAs.of_formatOf hfmt).exists_ok (.of_and_reserved (eq_of_beq hzero)) hrest

/-! ### A word that is illegal by the masks faults -/

theorem step_faultsWith_of_decode_error {s : State} {tx : Transaction} {rest : List Transaction} {e : DecodeError}
    (hr : s.resetLine = false) (hp : s.pending = tx :: rest) (hd : decode tx.cmd = .error e) :
    FaultsWith (step s) s .illegalCommand := by
  rw [step_of_decode_error hr hp hd]
  exact fail_faultsWith _ s

theorem step_faultsWith_of_not_legalWord {s : State} {w : CmdWord} {d : PortWord} {rest : List Transaction}
    (hlegal : legalWord w = false) (hr : s.resetLine = false) (hp : s.pending = ⟨w, d⟩ :: rest) :
    FaultsWith (step s) s .illegalCommand := by
  obtain ⟨e, hd⟩ := decode_of_not_legalWord hlegal
  exact step_faultsWith_of_decode_error hr hp hd

/-- Settles O4: the two directions are `legalWord_of_decode_ok` and `decode_ok_of_legalWord`. -/
theorem decoderAcceptsExactlyLegalWords : Obligations.DecoderAcceptsExactlyLegalWords := by
  intro w
  refine ⟨⟨fun ⟨_, hd⟩ => legalWord_of_decode_ok hd, decode_ok_of_legalWord⟩, fun s d rest => ?_⟩
  exact step_faultsWith_of_not_legalWord

theorem not_legalWord_of_formatOf_none {w : CmdWord} (h : formatOf (bitsOf w.toNat 24 8) = none) :
    legalWord w = false := by
  simp [legalWord, h]

theorem not_legalWord_of_reserved {w : CmdWord} {fmt : Format} (hfmt : formatOf (bitsOf w.toNat 24 8) = some fmt)
    (hset : w.toNat &&& fmt.reserved ≠ 0) : legalWord w = false := by
  simp [legalWord, hfmt, hset]

set_option maxRecDepth 4096 in
/-- The ranges of R65 and the table of R62 part the 256 opcodes. -/
theorem unassigned_iff_formatOf_none : ∀ op < 256, unassigned op = true ↔ formatOf op = none := by
  decide

set_option maxRecDepth 4096 in
/-- There are 202 opcodes in the ranges of R65. -/
theorem unassigned_count : ((List.range 256).filter unassigned).length = 202 := by
  decide

/-- Settles O5: an opcode in the ranges has no format. -/
theorem unassignedOpcodesRaise : Obligations.UnassignedOpcodesRaise := by
  refine ⟨unassigned_count, rfl, unassigned_iff_formatOf_none, fun s w d rest hop => ?_⟩
  have hnone := (unassigned_iff_formatOf_none _ (Nat.mod_lt _ (by decide))).mp hop
  exact step_faultsWith_of_not_legalWord (not_legalWord_of_formatOf_none hnone)

/-- Settles O6: such a word fails line 2 of R63, and the opcodes 0x00 and 0xFF are unassigned. -/
theorem reservedFieldBitsRaise : Obligations.ReservedFieldBitsRaise := by
  intro s w d rest hr hp hw
  refine step_faultsWith_of_not_legalWord ?_ hr hp
  obtain ⟨fmt, hfmt, hset⟩ | rfl | rfl := hw
  · exact not_legalWord_of_reserved hfmt hset
  · exact not_legalWord_of_formatOf_none (by decide)
  · exact not_legalWord_of_formatOf_none (by decide)

/-! ### The reserved encodings: two destinations in one register, and a base outside 2 to 36 -/

/-- The four ways a command is not well formed (R63 lines 4 to 6). -/
theorem not_wellFormed_cases {i : Instr} (h : ¬i.WellFormed) :
    (∃ r, i = .pinc r r) ∨ (∃ r, i = .pdec r r) ∨ (∃ r ra rb, i = .divmod r r ra rb) ∨
      ∃ ra base minlen, i = .str ra base minlen ∧ baseLegal base = false := by
  cases i
  case pinc | pdec | divmod | str => simp_all [Instr.WellFormed, Instr.wellFormed]
  all_goals exact absurd rfl h

/-- The word of a command that is not well formed is illegal (R68, R69). -/
theorem decodeFields_of_not_wellFormed {i : Instr} (h : ¬i.WellFormed) : ∃ e, decodeFields i.fields = .error e := by
  obtain ⟨r, rfl⟩ | ⟨r, rfl⟩ | ⟨r, ra, rb, rfl⟩ | ⟨ra, base, minlen, rfl, hbase⟩ := not_wellFormed_cases h
  · exact ⟨.samePair, by simp [Instr.fields, decodeFields, decodeUPair, needZero]⟩
  · exact ⟨.samePair, by simp [Instr.fields, decodeFields, decodeUPair, needZero]⟩
  · exact ⟨.samePair, by
      simp [Instr.fields, decodeFields, decodeQ, needZero, Fields.low8, Fields.re, lowRegs_re, lowRegs_low8]⟩
  · exact ⟨.reservedBase, by simp [Instr.fields, decodeFields, decodeS, needZero, Fields.base, lowString_base, hbase]⟩

/-- A command that is not well formed raises what its word raises (log 6). -/
theorem exec_of_not_wellFormed {i : Instr} (h : ¬i.WellFormed) (s : State) : exec i s = fail .illegalCommand s := by
  obtain ⟨r, rfl⟩ | ⟨r, rfl⟩ | ⟨r, ra, rb, rfl⟩ | ⟨ra, base, minlen, rfl, hbase⟩ := not_wellFormed_cases h
  · exact if_pos rfl
  · exact if_pos rfl
  · exact if_pos rfl
  · exact if_neg (Bool.eq_false_iff.mp hbase)

theorem exec_faultsWith_of_not_wellFormed {i : Instr} (h : ¬i.WellFormed) (s : State) :
    FaultsWith (exec i s) s .illegalCommand := by
  rw [exec_of_not_wellFormed h]
  exact fail_faultsWith _ s

/-- A word with the fields of a command that is not well formed. -/
theorem step_faultsWith_of_not_wellFormed {s : State} {w : CmdWord} {d : PortWord} {rest : List Transaction}
    {i : Instr} (hi : ¬i.WellFormed) (hw : decode w = decodeFields i.fields) (hr : s.resetLine = false)
    (hp : s.pending = ⟨w, d⟩ :: rest) : FaultsWith (step s) s .illegalCommand := by
  obtain ⟨e, he⟩ := decodeFields_of_not_wellFormed hi
  exact step_faultsWith_of_decode_error hr hp (hw.trans he)

/-- A word with the fields of a well-formed command. -/
theorem decode_eq_ok_of_wellFormed {w : CmdWord} {i : Instr} (hw : decode w = decodeFields i.fields)
    (hi : i.WellFormed) : decode w = .ok i := by
  rw [hw, ← decode_encode_fields]
  exact decode_encode i hi

theorem pinc_wellFormed_iff (rd ra : Reg) : (Instr.pinc rd ra).WellFormed ↔ rd ≠ ra := bne_iff_ne

theorem pdec_wellFormed_iff (rd ra : Reg) : (Instr.pdec rd ra).WellFormed ↔ rd ≠ ra := bne_iff_ne

theorem divmod_wellFormed_iff (rd re ra rb : Reg) : (Instr.divmod rd re ra rb).WellFormed ↔ rd ≠ re := bne_iff_ne

theorem str_wellFormed_iff (ra : Reg) (base : BitVec 6) (minlen : BitVec 10) :
    (Instr.str ra base minlen).WellFormed ↔ 2 ≤ base.toNat ∧ base.toNat ≤ 36 := baseLegal_iff base

/-- Settles O23: with the two destinations equal the command is not well formed, otherwise it is. -/
theorem reservedPairsRaise : Obligations.ReservedPairsRaise := by
  have hpinc (r : Reg) : ¬(Instr.pinc r r).WellFormed := by simp [pinc_wellFormed_iff]
  have hpdec (r : Reg) : ¬(Instr.pdec r r).WellFormed := by simp [pdec_wellFormed_iff]
  have hdivmod (r ra rb : Reg) : ¬(Instr.divmod r r ra rb).WellFormed := by simp [divmod_wellFormed_iff]
  refine ⟨fun s d rest r ra rb w hr hp hw => ?_, fun s r ra rb => ⟨?_, ?_, ?_⟩, fun rd ra rb re =>
    ⟨fun hne => ⟨?_, ?_⟩, fun hne => ?_⟩⟩
  · obtain rfl | rfl | rfl := hw
    · exact step_faultsWith_of_not_wellFormed (hpinc r) (decode_cmdU 0x45 r r (by decide)) hr hp
    · exact step_faultsWith_of_not_wellFormed (hpdec r) (decode_cmdU 0x46 r r (by decide)) hr hp
    · exact step_faultsWith_of_not_wellFormed (hdivmod r ra rb) (decode_cmdQ 0x60 r ra rb r (by decide)) hr hp
  · exact exec_faultsWith_of_not_wellFormed (hpinc r) s
  · exact exec_faultsWith_of_not_wellFormed (hpdec r) s
  · exact exec_faultsWith_of_not_wellFormed (hdivmod r ra rb) s
  · exact decode_eq_ok_of_wellFormed (decode_cmdU 0x45 rd ra (by decide)) ((pinc_wellFormed_iff rd ra).mpr hne)
  · exact decode_eq_ok_of_wellFormed (decode_cmdU 0x46 rd ra (by decide)) ((pdec_wellFormed_iff rd ra).mpr hne)
  · exact decode_eq_ok_of_wellFormed (decode_cmdQ 0x60 rd ra rb re (by decide))
      ((divmod_wellFormed_iff rd re ra rb).mpr hne)

/-- Settles O24: `STR` is well formed exactly with a base in 2 to 36, and `RDSC` always. -/
theorem reservedBaseRaises : Obligations.ReservedBaseRaises := by
  intro ra base minlen idx
  have hword := decode_cmdS 0x70 ra base minlen (by decide)
  refine ⟨fun hbase => ?_, fun hlo hhi => ?_, ?_⟩
  · have hstr : ¬(Instr.str ra base minlen).WellFormed := by
      rw [str_wellFormed_iff]
      omega
    exact ⟨fun s d rest => step_faultsWith_of_not_wellFormed hstr hword,
      exec_faultsWith_of_not_wellFormed hstr⟩
  · exact decode_eq_ok_of_wellFormed hword ((str_wellFormed_iff ra base minlen).mpr ⟨hlo, hhi⟩)
  · exact decode_eq_ok_of_wellFormed (decode_cmdX 0x72 idx (by decide)) rfl

/-! ### The characters of a value read back -/

theorem parseDigits_eq_ofDigits (base : Nat) (cs : List Byte) :
    parseDigits base cs = Nat.ofDigits base (cs.reverse.map charValue) := by
  rw [parseDigits, Nat.ofDigits_eq_foldr, List.foldr_map, List.foldr_reverse]
  simp [Nat.mul_comm, Nat.add_comm]

theorem parseDigits_plainDigits {v base : Nat} (hb : 2 ≤ base) (hb' : base ≤ 36) :
    parseDigits base (plainDigits v base) = v := by
  unfold plainDigits
  split
  · next hv => simp [parseDigits, charValue_zeroChar, hv]
  · have hread : ∀ d ∈ Nat.digits base v, (charValue ∘ digitChar) d = id d := fun d hd =>
      charValue_digitChar d (Nat.lt_of_lt_of_le (Nat.digits_lt_base hb hd) hb')
    rw [parseDigits_eq_ofDigits, List.reverse_reverse, List.map_map, List.map_congr_left hread, List.map_id,
      Nat.ofDigits_digits]

/-- Leading pad characters count nothing. -/
theorem parseDigits_padLeft (base n : Nat) (cs : List Byte) :
    parseDigits base (padLeft n cs) = parseDigits base cs := by
  rw [parseDigits_eq_ofDigits, parseDigits_eq_ofDigits, padLeft]
  simp [charValue_zeroChar, Nat.ofDigits_append_replicate_zero]

/-- R195: what `STR` writes reads back as the value. -/
theorem parseDigits_strOf (v : Value) {base : BitVec 6} (n : Nat) (hb : baseLegal base = true) :
    parseDigits base.toNat (strOf v base n) = v.toNat := by
  obtain ⟨hlo, hhi⟩ := (baseLegal_iff base).mp hb
  rw [strOf_eq v base n hlo, parseDigits_padLeft, parseDigits_plainDigits hlo hhi]

/-! ### The pseudo-instructions -/

theorem append_toNat {n m : Nat} (a : BitVec n) (b : BitVec m) : (a ++ b).toNat = a.toNat * 2 ^ m + b.toNat := by
  rw [BitVec.toNat_append, ← Nat.shiftLeft_add_eq_or_of_lt b.isLt, Nat.shiftLeft_eq]

theorem execRd128_answersOnly (ra : Reg) (s : State) :
    AnswersOnly (exec (.rd128 ra) s) s (s.reg ra).lower.toNat := by
  refine readOut_answersOnly _ s _ ?_
  rw [narrowRead_toNat _ _ (by decide), Value.lower_toNat]

theorem execLdz128_writesOnly (rd : Reg) {s : State} {k : Limb} (h : s.wdata = k.setWidth 256) :
    WritesOnly (exec (.ldz128 rd) s) s rd k.toNat := by
  refine writeBack_writesOnly rd _ s _ ?_
  have hk := k.isLt
  rw [zext256_toNat (by decide), wdataLow_toNat, h, BitVec.toNat_setWidth]
  omega

theorem execLdp_writesOnly (rd : Reg) (s : State) : WritesOnly (exec (.ldp rd) s) s rd s.wdata.toNat :=
  writeBack_writesOnly rd _ s _ (Value.ofPort_toNat _)

/-- `STR` with a legal base completes, and `S` reads back as the value. -/
theorem execStr_parseDigits (ra : Reg) {base : BitVec 6} (minlen : BitVec 10) (s : State) (hb : baseLegal base = true) :
    ∃ t, exec (.str ra base minlen) s = .next t ∧ parseDigits base.toNat t.str = (s.reg ra).toNat :=
  ⟨_, if_pos hb, parseDigits_strOf _ _ hb⟩

/-- Settles O34: each is its expansion's command, whose meaning reads the presented `wdata` as the named limbs. -/
theorem pseudoInstructionsDoWhatTheyName : Obligations.PseudoInstructionsDoWhatTheyName := by
  intro s r k u l a b c d
  refine ⟨rfl, execRd128_answersOnly r s, rfl, execLdz128_writesOnly r, rfl, fun hw => ?_, rfl, fun hw => ?_, rfl,
    execStr_parseDigits r 0#10 s (by decide)⟩
  · have hvalue : s.wdata.toNat = u.toNat * 2 ^ 128 + l.toNat := (congrArg BitVec.toNat hw).trans (append_toNat u l)
    exact hvalue ▸ execLdp_writesOnly r s
  · have hvalue : s.wdata.toNat = a.toNat * 2 ^ 192 + b.toNat * 2 ^ 128 + c.toNat * 2 ^ 64 + d.toNat := by
      rw [hw, Pseudo.expand, append_toNat, append_toNat, append_toNat]
      omega
    exact hvalue ▸ execLdp_writesOnly r s

/-! ### The example words of the spec -/

/-- Settles O1: the decoder runs on the fourteen words. -/
theorem specExampleWordsDecode : Obligations.SpecExampleWordsDecode := by
  unfold Obligations.SpecExampleWordsDecode
  decide

end Sys2Proof.Machine

/-! Proofs of the statements about construction, casts and accessors (40_construct_cast.md): one rule for the commands
of each width selector, then the width-free commands. -/

namespace Sys2Proof.Machine

/-! ### What the commands of a width selector do, at every width -/

/-- R102: the end of `LDZ.w`. -/
theorem writeBack_zext256_writesOnly {w : Nat} (hw : w ≤ 256) (rd : Reg) (s : State) :
    WritesOnly (writeBack rd (zext256 (s.wdataLow w)) s) s rd (s.wdata.toNat % 2 ^ w) := by
  refine writeBack_writesOnly rd _ s _ ?_
  rw [zext256_toNat hw, wdataLow_toNat]

/-- The sign bit splits the low bits of `wdata` at `2^(w-1)` (R103). -/
theorem wdataLow_msb (s : State) (n : Nat) :
    (s.wdataLow (n + 1)).msb = decide (¬s.wdata.toNat % 2 ^ (n + 1) < 2 ^ n) := by
  rw [BitVec.msb_eq_decide, wdataLow_toNat, Nat.add_sub_cancel]
  exact decide_eq_decide.mpr Nat.not_lt.symm

/-- R103: the end of `LDS.w`, with `w = n + 1`. -/
theorem writeBack_sext256_writesOnly {n k : Nat} (hn : n + 1 ≤ 256) (rd : Reg) {s : State}
    (hk : k = s.wdata.toNat % 2 ^ (n + 1)) :
    WritesOnly (writeBack rd (sext256 (s.wdataLow (n + 1))) s) s rd
      (if k < 2 ^ n then k else k + 2 ^ 256 - 2 ^ (n + 1)) := by
  refine writeBack_writesOnly rd _ s _ ?_
  rw [sext256_toNat hn, wdataLow_msb, wdataLow_toNat, ← hk]
  simp only [decide_eq_true_eq, ite_not]

/-- R106: the end of `RD.w`. -/
theorem readOut_narrowRead_answersOnly {w : Nat} (hw : w ≤ 128) (v : Value) (s : State) :
    AnswersOnly (readOut (narrowRead v w) s) s (v.toNat % 2 ^ w) :=
  readOut_answersOnly _ s _ (narrowRead_toNat v w hw)

/-- Settles O27: each is the end of `LDZ.w` at its width. -/
theorem ldzZeroExtends : Obligations.LdzZeroExtends := by
  intro s rd
  refine ⟨?_, writeBack_zext256_writesOnly (by decide) rd s, ?_, writeBack_zext256_writesOnly (by decide) rd s,
    ?_, writeBack_zext256_writesOnly (by decide) rd s, ?_, writeBack_zext256_writesOnly (by decide) rd s,
    ?_, writeBack_zext256_writesOnly (by decide) rd s⟩
  · exact decode_eq_ok_of_wellFormed (decode_cmdL 0x03 rd 0 (by decide)) rfl
  · exact decode_eq_ok_of_wellFormed (decode_cmdL 0x03 rd 1 (by decide)) rfl
  · exact decode_eq_ok_of_wellFormed (decode_cmdL 0x03 rd 2 (by decide)) rfl
  · exact decode_eq_ok_of_wellFormed (decode_cmdL 0x03 rd 3 (by decide)) rfl
  · exact decode_eq_ok_of_wellFormed (decode_cmdL 0x03 rd 4 (by decide)) rfl

/-- Settles O28: each is the end of `LDS.w` at its width. -/
theorem ldsSignExtends : Obligations.LdsSignExtends := by
  intro s rd k
  refine ⟨?_, writeBack_sext256_writesOnly (by decide) rd, ?_, writeBack_sext256_writesOnly (by decide) rd,
    ?_, writeBack_sext256_writesOnly (by decide) rd, ?_, writeBack_sext256_writesOnly (by decide) rd,
    ?_, writeBack_sext256_writesOnly (by decide) rd⟩
  · exact decode_eq_ok_of_wellFormed (decode_cmdL 0x04 rd 0 (by decide)) rfl
  · exact decode_eq_ok_of_wellFormed (decode_cmdL 0x04 rd 1 (by decide)) rfl
  · exact decode_eq_ok_of_wellFormed (decode_cmdL 0x04 rd 2 (by decide)) rfl
  · exact decode_eq_ok_of_wellFormed (decode_cmdL 0x04 rd 3 (by decide)) rfl
  · exact decode_eq_ok_of_wellFormed (decode_cmdL 0x04 rd 4 (by decide)) rfl

/-- Settles O29: each is the end of `RD.w` at its width. -/
theorem narrowReadsTruncate : Obligations.NarrowReadsTruncate := by
  intro s ra
  refine ⟨?_, readOut_narrowRead_answersOnly (by decide) _ s, ?_, readOut_narrowRead_answersOnly (by decide) _ s,
    ?_, readOut_narrowRead_answersOnly (by decide) _ s, ?_, readOut_narrowRead_answersOnly (by decide) _ s,
    ?_, readOut_narrowRead_answersOnly (by decide) _ s⟩
  · exact decode_eq_ok_of_wellFormed (decode_cmdG 0x06 ra 0 (by decide)) rfl
  · exact decode_eq_ok_of_wellFormed (decode_cmdG 0x06 ra 1 (by decide)) rfl
  · exact decode_eq_ok_of_wellFormed (decode_cmdG 0x06 ra 2 (by decide)) rfl
  · exact decode_eq_ok_of_wellFormed (decode_cmdG 0x06 ra 3 (by decide)) rfl
  · exact decode_eq_ok_of_wellFormed (decode_cmdG 0x06 ra 4 (by decide)) rfl

/-! ### Accessors, the nonzero test and the bit length -/

theorem upper_setWidth_toNat (v : Value) : (v.upper.setWidth 256).toNat = v.toNat / 2 ^ 128 := by
  rw [BitVec.toNat_setWidth_of_le (by decide), v.upper_toNat]

/-- Settles O30: `rdata` is the upper limb, widened, and the value's port word. -/
theorem readUpperAndWholeValue : Obligations.ReadUpperAndWholeValue := by
  intro s ra
  refine ⟨?_, readOut_answersOnly _ s _ (upper_setWidth_toNat _), ?_, readOut_answersOnly _ s _ (Value.toPort_toNat _)⟩
  · exact decode_eq_ok_of_wellFormed (decode_cmdA 0x07 ra (by decide)) rfl
  · exact decode_eq_ok_of_wellFormed (decode_cmdA 0x08 ra (by decide)) rfl

/-- R109: either limb is nonzero exactly when the integer is. -/
theorem limbs_bne_zero (v : Value) : (v.upper != 0#128 || v.lower != 0#128) = decide (v.toNat ≠ 0) := by
  rw [Bool.eq_iff_iff, Bool.or_eq_true, bne_iff_ne, bne_iff_ne, decide_eq_true_iff, ne_eq v.toNat, Value.toNat_eq_zero,
    Value.ext_iff, not_and_or]
  rfl

/-- Settles O31: the limb test is the test of the integer. -/
theorem boolIsNonzeroTest : Obligations.BoolIsNonzeroTest := by
  intro s rd ra
  refine ⟨?_, writeBack_writesOnly rd _ s _ ?_⟩
  · exact decode_eq_ok_of_wellFormed (decode_cmdU 0x09 rd ra (by decide)) rfl
  · rw [limbs_bne_zero, boolValue_toNat]
    simp only [decide_eq_true_eq, ne_eq, ite_not]

theorem bits256_eq_zero_iff (v : Value) : bits256 v = 0 ↔ v.toNat = 0 := by
  rw [bits256_eq]
  split <;> simp [*]

/-- The highest set bit of a nonzero value (R110). -/
theorem two_pow_bits256_pred_le {v : Value} (h : v.toNat ≠ 0) : 2 ^ (bits256 v - 1) ≤ v.toNat := by
  rw [bits256_eq, if_neg h, Nat.add_sub_cancel]
  exact Nat.log2_self_le h

theorem execBits_writesOnly (rd ra : Reg) (s : State) :
    WritesOnly (exec (.bits rd ra) s) s rd (bits256 (s.reg ra)) := by
  refine writeBack_writesOnly rd _ s _ ?_
  have hlt : bits256 (s.reg ra) < 2 ^ 256 := Nat.lt_of_le_of_lt (bits256_le _) (by decide)
  rw [Value.ofPort_toNat, BitVec.toNat_ofNat, Nat.mod_eq_of_lt hlt]

/-- Settles O32: the `n` is `bits256`, which is at most 256 and bounds the value on both sides. -/
theorem bitsIsBitLength : Obligations.BitsIsBitLength := by
  intro s rd ra
  refine ⟨?_, bits256 (s.reg ra), bits256_le _, execBits_writesOnly rd ra s, bits256_eq_zero_iff _,
    fun h => ⟨two_pow_bits256_pred_le h, toNat_lt_two_pow_bits256 _⟩, rfl⟩
  exact decode_eq_ok_of_wellFormed (decode_cmdU 0x0A rd ra (by decide)) rfl

/-! ### Clearing, moving and the full load -/

/-- `LDP` of an integer presented on `wdata` (R104). -/
theorem execLdp_reg_toNat (rd : Reg) {s : State} {n : Nat} (hw : s.wdata = BitVec.ofNat 256 n) (hn : n < 2 ^ 256) :
    ∃ t, exec (.ldp rd) s = .next t ∧ (t.reg rd).toNat = n := by
  obtain ⟨t, ht, hreg, -⟩ := execLdp_writesOnly rd s
  refine ⟨t, ht, ?_⟩
  rw [hreg, hw, BitVec.toNat_ofNat, Nat.mod_eq_of_lt hn]

/-- Settles O33: the register holds the presented integer, and the limbs are its quotient and remainder by
`2^128`. -/
theorem pairAndFourWayConstruction : Obligations.PairAndFourWayConstruction := by
  refine ⟨fun s rd u l hw => ?_, fun s rd a b c d hw => ?_⟩
  · obtain ⟨t, ht, hreg⟩ := execLdp_reg_toNat rd hw (Value.toNat_lt ⟨u, l⟩)
    exact ⟨t, ht, Value.toNat_inj.mp hreg⟩
  · have hb := b.isLt
    have hc := c.isLt
    have hd := d.isLt
    obtain ⟨t, ht, hreg⟩ := execLdp_reg_toNat rd hw (by have := a.isLt; omega)
    refine ⟨t, ht, ?_, ?_⟩
    · rw [Value.upper_toNat, hreg]
      omega
    · rw [Value.lower_toNat, hreg]
      omega

/-- Settles O26: the three are register writes of 0, of a register and of `wdata`. -/
theorem clearMoveAndFullLoad : Obligations.ClearMoveAndFullLoad := by
  intro s rd ra
  refine ⟨?_, writeBack_writesOnly rd _ s _ Value.zero_toNat, ?_, writeBack_writesOnly rd _ s _ rfl,
    ?_, execLdp_writesOnly rd s⟩
  · exact decode_eq_ok_of_wellFormed (decode_cmdD 0x01 rd (by decide)) rfl
  · exact decode_eq_ok_of_wellFormed (decode_cmdU 0x02 rd ra (by decide)) rfl
  · exact decode_eq_ok_of_wellFormed (decode_cmdD 0x05 rd (by decide)) rfl

end Sys2Proof.Machine

/-! Proofs of the statements about the bitwise commands (41_bitwise.md): the encoding of a command and the integer it
writes, then what a right operand without upper bits does to the upper limb. -/

namespace Sys2Proof.Machine

/-! ### The bitwise commands with a register and with the zero-extended immediate -/

theorem and256_immOperand_toNat (a : Value) (imm : BitVec 16) :
    (and256 a (immOperand imm)).toNat = a.toNat &&& imm.toNat := by
  rw [and256_toNat, immOperand_toNat]

theorem or256_immOperand_toNat (a : Value) (imm : BitVec 16) :
    (or256 a (immOperand imm)).toNat = a.toNat ||| imm.toNat := by
  rw [or256_toNat, immOperand_toNat]

theorem xor256_immOperand_toNat (a : Value) (imm : BitVec 16) :
    (xor256 a (immOperand imm)).toNat = a.toNat ^^^ imm.toNat := by
  rw [xor256_toNat, immOperand_toNat]

/-- Settles O35: each command is the write of a limb-wise function's value, which is the function on integers. -/
theorem bitwiseCommands : Obligations.BitwiseCommands := by
  intro s rd ra rb imm
  refine ⟨?_, ?_, writeBack_writesOnly rd _ s _ (and256_toNat _ _),
    writeBack_writesOnly rd _ s _ (and256_immOperand_toNat _ imm),
    ?_, ?_, writeBack_writesOnly rd _ s _ (or256_toNat _ _),
    writeBack_writesOnly rd _ s _ (or256_immOperand_toNat _ imm),
    ?_, ?_, writeBack_writesOnly rd _ s _ (xor256_toNat _ _),
    writeBack_writesOnly rd _ s _ (xor256_immOperand_toNat _ imm),
    ?_, writeBack_writesOnly rd _ s _ (not256_toNat _)⟩
  · exact decode_eq_ok_of_wellFormed (decode_cmdR 0x10 rd ra rb (by decide)) rfl
  · exact decode_eq_ok_of_wellFormed (decode_cmdI 0x90 rd ra imm (by decide)) rfl
  · exact decode_eq_ok_of_wellFormed (decode_cmdR 0x11 rd ra rb (by decide)) rfl
  · exact decode_eq_ok_of_wellFormed (decode_cmdI 0x91 rd ra imm (by decide)) rfl
  · exact decode_eq_ok_of_wellFormed (decode_cmdR 0x12 rd ra rb (by decide)) rfl
  · exact decode_eq_ok_of_wellFormed (decode_cmdI 0x92 rd ra imm (by decide)) rfl
  · exact decode_eq_ok_of_wellFormed (decode_cmdU 0x13 rd ra (by decide)) rfl

/-! ### A right operand whose upper limb is 0 (R125) -/

theorem and256_upper_of_upper_eq_zero (a : Value) {b : Value} (hb : b.upper = 0#128) :
    (and256 a b).upper = 0#128 := by
  rw [and256, and128, hb, BitVec.and_zero]

theorem or256_upper_of_upper_eq_zero (a : Value) {b : Value} (hb : b.upper = 0#128) :
    (or256 a b).upper = a.upper := by
  rw [or256, or128, hb, BitVec.or_zero]

theorem xor256_upper_of_upper_eq_zero (a : Value) {b : Value} (hb : b.upper = 0#128) :
    (xor256 a b).upper = a.upper := by
  rw [xor256, xor128, hb, BitVec.xor_zero]

theorem writeBack_upper (rd : Reg) (s : State) {v : Value} {u : Limb} (h : v.upper = u) :
    ∃ t, writeBack rd v s = .next t ∧ (t.reg rd).upper = u :=
  ⟨_, rfl, by simp [h]⟩

/-- The common end of both forms: whatever the right operand is, with upper limb 0 it leaves `AND` no upper bits and
`OR` and `XOR` those of the left operand. -/
theorem writeBack_bitwise_upper (rd : Reg) (s : State) (a : Value) {b : Value} (hb : b.upper = 0#128) :
    ∃ t u v, writeBack rd (and256 a b) s = .next t ∧ (t.reg rd).upper = 0#128 ∧
      writeBack rd (or256 a b) s = .next u ∧ (u.reg rd).upper = a.upper ∧
      writeBack rd (xor256 a b) s = .next v ∧ (v.reg rd).upper = a.upper := by
  obtain ⟨t, hand, ht⟩ := writeBack_upper rd s (and256_upper_of_upper_eq_zero a hb)
  obtain ⟨u, hor, hu⟩ := writeBack_upper rd s (or256_upper_of_upper_eq_zero a hb)
  obtain ⟨v, hxor, hv⟩ := writeBack_upper rd s (xor256_upper_of_upper_eq_zero a hb)
  exact ⟨t, u, v, hand, ht, hor, hu, hxor, hv⟩

/-- Settles O36: the immediate's upper limb is 0 by definition, the register's by hypothesis. -/
theorem narrowOperandSuppliesNoUpperBits : Obligations.NarrowOperandSuppliesNoUpperBits := by
  intro s rd ra rb imm
  have himm : (immOperand imm).upper = 0#128 := rfl
  obtain ⟨t, u, v, hand, ht, hor, hu, hxor, hv⟩ := writeBack_bitwise_upper rd s (s.reg ra) himm
  exact ⟨t, u, v, hand, ht, hor, hu, hxor, hv, writeBack_bitwise_upper rd s (s.reg ra)⟩

end Sys2Proof.Machine

/-! Proofs of the statements about the shifts (42_shift.md): the limbs each case of the shifter gives, the integer each
command writes, then what is left after a shift to the left and back. -/

namespace Sys2Proof.Machine

/-! ### The cases of the shifter on the limbs (R130, R131) -/

theorem shl256_of_ge (a : Value) {n : Nat} (h : 256 ≤ n) : shl256 a n = Value.zero := by
  rw [shl256, dif_neg (by omega), dif_pos h]

theorem shl256_128 (a : Value) : shl256 a 128 = ⟨a.lower, 0#128⟩ := rfl

theorem shl256_of_lt_128 (a : Value) {n : Nat} (h0 : 0 < n) (h : n < 128) :
    shl256 a n = ⟨a.upper <<< n ||| a.lower >>> (128 - n), a.lower <<< n⟩ := by
  rw [shl256, dif_neg (by omega), dif_neg (by omega), dif_neg (by omega), dif_pos h]
  rfl

theorem shl256_of_gt_128 (a : Value) {n : Nat} (h : 128 < n) (hlt : n < 256) :
    shl256 a n = ⟨a.lower <<< (n - 128), 0#128⟩ := by
  rw [shl256, dif_neg (by omega), dif_neg (by omega), dif_neg (by omega), dif_neg (by omega)]
  rfl

theorem shr256_of_ge (a : Value) {n : Nat} (h : 256 ≤ n) : shr256 a n = Value.zero := by
  rw [shr256, dif_neg (by omega), dif_pos h]

theorem shr256_128 (a : Value) : shr256 a 128 = ⟨0#128, a.upper⟩ := rfl

theorem shr256_of_lt_128 (a : Value) {n : Nat} (h0 : 0 < n) (h : n < 128) :
    shr256 a n = ⟨a.upper >>> n, a.lower >>> n ||| a.upper <<< (128 - n)⟩ := by
  rw [shr256, dif_neg (by omega), dif_neg (by omega), dif_neg (by omega), dif_pos h]
  rfl

theorem shr256_of_gt_128 (a : Value) {n : Nat} (h : 128 < n) (hlt : n < 256) :
    shr256 a n = ⟨0#128, a.upper >>> (n - 128)⟩ := by
  rw [shr256, dif_neg (by omega), dif_neg (by omega), dif_neg (by omega), dif_neg (by omega)]
  rfl

/-- A left shift of a limb by 127 keeps its lowest bit alone. -/
theorem limb_shiftLeft_127_toNat (l : Limb) : (l <<< 127).toNat = l.toNat % 2 * 2 ^ 127 := by
  rw [BitVec.toNat_shiftLeft, Nat.shiftLeft_eq]
  omega

/-! ### The integer each command writes (R134, R135) -/

theorem execShl_writesOnly (rd ra rb : Reg) (s : State) :
    WritesOnly (exec (.shl rd ra rb) s) s rd ((s.reg ra).toNat * 2 ^ (s.reg rb).toNat % 2 ^ 256) :=
  writeBack_writesOnly rd _ s _ (shl256_toNat _ _)

theorem execShli_writesOnly (rd ra : Reg) (imm : BitVec 16) (s : State) :
    WritesOnly (exec (.shli rd ra imm) s) s rd ((s.reg ra).toNat * 2 ^ imm.toNat % 2 ^ 256) :=
  writeBack_writesOnly rd _ s _ (shl256_toNat _ _)

theorem execShr_writesOnly (rd ra rb : Reg) (s : State) :
    WritesOnly (exec (.shr rd ra rb) s) s rd ((s.reg ra).toNat / 2 ^ (s.reg rb).toNat) :=
  writeBack_writesOnly rd _ s _ (shr256_toNat _ _)

theorem execShri_writesOnly (rd ra : Reg) (imm : BitVec 16) (s : State) :
    WritesOnly (exec (.shri rd ra imm) s) s rd ((s.reg ra).toNat / 2 ^ imm.toNat) :=
  writeBack_writesOnly rd _ s _ (shr256_toNat _ _)

/-- An amount of 256 or more shifts everything out, in whichever limb its bits are set (R132). -/
theorem execShl_writesOnly_zero (rd ra : Reg) {rb : Reg} {s : State} (h : 256 ≤ (s.reg rb).toNat) :
    WritesOnly (exec (.shl rd ra rb) s) s rd 0 := by
  refine writeBack_writesOnly rd _ s _ ?_
  rw [shl256_of_ge _ h, Value.zero_toNat]

theorem execShr_writesOnly_zero (rd ra : Reg) {rb : Reg} {s : State} (h : 256 ≤ (s.reg rb).toNat) :
    WritesOnly (exec (.shr rd ra rb) s) s rd 0 := by
  refine writeBack_writesOnly rd _ s _ ?_
  rw [shr256_of_ge _ h, Value.zero_toNat]

/-! ### The limbs the immediate forms write -/

theorem execShli_reg (rd ra : Reg) (imm : BitVec 16) (s : State) :
    ∃ t, exec (.shli rd ra imm) s = .next t ∧ t.reg rd = shl256 (s.reg ra) imm.toNat :=
  ⟨_, rfl, by simp⟩

theorem execShri_reg (rd ra : Reg) (imm : BitVec 16) (s : State) :
    ∃ t, exec (.shri rd ra imm) s = .next t ∧ t.reg rd = shr256 (s.reg ra) imm.toNat :=
  ⟨_, rfl, by simp⟩

/-- Settles O37: the commands write `shl256`, whose integer is the closed form and whose limbs at the four boundary
amounts are those of the case each amount falls in. -/
theorem shiftLeftCommands : Obligations.ShiftLeftCommands := by
  intro s rd ra rb imm
  obtain ⟨t, ht, htreg⟩ := execShli_reg rd ra 128#16 s
  obtain ⟨u, hu, hureg⟩ := execShli_reg rd ra 129#16 s
  obtain ⟨v, hv, hvreg⟩ := execShli_reg rd ra 127#16 s
  obtain ⟨x, hx, hxreg⟩ := execShli_reg rd ra 255#16 s
  have hlimbs : x.reg rd = ⟨(s.reg ra).lower <<< 127, 0#128⟩ :=
    hxreg.trans (shl256_of_gt_128 _ (by decide) (by decide))
  refine ⟨?_, ?_, execShl_writesOnly rd ra rb s, execShli_writesOnly rd ra imm s, execShl_writesOnly_zero rd ra,
    t, u, v, x, ht, htreg.trans (shl256_128 _), hu, hureg.trans (shl256_of_gt_128 _ (by decide) (by decide)),
    hv, hvreg.trans (shl256_of_lt_128 _ (by decide) (by decide)), hx, ?_, ?_⟩
  · exact decode_eq_ok_of_wellFormed (decode_cmdR 0x20 rd ra rb (by decide)) rfl
  · exact decode_eq_ok_of_wellFormed (decode_cmdI 0xA0 rd ra imm (by decide)) rfl
  · rw [hlimbs, limb_shiftLeft_127_toNat]
  · rw [hlimbs]

/-- Settles O38: the commands write `shr256`, whose integer is the closed form and whose limbs at the boundary amounts
are those of the case each amount falls in. -/
theorem shiftRightCommands : Obligations.ShiftRightCommands := by
  intro s rd ra rb imm
  obtain ⟨t, ht, htreg⟩ := execShri_reg rd ra 128#16 s
  obtain ⟨u, hu, hureg⟩ := execShri_reg rd ra 129#16 s
  obtain ⟨v, hv, hvreg⟩ := execShri_reg rd ra 127#16 s
  obtain ⟨x, hx, hxreg, -⟩ := execShri_writesOnly rd ra 255#16 s
  refine ⟨?_, ?_, execShr_writesOnly rd ra rb s, execShri_writesOnly rd ra imm s, execShr_writesOnly_zero rd ra,
    t, u, v, x, ht, htreg.trans (shr256_128 _), hu, hureg.trans (shr256_of_gt_128 _ (by decide) (by decide)),
    hv, hvreg.trans (shr256_of_lt_128 _ (by decide) (by decide)), hx, hxreg⟩
  · exact decode_eq_ok_of_wellFormed (decode_cmdR 0x21 rd ra rb (by decide)) rfl
  · exact decode_eq_ok_of_wellFormed (decode_cmdI 0xA1 rd ra imm (by decide)) rfl

/-! ### A shift to the left and back (R136) -/

/-- Multiplying by `2^n` modulo `2^w` and dividing again clears the top `n` of `w` bits. -/
theorem mul_two_pow_mod_div (a : Nat) {n w : Nat} (h : n ≤ w) : a * 2 ^ n % 2 ^ w / 2 ^ n = a % 2 ^ (w - n) := by
  have hw : 2 ^ w = 2 ^ (w - n) * 2 ^ n := (Nat.pow_sub_mul_pow 2 h).symm
  rw [hw, Nat.mul_mod_mul_right, Nat.mul_div_cancel _ (Nat.two_pow_pos n)]

/-- Settles O39: the right shift reads what the left shift wrote, and the same amount, which the left shift keeps. -/
theorem shiftLeftThenRightClearsTop : Obligations.ShiftLeftThenRightClearsTop := by
  refine ⟨fun s rd ra imm hn => ?_, fun s rd ra rb hne hn => ?_⟩
  · obtain ⟨t, ht, htreg, -⟩ := execShli_writesOnly rd ra imm s
    obtain ⟨u, hu, hureg, -⟩ := execShri_writesOnly rd rd imm t
    refine ⟨t, u, ht, hu, ?_⟩
    rw [hureg, htreg, mul_two_pow_mod_div _ (by omega)]
  · obtain ⟨t, ht, htreg, hkept, -⟩ := execShl_writesOnly rd ra rb s
    obtain ⟨u, hu, hureg, -⟩ := execShr_writesOnly rd rd rb t
    refine ⟨t, u, ht, hu, ?_⟩
    rw [hureg, htreg, hkept rb hne.symm, mul_two_pow_mod_div _ (by omega)]

end Sys2Proof.Machine

/-! Proofs of the statements about the comparisons (43_compare.md): one rule for the command of a comparison, then how
the comparisons depend on each other. -/

namespace Sys2Proof.Machine

/-! ### The comparison commands with a register and with the zero-extended immediate -/

/-- The end of every comparison command (43_compare.md, head of the file): `R` is the relation on integers that the
limb-level test `f` decides, `n` the integer of the right operand. -/
theorem writeBack_boolValue_writesOnly {f : Value → Value → Bool} (R : Nat → Nat → Prop) [DecidableRel R]
    (hf : ∀ a b, f a b = true ↔ R a.toNat b.toNat) (rd : Reg) (a : Value) {b : Value} {n : Nat} (hb : b.toNat = n)
    (s : State) : WritesOnly (writeBack rd (boolValue (f a b)) s) s rd (if R a.toNat n then 1 else 0) := by
  subst hb
  refine writeBack_writesOnly rd _ s _ ?_
  rw [boolValue_toNat]
  exact if_congr (hf a b) rfl rfl

/-- Settles O40: each command writes back the answer of a limb-level test, which decides the named relation on the
integers; the immediate's integer is that of its zero extension. -/
theorem compareCommands : Obligations.CompareCommands := by
  intro s rd ra rb imm
  have himm := immOperand_toNat imm
  refine ⟨?_, ?_, writeBack_boolValue_writesOnly (· = ·) eq256_iff rd _ rfl s,
    writeBack_boolValue_writesOnly (· = ·) eq256_iff rd _ himm s,
    ?_, ?_, writeBack_boolValue_writesOnly (· ≠ ·) ne256_iff rd _ rfl s,
    writeBack_boolValue_writesOnly (· ≠ ·) ne256_iff rd _ himm s,
    ?_, ?_, writeBack_boolValue_writesOnly (· < ·) lt256_iff rd _ rfl s,
    writeBack_boolValue_writesOnly (· < ·) lt256_iff rd _ himm s,
    ?_, ?_, writeBack_boolValue_writesOnly (· > ·) gt256_iff rd _ rfl s,
    writeBack_boolValue_writesOnly (· > ·) gt256_iff rd _ himm s,
    ?_, ?_, writeBack_boolValue_writesOnly (· ≤ ·) le256_iff rd _ rfl s,
    writeBack_boolValue_writesOnly (· ≤ ·) le256_iff rd _ himm s,
    ?_, ?_, writeBack_boolValue_writesOnly (· ≥ ·) ge256_iff rd _ rfl s,
    writeBack_boolValue_writesOnly (· ≥ ·) ge256_iff rd _ himm s⟩
  · exact decode_eq_ok_of_wellFormed (decode_cmdR 0x30 rd ra rb (by decide)) rfl
  · exact decode_eq_ok_of_wellFormed (decode_cmdI 0xB0 rd ra imm (by decide)) rfl
  · exact decode_eq_ok_of_wellFormed (decode_cmdR 0x31 rd ra rb (by decide)) rfl
  · exact decode_eq_ok_of_wellFormed (decode_cmdI 0xB1 rd ra imm (by decide)) rfl
  · exact decode_eq_ok_of_wellFormed (decode_cmdR 0x32 rd ra rb (by decide)) rfl
  · exact decode_eq_ok_of_wellFormed (decode_cmdI 0xB2 rd ra imm (by decide)) rfl
  · exact decode_eq_ok_of_wellFormed (decode_cmdR 0x33 rd ra rb (by decide)) rfl
  · exact decode_eq_ok_of_wellFormed (decode_cmdI 0xB3 rd ra imm (by decide)) rfl
  · exact decode_eq_ok_of_wellFormed (decode_cmdR 0x34 rd ra rb (by decide)) rfl
  · exact decode_eq_ok_of_wellFormed (decode_cmdI 0xB4 rd ra imm (by decide)) rfl
  · exact decode_eq_ok_of_wellFormed (decode_cmdR 0x35 rd ra rb (by decide)) rfl
  · exact decode_eq_ok_of_wellFormed (decode_cmdI 0xB5 rd ra imm (by decide)) rfl

/-! ### How the comparisons depend on each other (R149) -/

theorem eq256_eq_false_iff (a b : Value) : eq256 a b = false ↔ a.toNat ≠ b.toNat := by
  rw [Bool.eq_false_iff, ne_eq, eq256_iff]

theorem lt256_eq_false_iff (a b : Value) : lt256 a b = false ↔ b.toNat ≤ a.toNat := by
  rw [Bool.eq_false_iff, ne_eq, lt256_iff, not_lt]

theorem gt256_eq_false_iff (a b : Value) : gt256 a b = false ↔ a.toNat ≤ b.toNat := by
  rw [Bool.eq_false_iff, ne_eq, gt256_iff, not_lt]

theorem le256_eq_not_gt256 (a b : Value) : le256 a b = !gt256 a b := by
  rw [Bool.eq_iff_iff, le256_iff, Bool.not_eq_true', gt256_eq_false_iff]

theorem ge256_eq_not_lt256 (a b : Value) : ge256 a b = !lt256 a b := by
  rw [Bool.eq_iff_iff, ge256_iff, Bool.not_eq_true', lt256_eq_false_iff]

/-- Exactly one of the three tests answers true: the trichotomy of the integers. -/
theorem comparison_trichotomy (a b : Value) :
    (lt256 a b = true ∧ eq256 a b = false ∧ gt256 a b = false) ∨
    (lt256 a b = false ∧ eq256 a b = true ∧ gt256 a b = false) ∨
    (lt256 a b = false ∧ eq256 a b = false ∧ gt256 a b = true) := by
  simp only [lt256_iff, eq256_iff, gt256_iff, lt256_eq_false_iff, eq256_eq_false_iff, gt256_eq_false_iff]
  obtain hlt | heq | hgt := Nat.lt_trichotomy a.toNat b.toNat
  · exact .inl ⟨hlt, hlt.ne, hlt.le⟩
  · exact .inr (.inl ⟨heq.ge, heq, heq.le⟩)
  · exact .inr (.inr ⟨hgt.le, hgt.ne', hgt⟩)

/-- Settles O41: the tests are those of the integers, which have the trichotomy; the limbs of the immediate operand are
those of its zero extension by definition. -/
theorem comparisonTotality : Obligations.ComparisonTotality := fun a b =>
  ⟨comparison_trichotomy a b, ne256_eq_not a b, le256_eq_not_gt256 a b, ge256_eq_not_lt256 a b, gt256_eq_lt256 a b,
    fun _ => ⟨rfl, rfl⟩⟩

end Sys2Proof.Machine

/-! Proofs of the statements about the additive commands (44_additive.md): what the adder and the subtracter give as
integers, one rule for the commands that end in each, then `PINC` and `PDEC` and the carry that a host computes. -/

namespace Sys2Proof.Machine

/-! ### The adder and the subtracter on integers (R151 to R153) -/

/-- R152: the difference, one turn of the ring up when it would fall below 0. -/
theorem sub256_toNat_eq_ite (a b : Value) :
    (sub256 a b).toNat =
      if b.toNat ≤ a.toNat then a.toNat - b.toNat else a.toNat + 2 ^ 256 - b.toNat := by
  have ha := a.toNat_lt
  have hb := b.toNat_lt
  rw [sub256_toNat]
  split
  · omega
  · omega

/-- The step down of `DEC` and `PDEC`, whose corner is 0 (R158, R160). -/
theorem sub256_one_toNat (a : Value) :
    (sub256 a Value.one).toNat = if a.toNat = 0 then 2 ^ 256 - 1 else a.toNat - 1 := by
  rw [sub256_toNat_eq_ite, Value.one_toNat]
  by_cases h : a.toNat = 0
  · rw [if_neg (by omega), if_pos h, h, Nat.zero_add]
  · rw [if_pos (by omega), if_neg h]

/-- The step up of `INC` and `PINC` (R157, R159). -/
theorem add256_one_toNat (a : Value) : (add256 a Value.one).toNat = (a.toNat + 1) % 2 ^ 256 := by
  rw [add256_toNat, Value.one_toNat]

/-- R153: a value and its negation add up to a full turn of the ring. -/
theorem add256_neg256 (a : Value) : add256 a (neg256 a) = Value.zero := by
  have ha := a.toNat_lt
  rw [← Value.toNat_eq_zero, add256_toNat, neg256_toNat]
  omega

/-- The carry test of the adder between limbs (R5), at 256 bits (R161). -/
theorem add256_wraps_iff (a b : Value) :
    (add256 a b).toNat < a.toNat ↔ 2 ^ 256 ≤ a.toNat + b.toNat := by
  have ha := a.toNat_lt
  have hb := b.toNat_lt
  rw [add256_toNat]
  omega

/-! ### The additive commands with a register and with the zero-extended immediate -/

/-- The end of `ADD` and `ADDI` (R154): `n` is the integer of the right operand. -/
theorem writeBack_add256_writesOnly (rd : Reg) (a : Value) {b : Value} {n : Nat} (hb : b.toNat = n) (s : State) :
    WritesOnly (writeBack rd (add256 a b) s) s rd ((a.toNat + n) % 2 ^ 256) :=
  writeBack_writesOnly rd _ s _ (hb ▸ add256_toNat a b)

/-- The end of `SUB` and `SUBI` (R155): `n` is the integer of the subtrahend. -/
theorem writeBack_sub256_writesOnly (rd : Reg) (a : Value) {b : Value} {n : Nat} (hb : b.toNat = n) (s : State) :
    WritesOnly (writeBack rd (sub256 a b) s) s rd
      (if n ≤ a.toNat then a.toNat - n else a.toNat + 2 ^ 256 - n) :=
  writeBack_writesOnly rd _ s _ (hb ▸ sub256_toNat_eq_ite a b)

/-- Settles O42: both forms end in the adder, and the immediate's integer is that of its zero extension. -/
theorem addCommands : Obligations.AddCommands := by
  intro s rd ra rb imm
  refine ⟨?_, ?_, writeBack_add256_writesOnly rd _ rfl s, writeBack_add256_writesOnly rd _ (immOperand_toNat imm) s⟩
  · exact decode_eq_ok_of_wellFormed (decode_cmdR 0x40 rd ra rb (by decide)) rfl
  · exact decode_eq_ok_of_wellFormed (decode_cmdI 0xC0 rd ra imm (by decide)) rfl

/-- Settles O43: both forms end in the subtracter, and the immediate's integer is that of its zero extension. -/
theorem subCommands : Obligations.SubCommands := by
  intro s rd ra rb imm
  refine ⟨?_, ?_, writeBack_sub256_writesOnly rd _ rfl s, writeBack_sub256_writesOnly rd _ (immOperand_toNat imm) s⟩
  · exact decode_eq_ok_of_wellFormed (decode_cmdR 0x41 rd ra rb (by decide)) rfl
  · exact decode_eq_ok_of_wellFormed (decode_cmdI 0xC1 rd ra imm (by decide)) rfl

/-- Settles O44: the command writes `neg256`, which is by definition the complement plus 1. -/
theorem negCommand : Obligations.NegCommand := by
  refine ⟨fun s rd ra => ⟨?_, writeBack_writesOnly rd _ s _ (neg256_toNat _)⟩, fun a => ⟨rfl, add256_neg256 a⟩⟩
  exact decode_eq_ok_of_wellFormed (decode_cmdU 0x42 rd ra (by decide)) rfl

/-- Settles O45: the commands write the two steps of the register. -/
theorem incDecCommands : Obligations.IncDecCommands := by
  intro s rd
  refine ⟨?_, writeBack_writesOnly rd _ s _ (add256_one_toNat _),
    ?_, writeBack_writesOnly rd _ s _ (sub256_one_toNat _)⟩
  · exact decode_eq_ok_of_wellFormed (decode_cmdD 0x43 rd (by decide)) rfl
  · exact decode_eq_ok_of_wellFormed (decode_cmdD 0x44 rd (by decide)) rfl

/-! ### `PINC` and `PDEC` (R159, R160) -/

/-- The end of `PINC` and `PDEC` with two destinations: the old value to `rd`, the stepped one to `ra`. -/
theorem postfixStep_writesBoth {f : Value → Value} {rd ra : Reg} (hne : rd ≠ ra) {s : State} {k : Nat}
    (hk : (f (s.reg ra)).toNat = k) : WritesBoth (postfixStep f rd ra s) s rd (s.reg ra).toNat ra k := by
  rw [postfixStep, if_neg hne]
  exact writeBack_writesBoth rd ra _ _ s _ _ hne rfl hk

/-- Settles O46: the legal and the reserved words are among the pairs of `reservedPairsRaise`, and a legal command
writes the snapshot and the step. -/
theorem postfixCommands : Obligations.PostfixCommands := by
  obtain ⟨hraises, -, hdecodes⟩ := reservedPairsRaise
  refine fun s rd ra => ⟨fun hne => ?_, ?_⟩
  · obtain ⟨hpinc, hpdec⟩ := (hdecodes rd ra 0 0).1 hne
    exact ⟨hpinc, hpdec, postfixStep_writesBoth (f := (add256 · Value.one)) hne (add256_one_toNat _),
      postfixStep_writesBoth (f := (sub256 · Value.one)) hne (sub256_one_toNat _)⟩
  · rintro rfl d rest hr (hp | hp)
    · exact hraises s d rest rd 0 0 _ hr hp (.inl rfl)
    · exact hraises s d rest rd 0 0 _ hr hp (.inr (.inl rfl))

/-! ### The carry out of an addition (R161) -/

/-- Settles O47: `LT` compares the sum that `ADD` left in `rd` with the operand that it kept in `ra`. -/
theorem carryOutIsSumBelowOperand : Obligations.CarryOutIsSumBelowOperand := by
  intro s rd ra rb rt hne
  obtain ⟨t, ht, hsum, hkept, -⟩ := writeBack_add256_writesOnly rd (s.reg ra) (b := s.reg rb) rfl s
  have hcarry : (t.reg rd).toNat < (t.reg ra).toNat ↔ 2 ^ 256 ≤ (s.reg ra).toNat + (s.reg rb).toNat := by
    rw [hsum, hkept ra hne.symm, ← add256_toNat, add256_wraps_iff]
  have hlt := writeBack_boolValue_writesOnly (· < ·) lt256_iff rt (t.reg rd) (b := t.reg ra) rfl t
  exact ⟨t, ht, if_congr hcarry rfl rfl ▸ hlt⟩

end Sys2Proof.Machine

/-! Proofs of the statements about the multiply commands (45_multiply.md): one rule for the commands that end in the
multiplier, then the two ways to form the product of two limbs. -/

namespace Sys2Proof.Machine

/-- The end of `MUL` and `MULI` (R168): `n` is the integer of the right operand. -/
theorem writeBack_mul256_writesOnly (rd : Reg) (a : Value) {b : Value} {n : Nat} (hb : b.toNat = n) (s : State) :
    WritesOnly (writeBack rd (mul256 a b) s) s rd (a.toNat * n % 2 ^ 256) :=
  writeBack_writesOnly rd _ s _ (hb ▸ mul256_toNat a b)

/-- Settles O48: both forms end in the multiplier, and the immediate's integer is that of its zero extension. -/
theorem mulCommands : Obligations.MulCommands := by
  intro s rd ra rb imm
  refine ⟨?_, ?_, writeBack_mul256_writesOnly rd _ rfl s, writeBack_mul256_writesOnly rd _ (immOperand_toNat imm) s⟩
  · exact decode_eq_ok_of_wellFormed (decode_cmdR 0x50 rd ra rb (by decide)) rfl
  · exact decode_eq_ok_of_wellFormed (decode_cmdI 0xD0 rd ra imm (by decide)) rfl

/-- Settles O49: a value is its integer, and both ways give the integer product of the limbs (R8, R167). -/
theorem limbProductDecomposes : Obligations.LimbProductDecomposes := by
  intro x y
  rw [← Value.toNat_inj, mulfull128Tree_toNat, mulfull128_toNat]

end Sys2Proof.Machine

/-! Proofs of the statements about the divide commands (46_divide.md): the division engine answers the pair of its
general loop on every path, one rule for each way a divide command ends, then the division identity. -/

namespace Sys2Proof.Machine

/-! ### The division engine (R175 to R178) -/

theorem divmod256_eq_none (lhs : Value) {rhs : Value} (h : rhs.toNat = 0) : divmod256 lhs rhs = none := by
  rw [Value.toNat_eq_zero.mp h, divmod256_zero]

/-- The fast paths of R176 answer what the general loop of R177 answers: both give the quotient and the remainder, and
a value is its integer. -/
theorem divmod256_eq_divGeneral (lhs : Value) {rhs : Value} (h : rhs.toNat ≠ 0) :
    divmod256 lhs rhs = some (divGeneral lhs rhs) := by
  obtain ⟨q, r, hqr, hq, hr⟩ := divmod256_spec lhs rhs h
  obtain ⟨hgq, hgr⟩ := divGeneral_spec lhs rhs h
  rw [hqr, Value.toNat_inj.mp (hq.trans hgq.symm), Value.toNat_inj.mp (hr.trans hgr.symm)]

/-- Settles O53: every path is the general loop, whose pair is the one that division with remainder determines. -/
theorem longDivisionMeetsItsResult : Obligations.LongDivisionMeetsItsResult := by
  refine fun lhs rhs => ⟨divmod256_eq_none lhs, fun h => ?_⟩
  have hpos : 0 < rhs.toNat := Nat.pos_of_ne_zero h
  obtain ⟨hq, hr⟩ := divGeneral_spec lhs rhs h
  refine ⟨(divGeneral lhs rhs).1, (divGeneral lhs rhs).2, divmod256_eq_divGeneral lhs h, rfl, hq, hr, ?_, ?_,
    fun q' r' hsum hlt => ?_⟩
  · rw [hq, hr, Nat.div_add_mod']
  · rw [hr]
    exact Nat.mod_lt _ hpos
  · have hsum' : r' + rhs.toNat * q' = lhs.toNat := by rw [hsum, Nat.add_comm, Nat.mul_comm]
    obtain ⟨hq', hr'⟩ := (Nat.div_mod_unique hpos).mpr ⟨hsum', hlt⟩
    exact ⟨(hq.trans hq').symm, (hr.trans hr').symm⟩

/-! ### The ends of the divide commands (R179 to R181) -/

theorem divProject_of_ne_zero (pick : Value × Value → Value) (rd : Reg) (a : Value) {b : Value} (h : b.toNat ≠ 0)
    (s : State) : divProject pick rd a b s = writeBack rd (pick (divGeneral a b)) s := by
  rw [divProject, divmod256_eq_divGeneral a h]

/-- The end of `DIV` and `DIVI` (R180): `n` is the integer of the divisor. -/
theorem divProject_fst_writesOnly (rd : Reg) (a : Value) {b : Value} {n : Nat} (hb : b.toNat = n) (hn : n ≠ 0)
    (s : State) : WritesOnly (divProject Prod.fst rd a b s) s rd (a.toNat / n) := by
  subst hb
  rw [divProject_of_ne_zero _ rd a hn]
  exact writeBack_writesOnly rd _ s _ (divGeneral_spec a b hn).1

/-- The end of `MOD` and `MODI` (R181): `n` is the integer of the divisor. -/
theorem divProject_snd_writesOnly (rd : Reg) (a : Value) {b : Value} {n : Nat} (hb : b.toNat = n) (hn : n ≠ 0)
    (s : State) : WritesOnly (divProject Prod.snd rd a b s) s rd (a.toNat % n) := by
  subst hb
  rw [divProject_of_ne_zero _ rd a hn]
  exact writeBack_writesOnly rd _ s _ (divGeneral_spec a b hn).2

theorem divProject_faultsWith (pick : Value × Value → Value) (rd : Reg) (a : Value) {b : Value} (h : b.toNat = 0)
    (s : State) : FaultsWith (divProject pick rd a b s) s .divideByZero := by
  rw [divProject, divmod256_eq_none a h]
  exact fail_faultsWith _ s

theorem execDivmod_writesBoth {rd re : Reg} (hne : rd ≠ re) (ra : Reg) {rb : Reg} {s : State}
    (h : (s.reg rb).toNat ≠ 0) : WritesBoth (exec (.divmod rd re ra rb) s) s rd
      ((s.reg ra).toNat / (s.reg rb).toNat) re ((s.reg ra).toNat % (s.reg rb).toNat) := by
  obtain ⟨hq, hr⟩ := divGeneral_spec (s.reg ra) (s.reg rb) h
  rw [exec, execDivmod, if_neg hne, divmod256_eq_divGeneral _ h]
  exact writeBack_writesBoth rd re _ _ s _ _ hne hq hr

theorem execDivmod_faultsWith {rd re : Reg} (hne : rd ≠ re) (ra : Reg) {rb : Reg} {s : State}
    (h : (s.reg rb).toNat = 0) : FaultsWith (exec (.divmod rd re ra rb) s) s .divideByZero := by
  rw [exec, execDivmod, if_neg hne, divmod256_eq_none _ h]
  exact fail_faultsWith _ s

/-- Settles O50: the legal and the reserved words are among the pairs of `reservedPairsRaise`, and a legal command
ends by the divisor. -/
theorem divmodCommand : Obligations.DivmodCommand := by
  obtain ⟨hraises, -, hdecodes⟩ := reservedPairsRaise
  refine fun s rd re ra rb => ⟨fun hne => ?_, ?_⟩
  · exact ⟨(hdecodes rd ra rb re).2 hne, execDivmod_writesBoth hne ra, execDivmod_faultsWith hne ra⟩
  · rintro rfl d rest hr hp
    exact hraises s d rest rd ra rb _ hr hp (.inr (.inr rfl))

/-- Settles O51: the four are the projections of the engine's pair, and the immediate's integer is that of its zero
extension. -/
theorem divAndModCommands : Obligations.DivAndModCommands := by
  intro s rd ra rb imm
  have himm : (immOperand imm).toNat = imm.toNat := immOperand_toNat imm
  refine ⟨?_, ?_, ?_, ?_,
    fun h => ⟨divProject_fst_writesOnly rd _ rfl h s, divProject_snd_writesOnly rd _ rfl h s⟩,
    fun h => ⟨divProject_fst_writesOnly rd _ himm h s, divProject_snd_writesOnly rd _ himm h s⟩,
    fun h => ⟨divProject_faultsWith _ rd _ h s, divProject_faultsWith _ rd _ h s⟩,
    fun h => ⟨divProject_faultsWith _ rd _ (himm.trans h) s, divProject_faultsWith _ rd _ (himm.trans h) s⟩⟩
  · exact decode_eq_ok_of_wellFormed (decode_cmdR 0x61 rd ra rb (by decide)) rfl
  · exact decode_eq_ok_of_wellFormed (decode_cmdI 0xE1 rd ra imm (by decide)) rfl
  · exact decode_eq_ok_of_wellFormed (decode_cmdR 0x62 rd ra rb (by decide)) rfl
  · exact decode_eq_ok_of_wellFormed (decode_cmdI 0xE2 rd ra imm (by decide)) rfl

/-! ### The division identity on the block (R182) -/

/-- `MUL` and `ADD` give back a dividend of the ring from its quotient, divisor and remainder. -/
theorem add256_mul256_eq {q b r a : Value} (h : q.toNat * b.toNat + r.toNat = a.toNat) :
    add256 (mul256 q b) r = a := by
  rw [← Value.toNat_inj, add256_toNat, mul256_toNat, Nat.mod_add_mod, h, Nat.mod_eq_of_lt a.toNat_lt]

/-- Settles O54: `MUL` reads the quotient that `DIVMOD` wrote and the divisor that it kept, `ADD` the product and the
remainder, and the sum on integers is the dividend, which is below `2^256`. -/
theorem divisionIdentityHoldsOnTheBlock : Obligations.DivisionIdentityHoldsOnTheBlock := by
  intro s rd re ra rb rt hde hdb heb hte h0
  obtain ⟨t, ht, hq, hr, hkept, -⟩ := execDivmod_writesBoth hde ra h0
  have hb : t.reg rb = s.reg rb := hkept rb hdb.symm heb.symm
  have hsum : (t.reg rd).toNat * (t.reg rb).toNat + (t.reg re).toNat = (s.reg ra).toNat := by
    rw [hq, hr, hb, Nat.div_add_mod']
  refine ⟨t, _, _, ht, rfl, rfl, ?_, ?_⟩
  · simp [State.reg_setReg_of_ne _ _ hte.symm, add256_mul256_eq hsum]
  · rw [← hb, hsum]
    exact (s.reg ra).toNat_lt

end Sys2Proof.Machine

/-! Proofs of the statements about the string commands (47_string.md): the digit characters, the two reads of `S`,
then what the padded digits of a value look like and what `STR` does with them. -/

namespace Sys2Proof.Machine

/-! ### The digit characters (R191) -/

theorem digitChar_toNat_of_le_nine {d : Nat} (hd : d ≤ 9) : (digitChar d).toNat = 0x30 + d := by
  rw [digitChar, if_pos hd, BitVec.toNat_ofNat]
  omega

theorem digitChar_toNat_of_ten_le {d : Nat} (hd : 10 ≤ d) (hd' : d ≤ 35) :
    (digitChar d).toNat = 0x61 + (d - 10) := by
  rw [digitChar, if_neg (by omega), BitVec.toNat_ofNat]
  omega

/-- Only the digit 0 has the pad character: the character reads back as its digit. -/
theorem digitChar_ne_zeroChar {d : Nat} (hd : d < 36) (h0 : d ≠ 0) : digitChar d ≠ zeroChar := by
  intro h
  have hread := charValue_digitChar d hd
  rw [h, charValue_zeroChar] at hread
  exact h0 hread.symm

/-- Settles O56: the two ranges of the definition, and the reading back of each character. -/
theorem digitCharactersAreAscii : Obligations.DigitCharactersAreAscii :=
  ⟨fun _ => digitChar_toNat_of_le_nine, fun _ => digitChar_toNat_of_ten_le, rfl,
    fun d hd => charValue_digitChar d (Nat.lt_succ_of_le hd)⟩

/-! ### Reading the length and a character (R193, R194) -/

theorem State.char_of_lt {s : State} {k : Nat} (h : k < s.slen) : s.char k = s.str[k]'h :=
  (List.getElem_eq_getD 0#8).symm

theorem State.char_of_le {s : State} {k : Nat} (h : s.slen ≤ k) : s.char k = 0#8 :=
  List.getD_eq_default _ _ h

/-- The port takes any integer modulo `2^256`, so no bound on it is needed. -/
theorem readOut_ofNat_answersOnly (n : Nat) (s : State) : AnswersOnly (readOut (BitVec.ofNat 256 n) s) s n :=
  ⟨_, rfl, fun _ => rfl, rfl, rfl, rfl, rfl, rfl⟩

theorem execRdsc_answersOnly (idx : BitVec 16) (s : State) :
    AnswersOnly (exec (.rdsc idx) s) s (s.char idx.toNat).toNat :=
  readOut_answersOnly _ s _ (BitVec.toNat_setWidth_of_le (by decide))

/-- Settles O57: `RDSL` answers the length, and `RDSC` the character, which is 0 at and past the end. -/
theorem stringReadCommands : Obligations.StringReadCommands := by
  intro s idx
  have hchar := execRdsc_answersOnly idx s
  refine ⟨?_, readOut_ofNat_answersOnly _ s, ?_, fun h => ?_, fun h => ?_⟩
  · exact decode_eq_ok_of_wellFormed (decode_cmdN 0x71 (by decide)) rfl
  · exact decode_eq_ok_of_wellFormed (decode_cmdX 0x72 idx (by decide)) rfl
  · rwa [State.char_of_lt h] at hchar
  · rwa [State.char_of_le h] at hchar

/-! ### The padded digits of a value (R190) -/

/-- The natural length: one digit for 0, else the digits up to the highest power of the base. -/
theorem plainDigits_length_eq (v : Nat) {base : Nat} (hb : 2 ≤ base) :
    (plainDigits v base).length = if v = 0 then 1 else Nat.log base v + 1 := by
  unfold plainDigits
  split
  · rfl
  · next hv => rw [List.length_reverse, List.length_map, Nat.length_digits base v hb hv]

theorem exists_digit_of_mem_plainDigits {v base : Nat} (hb : 2 ≤ base) {c : Byte} (hc : c ∈ plainDigits v base) :
    ∃ k < base, c = digitChar k := by
  unfold plainDigits at hc
  split at hc
  · exact ⟨0, by omega, List.mem_singleton.mp hc⟩
  · obtain ⟨d, hd, rfl⟩ := List.mem_map.mp (List.mem_reverse.mp hc)
    exact ⟨d, Nat.digits_lt_base hb hd, rfl⟩

/-- The pad character is a digit's character in every base. -/
theorem exists_digit_of_mem_padLeft {v base n : Nat} (hb : 2 ≤ base) {c : Byte}
    (hc : c ∈ padLeft n (plainDigits v base)) : ∃ k < base, c = digitChar k := by
  obtain hpad | hc := List.mem_append.mp hc
  · exact ⟨0, by omega, List.eq_of_mem_replicate hpad⟩
  · exact exists_digit_of_mem_plainDigits hb hc

/-- A nonzero value has no leading zero: its first character is that of its highest digit. -/
theorem plainDigits_getD_zero_ne_zeroChar {v base : Nat} (hb : 2 ≤ base) (hb' : base ≤ 36) (hv : v ≠ 0) :
    (plainDigits v base).getD 0 0#8 ≠ zeroChar := by
  have hnil : Nat.digits base v ≠ [] := Nat.digits_ne_nil_iff_ne_zero.mpr hv
  have hhead : (plainDigits v base).getD 0 0#8 = digitChar ((Nat.digits base v).getLast hnil) := by
    rw [plainDigits, if_neg hv, List.getD_eq_getElem?_getD, ← List.head?_eq_getElem?, List.head?_reverse,
      List.getLast?_map, List.getLast?_eq_some_getLast hnil]
    rfl
  rw [hhead]
  exact digitChar_ne_zeroChar (Nat.lt_of_lt_of_le (Nat.digits_lt_base hb (List.getLast_mem hnil)) hb')
    (Nat.getLast_digit_ne_zero base hv)

theorem padLeft_getD_of_lt {n k : Nat} {out : List Byte} (hk : k < n - out.length) (c : Byte) :
    (padLeft n out).getD k c = zeroChar := by
  rw [padLeft, List.getD_append _ _ _ _ (by rwa [List.length_replicate]), List.getD_replicate _ hk]

/-- The first character past the padding is the first one before it was padded. -/
theorem padLeft_getD_length_sub (n : Nat) (out : List Byte) (c : Byte) :
    (padLeft n out).getD (n - out.length) c = out.getD 0 c := by
  rw [padLeft, List.getD_append_right _ _ _ _ (by rw [List.length_replicate]), List.length_replicate, Nat.sub_self]

/-! ### What `STR` does (R192) -/

/-- With a legal base `STR` replaces `S`, answers the new length and changes nothing else. -/
theorem execStr_completes (ra : Reg) {base : BitVec 6} (minlen : BitVec 10) (s : State) (hb : baseLegal base = true) :
    ∃ t, exec (.str ra base minlen) s = .next t ∧ t.str = strOf (s.reg ra) base minlen.toNat ∧
      (∀ r, t.reg r = s.reg r) ∧ t.status = s.status ∧ Answered s t ⟨.ok, BitVec.ofNat 256 t.slen⟩ :=
  ⟨_, if_pos hb, rfl, fun _ => rfl, rfl, rfl, rfl, rfl⟩

/-- Settles O55: the words are those of `reservedBaseRaises`, and `S` is the digits of the value behind their padding;
the `n` is the number of digits. -/
theorem strWritesTheDigits : Obligations.StrWritesTheDigits := by
  intro s ra base minlen
  obtain ⟨hraises, hdecodes, -⟩ := reservedBaseRaises ra base minlen 0#16
  refine ⟨fun hbase d rest => (hraises hbase).1 s d rest, fun hlo hhi => ⟨hdecodes hlo hhi, ?_⟩⟩
  have hlegal : baseLegal base = true := (baseLegal_iff base).mpr ⟨hlo, hhi⟩
  obtain ⟨t, ht, hstr, hreg, hstatus, hanswered⟩ := execStr_completes ra minlen s hlegal
  have hcap : t.slen ≤ Config.strCap := by
    rw [State.slen, hstr]
    exact strOf_length_le_strCap _ minlen hlegal
  have hread : parseDigits base.toNat t.str = (s.reg ra).toNat := by
    rw [hstr, parseDigits_strOf _ _ hlegal]
  rw [strOf_eq _ base _ hlo] at hstr
  obtain ⟨hone, -⟩ := plainDigits_length _ _ hlo (s.reg ra).toNat_lt
  have hslen : t.slen = max minlen.toNat (plainDigits (s.reg ra).toNat base.toNat).length := by
    rw [State.slen, hstr, padLeft_length]
  have hpad : t.slen - (plainDigits (s.reg ra).toNat base.toNat).length =
      minlen.toNat - (plainDigits (s.reg ra).toNat base.toNat).length := by omega
  refine ⟨t, _, ht, plainDigits_length_eq _ hlo, hslen, by omega, hcap, fun c hc => ?_, fun k hk => ?_, fun hv => ?_,
    hread, hreg, hstatus, hanswered⟩
  · rw [hstr] at hc
    exact exists_digit_of_mem_padLeft hlo hc
  · rw [State.char, hstr]
    exact padLeft_getD_of_lt (hpad ▸ hk) _
  · rw [hpad, State.char, hstr, padLeft_getD_length_sub]
    exact plainDigits_getD_zero_ne_zeroChar hlo hhi hv

end Sys2Proof.Machine

/-! Proofs of the statements about the system commands (48_system.md): reading and clearing `STATUS`. -/

namespace Sys2Proof.Machine

/-- `RDSTAT`'s image: `ILL` on bit 1 and `DZ` on bit 0 (R200). -/
theorem StatusReg.toPort_toNat (st : StatusReg) : st.toPort.toNat = 2 * st.ill.toNat + st.dz.toNat := by
  obtain ⟨dz, ill⟩ := st
  cases dz <;> cases ill <;> rfl

/-- Settles O58: `RDSTAT` is a read of the image of `STATUS`, and `CLRSTAT` one of 0 behind the cleared bits. -/
theorem statusCommands : Obligations.StatusCommands := by
  refine ⟨?_, ?_, fun s => ⟨?_, ?_⟩⟩
  · exact decode_eq_ok_of_wellFormed (decode_cmdN 0x0E (by decide)) rfl
  · exact decode_eq_ok_of_wellFormed (decode_cmdN 0x0F (by decide)) rfl
  · exact readOut_answersOnly _ s _ s.status.toPort_toNat
  · exact ⟨_, rfl, fun _ => rfl, rfl, rfl, rfl, rfl, rfl, rfl⟩

end Sys2Proof.Machine

/-! Proofs of the statements about the exceptions (60_exceptions.md): no step stops, what the two faults do, and which
of them an illegal divide word raises. -/

namespace Sys2Proof.Machine

/-! ### No step stops -/

/-- Settles O12, by the inversions of `exec` and of `step`: every end they list is a next state. -/
theorem everyStepHasANextState : Obligations.EveryStepHasANextState := by
  refine ⟨fun i s => ?_, fun s => ?_⟩
  · obtain ⟨t, ht, -⟩ := exec_ends i s
    exact ⟨t, ht⟩
  · obtain ⟨t, ht, -⟩ := step_ends s
    exact ⟨t, ht⟩

/-! ### A division by zero, and the command behind it -/

/-- The block goes on after a fault: the fault answers its own command and leaves reset alone, so the next step runs
the command that waited behind (R212, R213). -/
theorem FaultsWith.next_command_runs {s : State} {c : Cause} {tx n : Transaction} {more : List Transaction} {i : Instr}
    (h : FaultsWith (step s) s c) (hr : s.resetLine = false) (hp : s.pending = tx :: n :: more)
    (hd : decode n.cmd = .ok i) : ∃ u, step s = .next u ∧ step u = exec i u := by
  obtain ⟨u, hu, -, -, -, -, hreset, hpending, -⟩ := h
  rw [hr] at hreset
  rw [hp, List.tail_cons] at hpending
  exact ⟨u, hu, step_of_decode_ok hreset hpending hd⟩

/-- Settles O52: the step is `exec` of the divide command, which faults on its zero divisor, and the block goes on. -/
theorem zeroDivisorFaultIsPrecise : Obligations.ZeroDivisorFaultIsPrecise := by
  intro s tx rest rd re ra rb hr hp hne hcmd
  have hfault : FaultsWith (step s) s .divideByZero := by
    have himm : (immOperand 0#16).toNat = 0 := immOperand_toNat 0#16
    obtain ⟨hb, hd | hd | hd⟩ | hd | hd := hcmd <;> rw [step_of_decode_ok hr hp hd]
    · exact execDivmod_faultsWith hne ra (Value.toNat_eq_zero.mpr hb)
    · exact divProject_faultsWith _ rd _ (Value.toNat_eq_zero.mpr hb) s
    · exact divProject_faultsWith _ rd _ (Value.toNat_eq_zero.mpr hb) s
    · exact divProject_faultsWith Prod.fst rd (s.reg ra) himm s
    · exact divProject_faultsWith Prod.snd rd (s.reg ra) himm s
  refine ⟨hfault, rfl, fun n more i hrest => ?_⟩
  subst hrest
  exact hfault.next_command_runs hr hp

/-! ### An illegal word -/

/-- The value 3 of `status` is never produced (R211). -/
theorem RespStatus.code_ne_three (r : RespStatus) : r.code ≠ 3#2 := by
  obtain _ | ⟨_ | _⟩ := r <;> decide

/-- Settles O8: the step on an illegal word is a fault, and the three codes stand in the definition. -/
theorem illegalWordRaisesIllegalCommand : Obligations.IllegalWordRaisesIllegalCommand :=
  ⟨fun _ _ _ _ _ => step_faultsWith_of_decode_error, rfl, rfl, rfl, RespStatus.code_ne_three⟩

/-! ### An illegal divide word (R214) -/

/-- `IllegalCommand` sets `ILL` alone. -/
theorem FaultsWith.only_ill_set {o : Result} {s : State} (h : FaultsWith o s .illegalCommand) :
    ∃ t, o = .next t ∧ t.status.dz = s.status.dz ∧ t.status.ill = true := by
  obtain ⟨t, ht, -, hdz, hill, -⟩ := h
  exact ⟨t, ht, by simpa using hdz, by simpa using hill⟩

theorem bitsOf_cmdWord_op {op rd ra low : Nat} (hop : op < 256) (hrd : rd < 16) (hra : ra < 16) (hlow : low < 65536) :
    bitsOf (cmdWord op rd ra low).toNat 24 8 = op := by
  rw [bitsOf, cmdWord_toNat op rd ra low hop hrd hra hlow]
  exact (sum_op op rd ra low hrd hra hlow).trans (Nat.mod_eq_of_lt hop)

/-- The low bits of a word are those of its low half. -/
theorem cmdWord_and_lowMask {op rd ra low n : Nat} (hop : op < 256) (hrd : rd < 16) (hra : ra < 16)
    (hlow : low < 65536) (hn : n ≤ 16) : (cmdWord op rd ra low).toNat &&& (2 ^ n - 1) = low % 2 ^ n := by
  have hdvd : 2 ^ n ∣ 65536 := pow_dvd_pow 2 hn
  rw [Nat.and_two_pow_sub_one_eq_mod, cmdWord_toNat op rd ra low hop hrd hra hlow, ← Nat.mod_mod_of_dvd _ hdvd,
    sum_low, Nat.mod_mod_of_dvd _ hdvd]

/-- A word with a bit set among the low `n` bits, where its format marks them 0, is illegal (R64). -/
theorem not_legalWord_cmdWord_of_low {op low n : Nat} {rd ra : Reg} {fmt : Format} (hfmt : formatOf op = some fmt)
    (hmask : fmt.reserved = 2 ^ n - 1) (hop : op < 256) (hlow : low < 65536) (hn : n ≤ 16)
    (hset : low % 2 ^ n ≠ 0) : legalWord (cmdWord op rd ra low) = false := by
  refine not_legalWord_of_reserved (fmt := fmt) ?_ ?_
  · rwa [bitsOf_cmdWord_op hop rd.isLt ra.isLt hlow]
  · rwa [hmask, cmdWord_and_lowMask hop rd.isLt ra.isLt hlow hn]

/-- A `DIVMOD` word with one of its bits 7 to 0 set. -/
theorem not_legalWord_divmod_of_low8 (rd re ra rb : Reg) {low8 : BitVec 8} (h : low8 ≠ 0#8) :
    legalWord (cmdWord 0x60 rd ra (rb.val * 2 ^ 12 + re.val * 2 ^ 8 + low8.toNat)) = false := by
  have hlow := low8.isLt
  have hset : low8.toNat ≠ 0 := fun h0 => h (BitVec.eq_of_toNat_eq h0)
  exact not_legalWord_cmdWord_of_low (fmt := .Q) (n := 8) rfl rfl (by decide) (by omega) (by decide) (by omega)

/-- A word of format R with one of its bits 11 to 0 set. -/
theorem not_legalWord_formatR_of_low12 {op : Nat} (hfmt : formatOf op = some .R) (hop : op < 256) (rd ra rb : Reg)
    {low : BitVec 12} (h : low ≠ 0#12) : legalWord (cmdWord op rd ra (rb.val * 2 ^ 12 + low.toNat)) = false := by
  have hlow := low.isLt
  have hset : low.toNat ≠ 0 := fun h0 => h (BitVec.eq_of_toNat_eq h0)
  exact not_legalWord_cmdWord_of_low (n := 12) hfmt rfl hop (by omega) (by decide) (by omega)

/-- Settles O25: a word with the pair in one register is among those of `reservedPairsRaise`, and the others are
illegal by their reserved bits; a word is judged before any register is read. -/
theorem illegalCommandBeatsDivideByZero : Obligations.IllegalCommandBeatsDivideByZero := by
  intro s d rest rd re ra rb low low8 w hr hp _ hw
  suffices hfault : FaultsWith (step s) s .illegalCommand from ⟨hfault, hfault.only_ill_set⟩
  obtain rfl | ⟨hset, rfl⟩ | ⟨hset, rfl | rfl⟩ := hw
  · obtain ⟨hraises, -⟩ := reservedPairsRaise
    exact hraises s d rest rd ra rb _ hr hp (.inr (.inr rfl))
  · exact step_faultsWith_of_not_legalWord (not_legalWord_divmod_of_low8 rd re ra rb hset) hr hp
  · exact step_faultsWith_of_not_legalWord (not_legalWord_formatR_of_low12 rfl (by decide) rd ra rb hset) hr hp
  · exact step_faultsWith_of_not_legalWord (not_legalWord_formatR_of_low12 rfl (by decide) rd ra rb hset) hr hp

end Sys2Proof.Machine

/-! Proofs of the statements about reset and waiting (70_reset_and_hazards.md): the two steps that run no command. -/

namespace Sys2Proof.Machine

theorem step_of_no_command {s : State} (hr : s.resetLine = false) (hp : s.pending = []) : step s = .next s := by
  simp [step, hr, hp]

theorem step_of_reset {s : State} (hr : s.resetLine = true) : step s = .next s.takeReset := by
  simp [step, hr]

/-- Settles O9: it is the waiting case of `step`. -/
theorem blockWaitsWithoutCommand : Obligations.BlockWaitsWithoutCommand :=
  fun _ => step_of_no_command

/-- Settles O10: the step takes the reset, and with no command waiting after it the block waits. -/
theorem resetClearsAndDropsUnanswered : Obligations.ResetClearsAndDropsUnanswered := by
  intro s hr
  exact ⟨s.takeReset, step_of_reset hr, s.takeReset_reg, rfl, rfl, rfl, rfl, rfl, rfl, rfl,
    step_of_no_command rfl rfl⟩

end Sys2Proof.Machine
